-- ==== Sys2Proof/Word.lean ====
section
/-! DEFINITION. The sizes of data and addresses of the core (spec/00_scope.md R6, R8, R10) and the byte views of R9. -/

namespace Sys2Proof

/-- A byte: what one bus access carries (20_memory R60). -/
abbrev Byte := BitVec 8

/-- A 16-bit register or offset (00_scope R6). -/
abbrev Word := BitVec 16

/-- A 24-bit bus address: bank and offset (20_memory R61). -/
abbrev Addr := BitVec 24

/-- The two data widths of the core, 8 and 16 bits (00_scope R10). -/
inductive Width where
  | w8
  | w16
  deriving DecidableEq, Repr

/-- The number of bits of a width. -/
def Width.bits : Width → Nat
  | .w8 => 8
  | .w16 => 16

/-- `v[7:0]`, the low byte (AL, XL, YL, SL, DL, PCL of 00_scope R9). -/
def lowByte (v : Word) : Byte := v.extractLsb' 0 8

/-- `v[15:8]`, the high byte (AH, XH, YH, SH, DH, PCH of 00_scope R9). -/
def highByte (v : Word) : Byte := v.extractLsb' 8 8

/-- `hi ++ lo` (00_scope R8). -/
def mkWord (hi lo : Byte) : Word := hi ++ lo

/-- `bank ++ offset` (20_memory R61). -/
def mkAddr (bank : Byte) (offset : Word) : Addr := bank ++ offset

/-- The bank of an address: its bits 23:16 (00_scope R15). -/
def bankOf (a : Addr) : Byte := a.extractLsb' 16 8

/-- The offset of an address: its bits 15:0. -/
def offsetOf (a : Addr) : Word := a.extractLsb' 0 16

end Sys2Proof
end

