-- ==== Sys2Proof/Config.lean ====
section
/-! DEFINITION. What the spec leaves open: the named parameters of spec/00_scope.md R7 and the draws of R13.
None has a value here: each is opaque, so a claim about the model holds for every value (log 6, 7, 10). -/

namespace Sys2Proof

/-- The order of the two byte accesses of a 16-bit bus access (20_memory R67). -/
inductive WordByteOrder where
  | lowFirst
  | highFirst
  deriving DecidableEq, Repr, Inhabited

/-- `VAR_CYCLES`: whether the build adds the cycle units that the handlers name (00_scope R7). -/
opaque Config.varCycles : Bool

/-- `ONE_CYCLE`: the size of one fixed cycle unit (00_scope R7). -/
opaque Config.oneCycle : Nat

/-- `CPU_SHUTDOWN`: whether the wait-address feature is compiled in (00_scope R7, 10_state R41). -/
opaque Config.cpuShutdown : Bool

/-- `IDX_INCDEC_CLEARS_WAIT`: whether INX, INY, DEX and DEY clear the wait address (43_incdec R186). -/
opaque Config.idxIncDecClearsWait : Bool

/-- `WORD_BYTE_ORDER` (20_memory R67). -/
opaque Config.wordByteOrder : WordByteOrder

/-- `EMU_STACK_LINEAR` (20_memory R75). -/
opaque Config.emuStackLinear : Bool

/-- The word that draw number `k` gives: `draw()` of 00_scope R13 where 16 bits are drawn. -/
opaque Config.drawWord : Nat → Word

/-- The bit that draw number `k` gives: `draw()` of 00_scope R13 where a flag is drawn. -/
opaque Config.drawBit : Nat → Bool

end Sys2Proof
end

