-- ==== Sys2Proof/Syntax.lean ====
section
/-! DEFINITION. The instructions of the core: spec/30_encoding.md R91 to R116 and the instruction rules R140 to R309.
One constructor for each instruction rule; the addressing mode of a data instruction is its operand (log 20). -/

namespace Sys2Proof

/-- An immediate of the width-dependent modes `#m` and `#x`: one or two operand bytes (30_encoding R93, R98). -/
inductive Imm where
  | byte (v : Byte)
  | word (v : Word)
  deriving DecidableEq, Repr

/-- The memory addressing modes of the data instructions (30_encoding R99 to R109). -/
inductive Mode where
  /-- `a` (R99). -/
  | abs (a : Word)
  /-- `a,X` (R100). -/
  | absX (a : Word)
  /-- `a,Y` (R100). -/
  | absY (a : Word)
  /-- `dp` (R101). -/
  | dp (d : Byte)
  /-- `dp,X` (R102). -/
  | dpX (d : Byte)
  /-- `dp,Y` (R102). -/
  | dpY (d : Byte)
  /-- `(dp)` (R103). -/
  | dpInd (d : Byte)
  /-- `(dp,X)` (R104). -/
  | dpXInd (d : Byte)
  /-- `(dp),Y` (R105). -/
  | dpIndY (d : Byte)
  /-- `[dp]` (R106). -/
  | dpIndLong (d : Byte)
  /-- `[dp],Y` (R106). -/
  | dpIndLongY (d : Byte)
  /-- `al` (R107). -/
  | long (al : Addr)
  /-- `al,X` (R107). -/
  | longX (al : Addr)
  /-- `sr,S` (R108). -/
  | sr (k : Byte)
  /-- `(sr,S),Y` (R109). -/
  | srIndY (k : Byte)
  deriving DecidableEq, Repr

/-- The operand of an instruction that reads one: an immediate or a place in memory (30_encoding R96). -/
inductive Operand where
  | imm (v : Imm)
  | mem (m : Mode)
  deriving DecidableEq, Repr

/-- What a read-modify-write instruction works on: the accumulator or a place in memory (42_shift_rotate, 43_incdec frames). -/
inductive Target where
  | acc
  | mem (m : Mode)
  deriving DecidableEq, Repr

/-- The instructions, in the order of the spec's files. -/
inductive Instr where
  -- 40_arith
  | adc (o : Operand)
  | sbc (o : Operand)
  -- 41_logical
  | and (o : Operand)
  | ora (o : Operand)
  | eor (o : Operand)
  -- 42_shift_rotate
  | asl (t : Target)
  | lsr (t : Target)
  | rol (t : Target)
  | ror (t : Target)
  -- 43_incdec
  | inc (t : Target)
  | dec (t : Target)
  | inx
  | iny
  | dex
  | dey
  -- 44_load_store
  | lda (o : Operand)
  | ldx (o : Operand)
  | ldy (o : Operand)
  | sta (m : Mode)
  | stx (m : Mode)
  | sty (m : Mode)
  | stz (m : Mode)
  -- 45_compare
  | cmp (o : Operand)
  | cpx (o : Operand)
  | cpy (o : Operand)
  -- 46_bit_test
  | bit (m : Mode)
  | bitImm (v : Imm)
  | tsb (m : Mode)
  | trb (m : Mode)
  -- 47_control
  | bpl (r8 : Byte)
  | bmi (r8 : Byte)
  | bvc (r8 : Byte)
  | bvs (r8 : Byte)
  | bcc (r8 : Byte)
  | bcs (r8 : Byte)
  | bne (r8 : Byte)
  | beq (r8 : Byte)
  | bra (r8 : Byte)
  | brl (r16 : Word)
  | jmpAbs (a : Word)
  | jmpInd (a : Word)
  | jmpIndX (a : Word)
  | jmlLong (al : Addr)
  | jmlInd (a : Word)
  | jsrAbs (a : Word)
  | jsrIndX (a : Word)
  | jsl (al : Addr)
  | rts
  | rtl
  -- 48_stack_transfer
  | pha
  | phx
  | phy
  | php
  | phb
  | phk
  | phd
  | pea (v : Word)
  | pei (d : Byte)
  | per (r16 : Word)
  | pla
  | plx
  | ply
  | plp
  | plb
  | pld
  | tax
  | tay
  | txa
  | tya
  | txy
  | tyx
  | tsx
  | txs
  | tcs
  | tsc
  | tcd
  | tdc
  | xba
  -- 49_system
  | clc
  | sec
  | cli
  | sei
  | cld
  | sed
  | clv
  | rep (k : Byte)
  | sep (k : Byte)
  | xce
  | nop
  | wdm (sig : Byte)
  | mvn (dst src : Byte)
  | mvp (dst src : Byte)
  | wai
  | stp
  | brk (sig : Byte)
  | cop (sig : Byte)
  | rti
  deriving DecidableEq, Repr

end Sys2Proof
end

