-- ==== Sys2Proof/WellFormed.lean ====
section
/-! DEFINITION. Which terms of Instr the opcode map of spec/30_encoding.md R95 gives, for the widths P.M and P.X stand for. -/

namespace Sys2Proof

/-- An immediate has the length that the width bit gives: one byte when the bit is 1, two when it is 0 (30_encoding R93). -/
def Imm.fits (eight : Bool) : Imm → Bool
  | .byte _ => eight
  | .word _ => !eight

/-- The 14 memory modes of ADC, SBC, AND, ORA, EOR, LDA, STA and CMP: all but `dp,Y` (40_arith R140, 44_load_store R193). -/
def Mode.general : Mode → Bool
  | .dpY _ => false
  | _ => true

/-- `dp` and `a`: the modes of TSB, TRB, and of CPX and CPY in memory (45_compare R211, 46_bit_test R222). -/
def Mode.plain : Mode → Bool
  | .dp _ | .abs _ => true
  | _ => false

/-- `dp`, `a`, `dp,X` and `a,X`: the memory modes of the shifts, INC, DEC, BIT, STZ and LDY (42_shift_rotate R170). -/
def Mode.plainX : Mode → Bool
  | .dp _ | .abs _ | .dpX _ | .absX _ => true
  | _ => false

/-- `dp`, `a`, `dp,Y` and `a,Y`: the memory modes of LDX (44_load_store R191). -/
def Mode.plainY : Mode → Bool
  | .dp _ | .abs _ | .dpY _ | .absY _ => true
  | _ => false

/-- `dp`, `a` and `dp,Y`: the modes of STX (44_load_store R194). -/
def Mode.storeX : Mode → Bool
  | .dp _ | .abs _ | .dpY _ => true
  | _ => false

/-- `dp`, `a` and `dp,X`: the modes of STY (44_load_store R195). -/
def Mode.storeY : Mode → Bool
  | .dp _ | .abs _ | .dpX _ => true
  | _ => false

/-- An operand whose immediate has the right length and whose memory mode is one of `ok`. -/
def Operand.allowed (eight : Bool) (ok : Mode → Bool) : Operand → Bool
  | .imm v => v.fits eight
  | .mem m => ok m

/-- A target that is the accumulator or one of the modes of `ok`. -/
def Target.allowed (ok : Mode → Bool) : Target → Bool
  | .acc => true
  | .mem m => ok m

/-- The instruction stands in the opcode map when P.M is `m8` and P.X is `x8` (30_encoding R93, R95). -/
def Instr.wellFormed (m8 x8 : Bool) : Instr → Bool
  | .adc o | .sbc o | .and o | .ora o | .eor o | .lda o | .cmp o => o.allowed m8 Mode.general
  | .asl t | .lsr t | .rol t | .ror t | .inc t | .dec t => t.allowed Mode.plainX
  | .ldx o => o.allowed x8 Mode.plainY
  | .ldy o => o.allowed x8 Mode.plainX
  | .cpx o | .cpy o => o.allowed x8 Mode.plain
  | .sta m => m.general
  | .stx m => m.storeX
  | .sty m => m.storeY
  | .stz m | .bit m => m.plainX
  | .bitImm v => v.fits m8
  | .tsb m | .trb m => m.plain
  | .inx | .iny | .dex | .dey | .bpl _ | .bmi _ | .bvc _ | .bvs _ | .bcc _ | .bcs _ | .bne _ | .beq _ | .bra _ | .brl _
  | .jmpAbs _ | .jmpInd _ | .jmpIndX _ | .jmlLong _ | .jmlInd _ | .jsrAbs _ | .jsrIndX _ | .jsl _ | .rts | .rtl
  | .pha | .phx | .phy | .php | .phb | .phk | .phd | .pea _ | .pei _ | .per _ | .pla | .plx | .ply | .plp | .plb | .pld
  | .tax | .tay | .txa | .tya | .txy | .tyx | .tsx | .txs | .tcs | .tsc | .tcd | .tdc | .xba
  | .clc | .sec | .cli | .sei | .cld | .sed | .clv | .rep _ | .sep _ | .xce | .nop | .wdm _ | .mvn _ _ | .mvp _ _
  | .wai | .stp | .brk _ | .cop _ | .rti => true

end Sys2Proof
end

