-- ==== Sys2Proof/Decode.lean ====
section
/-! DEFINITION. The decoder of spec/30_encoding.md R90 to R95 and R115, R116, and after it the encoder. -/

namespace Sys2Proof

/-- Why bytes are rejected. Neither `noOpcode` nor `truncated` arises when the core fetches (it fetches as many bytes as the
format has), and `notInMap` arises for no byte at all (30_encoding R94). -/
inductive DecodeError where
  /-- There is no byte to read the opcode from. -/
  | noOpcode
  /-- The opcode byte has no place in the opcode map. -/
  | notInMap
  /-- The bytes end before the instruction's last operand byte. -/
  | truncated
  deriving DecidableEq, Repr

/-- How the operand bytes after an opcode make the instruction (the formats of 30_encoding R91). -/
inductive Shape where
  /-- F1: no operand byte. -/
  | none (i : Instr)
  /-- F2: one operand byte. -/
  | byte (f : Byte → Instr)
  /-- F3: two operand bytes, little-endian (R92). -/
  | word (f : Word → Instr)
  /-- F4: three operand bytes, little-endian (R92). -/
  | long (f : Addr → Instr)
  /-- F3B: the destination bank and then the source bank (R115). -/
  | banks (f : Byte → Byte → Instr)
  /-- `#m`: an immediate whose length P.M gives (R93). -/
  | immM (f : Imm → Instr)
  /-- `#x`: an immediate whose length P.X gives (R93). -/
  | immX (f : Imm → Instr)

/-- An instruction with an operand, in a memory mode. -/
def op (k : Operand → Instr) (m : Mode) : Instr := k (.mem m)

/-- An instruction with an operand, immediate. -/
def opImm (k : Operand → Instr) (v : Imm) : Instr := k (.imm v)

/-- A read-modify-write instruction, in a memory mode. -/
def tgt (k : Target → Instr) (m : Mode) : Instr := k (.mem m)

/-- The mode `abs` over its operand bytes (30_encoding R91). -/
def onAbs (k : Mode → Instr) : Shape := .word fun v => k (.abs v)

/-- The mode `absX` over its operand bytes (30_encoding R91). -/
def onAbsX (k : Mode → Instr) : Shape := .word fun v => k (.absX v)

/-- The mode `absY` over its operand bytes (30_encoding R91). -/
def onAbsY (k : Mode → Instr) : Shape := .word fun v => k (.absY v)

/-- The mode `dp` over its operand bytes (30_encoding R91). -/
def onDp (k : Mode → Instr) : Shape := .byte fun v => k (.dp v)

/-- The mode `dpX` over its operand bytes (30_encoding R91). -/
def onDpX (k : Mode → Instr) : Shape := .byte fun v => k (.dpX v)

/-- The mode `dpY` over its operand bytes (30_encoding R91). -/
def onDpY (k : Mode → Instr) : Shape := .byte fun v => k (.dpY v)

/-- The mode `dpInd` over its operand bytes (30_encoding R91). -/
def onDpInd (k : Mode → Instr) : Shape := .byte fun v => k (.dpInd v)

/-- The mode `dpXInd` over its operand bytes (30_encoding R91). -/
def onDpXInd (k : Mode → Instr) : Shape := .byte fun v => k (.dpXInd v)

/-- The mode `dpIndY` over its operand bytes (30_encoding R91). -/
def onDpIndY (k : Mode → Instr) : Shape := .byte fun v => k (.dpIndY v)

/-- The mode `dpIndLong` over its operand bytes (30_encoding R91). -/
def onDpIndLong (k : Mode → Instr) : Shape := .byte fun v => k (.dpIndLong v)

/-- The mode `dpIndLongY` over its operand bytes (30_encoding R91). -/
def onDpIndLongY (k : Mode → Instr) : Shape := .byte fun v => k (.dpIndLongY v)

/-- The mode `long` over its operand bytes (30_encoding R91). -/
def onLong (k : Mode → Instr) : Shape := .long fun v => k (.long v)

/-- The mode `longX` over its operand bytes (30_encoding R91). -/
def onLongX (k : Mode → Instr) : Shape := .long fun v => k (.longX v)

/-- The mode `sr` over its operand bytes (30_encoding R91). -/
def onSr (k : Mode → Instr) : Shape := .byte fun v => k (.sr v)

/-- The mode `srIndY` over its operand bytes (30_encoding R91). -/
def onSrIndY (k : Mode → Instr) : Shape := .byte fun v => k (.srIndY v)

/-- Row 0x of the opcode map (30_encoding R95). -/
def opcodeRow0 : List Shape :=
  [.byte .brk, onDpXInd (op .ora), .byte .cop, onSr (op .ora),
   onDp .tsb, onDp (op .ora), onDp (tgt .asl), onDpIndLong (op .ora),
   .none .php, .immM (opImm .ora), .none (.asl .acc), .none .phd,
   onAbs .tsb, onAbs (op .ora), onAbs (tgt .asl), onLong (op .ora)]

/-- Row 1x of the opcode map (30_encoding R95). -/
def opcodeRow1 : List Shape :=
  [.byte .bpl, onDpIndY (op .ora), onDpInd (op .ora), onSrIndY (op .ora),
   onDp .trb, onDpX (op .ora), onDpX (tgt .asl), onDpIndLongY (op .ora),
   .none .clc, onAbsY (op .ora), .none (.inc .acc), .none .tcs,
   onAbs .trb, onAbsX (op .ora), onAbsX (tgt .asl), onLongX (op .ora)]

/-- Row 2x of the opcode map (30_encoding R95). -/
def opcodeRow2 : List Shape :=
  [.word .jsrAbs, onDpXInd (op .and), .long .jsl, onSr (op .and),
   onDp .bit, onDp (op .and), onDp (tgt .rol), onDpIndLong (op .and),
   .none .plp, .immM (opImm .and), .none (.rol .acc), .none .pld,
   onAbs .bit, onAbs (op .and), onAbs (tgt .rol), onLong (op .and)]

/-- Row 3x of the opcode map (30_encoding R95). -/
def opcodeRow3 : List Shape :=
  [.byte .bmi, onDpIndY (op .and), onDpInd (op .and), onSrIndY (op .and),
   onDpX .bit, onDpX (op .and), onDpX (tgt .rol), onDpIndLongY (op .and),
   .none .sec, onAbsY (op .and), .none (.dec .acc), .none .tsc,
   onAbsX .bit, onAbsX (op .and), onAbsX (tgt .rol), onLongX (op .and)]

/-- Row 4x of the opcode map (30_encoding R95). -/
def opcodeRow4 : List Shape :=
  [.none .rti, onDpXInd (op .eor), .byte .wdm, onSr (op .eor),
   .banks .mvp, onDp (op .eor), onDp (tgt .lsr), onDpIndLong (op .eor),
   .none .pha, .immM (opImm .eor), .none (.lsr .acc), .none .phk,
   .word .jmpAbs, onAbs (op .eor), onAbs (tgt .lsr), onLong (op .eor)]

/-- Row 5x of the opcode map (30_encoding R95). -/
def opcodeRow5 : List Shape :=
  [.byte .bvc, onDpIndY (op .eor), onDpInd (op .eor), onSrIndY (op .eor),
   .banks .mvn, onDpX (op .eor), onDpX (tgt .lsr), onDpIndLongY (op .eor),
   .none .cli, onAbsY (op .eor), .none .phy, .none .tcd,
   .long .jmlLong, onAbsX (op .eor), onAbsX (tgt .lsr), onLongX (op .eor)]

/-- Row 6x of the opcode map (30_encoding R95). -/
def opcodeRow6 : List Shape :=
  [.none .rts, onDpXInd (op .adc), .word .per, onSr (op .adc),
   onDp .stz, onDp (op .adc), onDp (tgt .ror), onDpIndLong (op .adc),
   .none .pla, .immM (opImm .adc), .none (.ror .acc), .none .rtl,
   .word .jmpInd, onAbs (op .adc), onAbs (tgt .ror), onLong (op .adc)]

/-- Row 7x of the opcode map (30_encoding R95). -/
def opcodeRow7 : List Shape :=
  [.byte .bvs, onDpIndY (op .adc), onDpInd (op .adc), onSrIndY (op .adc),
   onDpX .stz, onDpX (op .adc), onDpX (tgt .ror), onDpIndLongY (op .adc),
   .none .sei, onAbsY (op .adc), .none .ply, .none .tdc,
   .word .jmpIndX, onAbsX (op .adc), onAbsX (tgt .ror), onLongX (op .adc)]

/-- Row 8x of the opcode map (30_encoding R95). -/
def opcodeRow8 : List Shape :=
  [.byte .bra, onDpXInd .sta, .word .brl, onSr .sta,
   onDp .sty, onDp .sta, onDp .stx, onDpIndLong .sta,
   .none .dey, .immM .bitImm, .none .txa, .none .phb,
   onAbs .sty, onAbs .sta, onAbs .stx, onLong .sta]

/-- Row 9x of the opcode map (30_encoding R95). -/
def opcodeRow9 : List Shape :=
  [.byte .bcc, onDpIndY .sta, onDpInd .sta, onSrIndY .sta,
   onDpX .sty, onDpX .sta, onDpY .stx, onDpIndLongY .sta,
   .none .tya, onAbsY .sta, .none .txs, .none .txy,
   onAbs .stz, onAbsX .sta, onAbsX .stz, onLongX .sta]

/-- Row Ax of the opcode map (30_encoding R95). -/
def opcodeRowA : List Shape :=
  [.immX (opImm .ldy), onDpXInd (op .lda), .immX (opImm .ldx), onSr (op .lda),
   onDp (op .ldy), onDp (op .lda), onDp (op .ldx), onDpIndLong (op .lda),
   .none .tay, .immM (opImm .lda), .none .tax, .none .plb,
   onAbs (op .ldy), onAbs (op .lda), onAbs (op .ldx), onLong (op .lda)]

/-- Row Bx of the opcode map (30_encoding R95). -/
def opcodeRowB : List Shape :=
  [.byte .bcs, onDpIndY (op .lda), onDpInd (op .lda), onSrIndY (op .lda),
   onDpX (op .ldy), onDpX (op .lda), onDpY (op .ldx), onDpIndLongY (op .lda),
   .none .clv, onAbsY (op .lda), .none .tsx, .none .tyx,
   onAbsX (op .ldy), onAbsX (op .lda), onAbsY (op .ldx), onLongX (op .lda)]

/-- Row Cx of the opcode map (30_encoding R95). -/
def opcodeRowC : List Shape :=
  [.immX (opImm .cpy), onDpXInd (op .cmp), .byte .rep, onSr (op .cmp),
   onDp (op .cpy), onDp (op .cmp), onDp (tgt .dec), onDpIndLong (op .cmp),
   .none .iny, .immM (opImm .cmp), .none .dex, .none .wai,
   onAbs (op .cpy), onAbs (op .cmp), onAbs (tgt .dec), onLong (op .cmp)]

/-- Row Dx of the opcode map (30_encoding R95). -/
def opcodeRowD : List Shape :=
  [.byte .bne, onDpIndY (op .cmp), onDpInd (op .cmp), onSrIndY (op .cmp),
   .byte .pei, onDpX (op .cmp), onDpX (tgt .dec), onDpIndLongY (op .cmp),
   .none .cld, onAbsY (op .cmp), .none .phx, .none .stp,
   .word .jmlInd, onAbsX (op .cmp), onAbsX (tgt .dec), onLongX (op .cmp)]

/-- Row Ex of the opcode map (30_encoding R95). -/
def opcodeRowE : List Shape :=
  [.immX (opImm .cpx), onDpXInd (op .sbc), .byte .sep, onSr (op .sbc),
   onDp (op .cpx), onDp (op .sbc), onDp (tgt .inc), onDpIndLong (op .sbc),
   .none .inx, .immM (opImm .sbc), .none .nop, .none .xba,
   onAbs (op .cpx), onAbs (op .sbc), onAbs (tgt .inc), onLong (op .sbc)]

/-- Row Fx of the opcode map (30_encoding R95). -/
def opcodeRowF : List Shape :=
  [.byte .beq, onDpIndY (op .sbc), onDpInd (op .sbc), onSrIndY (op .sbc),
   .word .pea, onDpX (op .sbc), onDpX (tgt .inc), onDpIndLongY (op .sbc),
   .none .sed, onAbsY (op .sbc), .none .plx, .none .xce,
   .word .jsrIndX, onAbsX (op .sbc), onAbsX (tgt .inc), onLongX (op .sbc)]

/-- The opcode map of 30_encoding R95, by its rows. -/
def opcodeMap : List (List Shape) :=
  [opcodeRow0, opcodeRow1, opcodeRow2, opcodeRow3, opcodeRow4, opcodeRow5, opcodeRow6, opcodeRow7] ++
  [opcodeRow8, opcodeRow9, opcodeRowA, opcodeRowB, opcodeRowC, opcodeRowD, opcodeRowE, opcodeRowF]

/-- The place of an opcode byte in the map: its high nibble names the row, its low nibble the column (30_encoding R95). -/
def shapeOf (opcode : Byte) : Option Shape :=
  opcodeMap[opcode.toNat / 16]?.bind fun row => row[opcode.toNat % 16]?

/-- The number of operand bytes of an immediate (30_encoding R93). -/
def immCount (eight : Bool) : Nat := if eight then 1 else 2

/-- The number of operand bytes of a format, for the width bits P.M and P.X (30_encoding R91, R93). -/
def Shape.operandCount (m8 x8 : Bool) : Shape → Nat
  | .none _ => 0
  | .byte _ => 1
  | .word _ => 2
  | .long _ => 3
  | .banks _ => 2
  | .immM _ => immCount m8
  | .immX _ => immCount x8

/-- An immediate from operand bytes, little-endian, with the bytes after it (30_encoding R92, R93). -/
def buildImm (eight : Bool) (f : Imm → Instr) : List Byte → Option (Instr × List Byte)
  | [] => .none
  | b1 :: bs =>
    if eight then .some (f (.byte b1), bs)
    else match bs with
      | [] => .none
      | b2 :: rest => .some (f (.word (mkWord b2 b1)), rest)

/-- The instruction that a format makes of operand bytes, with the bytes after it (30_encoding R92). -/
def Shape.build (m8 x8 : Bool) : Shape → List Byte → Option (Instr × List Byte)
  | .none i, bs => .some (i, bs)
  | .byte f, b1 :: bs => .some (f b1, bs)
  | .word f, b1 :: b2 :: bs => .some (f (mkWord b2 b1), bs)
  | .long f, b1 :: b2 :: b3 :: bs => .some (f (mkAddr b3 (mkWord b2 b1)), bs)
  | .banks f, b1 :: b2 :: bs => .some (f b1 b2, bs)
  | .immM f, bs => buildImm m8 f bs
  | .immX f, bs => buildImm x8 f bs
  | .byte _, [] => .none
  | .word _, [] => .none
  | .word _, [_] => .none
  | .long _, [] => .none
  | .long _, [_] => .none
  | .long _, [_, _] => .none
  | .banks _, [] => .none
  | .banks _, [_] => .none

/-- The decoder: the first instruction of the bytes, when P.M is `m8` and P.X is `x8`, with the bytes after it
(30_encoding R90 to R93). -/
def decode (m8 x8 : Bool) : List Byte → Except DecodeError (Instr × List Byte)
  | [] => .error .noOpcode
  | opcode :: bs =>
    match shapeOf opcode with
    | .none => .error .notInMap
    | .some shape =>
      match shape.build m8 x8 bs with
      | .none => .error .truncated
      | .some r => .ok r

/-- The bytes of a word, low byte first (30_encoding R92). -/
def wordBytes (v : Word) : List Byte := [lowByte v, highByte v]

/-- The bytes of a 24-bit address, low byte first (30_encoding R92). -/
def addrBytes (v : Addr) : List Byte := [lowByte (offsetOf v), highByte (offsetOf v), bankOf v]

/-- The column of the general data instructions: the opcode is the instruction's base plus this
(the encoding lists of 40_arith R140 and 44_load_store R193). -/
def Mode.generalColumn : Mode → Option Byte
  | .dpXInd _ => .some 0x01
  | .sr _ => .some 0x03
  | .dp _ => .some 0x05
  | .dpIndLong _ => .some 0x07
  | .abs _ => .some 0x0D
  | .long _ => .some 0x0F
  | .dpIndY _ => .some 0x11
  | .dpInd _ => .some 0x12
  | .srIndY _ => .some 0x13
  | .dpX _ => .some 0x15
  | .dpIndLongY _ => .some 0x17
  | .absY _ => .some 0x19
  | .absX _ => .some 0x1D
  | .longX _ => .some 0x1F
  | .dpY _ => .none

/-- The opcode of a general data instruction from its base (the encoding lists of R140, R145, R160 to R162, R190, R210). -/
def generalOpcode (base : Byte) : Operand → Option Byte
  | .imm _ => .some (base + 0x09)
  | .mem m => m.generalColumn.map (base + ·)

/-- The opcode of an instruction whose modes are the accumulator and `dp`, `a`, `dp,X`, `a,X`
(the encoding lists of R170 to R173, R180, R181). -/
def targetOpcode (acc dp abs dpX absX : Byte) : Target → Option Byte
  | .acc => .some acc
  | .mem (.dp _) => .some dp
  | .mem (.abs _) => .some abs
  | .mem (.dpX _) => .some dpX
  | .mem (.absX _) => .some absX
  | .mem _ => .none

/-- The opcode byte of an instruction, from the encoding list of its rule; none where the rule lists no such form. -/
def Instr.opcode : Instr → Option Byte
  | .ora o => generalOpcode 0x00 o
  | .and o => generalOpcode 0x20 o
  | .eor o => generalOpcode 0x40 o
  | .adc o => generalOpcode 0x60 o
  | .sta m => generalOpcode 0x80 (.mem m)
  | .lda o => generalOpcode 0xA0 o
  | .cmp o => generalOpcode 0xC0 o
  | .sbc o => generalOpcode 0xE0 o
  | .asl t => targetOpcode 0x0A 0x06 0x0E 0x16 0x1E t
  | .rol t => targetOpcode 0x2A 0x26 0x2E 0x36 0x3E t
  | .lsr t => targetOpcode 0x4A 0x46 0x4E 0x56 0x5E t
  | .ror t => targetOpcode 0x6A 0x66 0x6E 0x76 0x7E t
  | .dec t => targetOpcode 0x3A 0xC6 0xCE 0xD6 0xDE t
  | .inc t => targetOpcode 0x1A 0xE6 0xEE 0xF6 0xFE t
  | .inx => .some 0xE8
  | .iny => .some 0xC8
  | .dex => .some 0xCA
  | .dey => .some 0x88
  | .ldx (.imm _) => .some 0xA2
  | .ldx (.mem (.dp _)) => .some 0xA6
  | .ldx (.mem (.abs _)) => .some 0xAE
  | .ldx (.mem (.dpY _)) => .some 0xB6
  | .ldx (.mem (.absY _)) => .some 0xBE
  | .ldx (.mem _) => .none
  | .ldy (.imm _) => .some 0xA0
  | .ldy (.mem (.dp _)) => .some 0xA4
  | .ldy (.mem (.abs _)) => .some 0xAC
  | .ldy (.mem (.dpX _)) => .some 0xB4
  | .ldy (.mem (.absX _)) => .some 0xBC
  | .ldy (.mem _) => .none
  | .stx (.dp _) => .some 0x86
  | .stx (.abs _) => .some 0x8E
  | .stx (.dpY _) => .some 0x96
  | .stx _ => .none
  | .sty (.dp _) => .some 0x84
  | .sty (.abs _) => .some 0x8C
  | .sty (.dpX _) => .some 0x94
  | .sty _ => .none
  | .stz (.dp _) => .some 0x64
  | .stz (.dpX _) => .some 0x74
  | .stz (.abs _) => .some 0x9C
  | .stz (.absX _) => .some 0x9E
  | .stz _ => .none
  | .cpx (.imm _) => .some 0xE0
  | .cpx (.mem (.dp _)) => .some 0xE4
  | .cpx (.mem (.abs _)) => .some 0xEC
  | .cpx (.mem _) => .none
  | .cpy (.imm _) => .some 0xC0
  | .cpy (.mem (.dp _)) => .some 0xC4
  | .cpy (.mem (.abs _)) => .some 0xCC
  | .cpy (.mem _) => .none
  | .bit (.dp _) => .some 0x24
  | .bit (.abs _) => .some 0x2C
  | .bit (.dpX _) => .some 0x34
  | .bit (.absX _) => .some 0x3C
  | .bit _ => .none
  | .bitImm _ => .some 0x89
  | .tsb (.dp _) => .some 0x04
  | .tsb (.abs _) => .some 0x0C
  | .tsb _ => .none
  | .trb (.dp _) => .some 0x14
  | .trb (.abs _) => .some 0x1C
  | .trb _ => .none
  | .bpl _ => .some 0x10
  | .bmi _ => .some 0x30
  | .bvc _ => .some 0x50
  | .bvs _ => .some 0x70
  | .bcc _ => .some 0x90
  | .bcs _ => .some 0xB0
  | .bne _ => .some 0xD0
  | .beq _ => .some 0xF0
  | .bra _ => .some 0x80
  | .brl _ => .some 0x82
  | .jmpAbs _ => .some 0x4C
  | .jmpInd _ => .some 0x6C
  | .jmpIndX _ => .some 0x7C
  | .jmlLong _ => .some 0x5C
  | .jmlInd _ => .some 0xDC
  | .jsrAbs _ => .some 0x20
  | .jsrIndX _ => .some 0xFC
  | .jsl _ => .some 0x22
  | .rts => .some 0x60
  | .rtl => .some 0x6B
  | .pha => .some 0x48
  | .phx => .some 0xDA
  | .phy => .some 0x5A
  | .php => .some 0x08
  | .phb => .some 0x8B
  | .phk => .some 0x4B
  | .phd => .some 0x0B
  | .pea _ => .some 0xF4
  | .pei _ => .some 0xD4
  | .per _ => .some 0x62
  | .pla => .some 0x68
  | .plx => .some 0xFA
  | .ply => .some 0x7A
  | .plp => .some 0x28
  | .plb => .some 0xAB
  | .pld => .some 0x2B
  | .tax => .some 0xAA
  | .tay => .some 0xA8
  | .txa => .some 0x8A
  | .tya => .some 0x98
  | .txy => .some 0x9B
  | .tyx => .some 0xBB
  | .tsx => .some 0xBA
  | .txs => .some 0x9A
  | .tcs => .some 0x1B
  | .tsc => .some 0x3B
  | .tcd => .some 0x5B
  | .tdc => .some 0x7B
  | .xba => .some 0xEB
  | .clc => .some 0x18
  | .sec => .some 0x38
  | .cli => .some 0x58
  | .sei => .some 0x78
  | .cld => .some 0xD8
  | .sed => .some 0xF8
  | .clv => .some 0xB8
  | .rep _ => .some 0xC2
  | .sep _ => .some 0xE2
  | .xce => .some 0xFB
  | .nop => .some 0xEA
  | .wdm _ => .some 0x42
  | .mvn _ _ => .some 0x54
  | .mvp _ _ => .some 0x44
  | .wai => .some 0xCB
  | .stp => .some 0xDB
  | .brk _ => .some 0x00
  | .cop _ => .some 0x02
  | .rti => .some 0x40

/-- The operand bytes of an immediate (30_encoding R92). -/
def Imm.bytes : Imm → List Byte
  | .byte v => [v]
  | .word v => wordBytes v

/-- The operand bytes of a memory mode (30_encoding R91, R92). -/
def Mode.bytes : Mode → List Byte
  | .abs a | .absX a | .absY a => wordBytes a
  | .dp d | .dpX d | .dpY d | .dpInd d | .dpXInd d | .dpIndY d | .dpIndLong d | .dpIndLongY d | .sr d | .srIndY d => [d]
  | .long al | .longX al => addrBytes al

/-- The operand bytes of an operand. -/
def Operand.bytes : Operand → List Byte
  | .imm v => v.bytes
  | .mem m => m.bytes

/-- The operand bytes of a target: the accumulator form has none (30_encoding R97). -/
def Target.bytes : Target → List Byte
  | .acc => []
  | .mem m => m.bytes

/-- The operand bytes of an instruction (30_encoding R91, R92, R115, R116). -/
def Instr.operandBytes : Instr → List Byte
  | .adc o | .sbc o | .and o | .ora o | .eor o | .lda o | .ldx o | .ldy o | .cmp o | .cpx o | .cpy o => o.bytes
  | .asl t | .lsr t | .rol t | .ror t | .inc t | .dec t => t.bytes
  | .sta m | .stx m | .sty m | .stz m | .bit m | .tsb m | .trb m => m.bytes
  | .bitImm v => v.bytes
  | .bpl b | .bmi b | .bvc b | .bvs b | .bcc b | .bcs b | .bne b | .beq b | .bra b | .pei b | .rep b | .sep b
  | .wdm b | .brk b | .cop b => [b]
  | .brl a | .jmpAbs a | .jmpInd a | .jmpIndX a | .jmlInd a | .jsrAbs a | .jsrIndX a | .pea a | .per a => wordBytes a
  | .jmlLong al | .jsl al => addrBytes al
  | .mvn dst src | .mvp dst src => [dst, src]
  | .inx | .iny | .dex | .dey | .rts | .rtl | .pha | .phx | .phy | .php | .phb | .phk | .phd | .pla | .plx | .ply | .plp
  | .plb | .pld | .tax | .tay | .txa | .tya | .txy | .tyx | .tsx | .txs | .tcs | .tsc | .tcd | .tdc | .xba
  | .clc | .sec | .cli | .sei | .cld | .sed | .clv | .xce | .nop | .wai | .stp | .rti => []

/-- The encoder: the bytes of an instruction, lowest address first; none for a form that no opcode stands for. -/
def encode (i : Instr) : Option (List Byte) := i.opcode.map (· :: i.operandBytes)

/-- The byte `k` of an instruction whose bits are `w` (spec/opcode_table.json's numbering: byte 0 is bits 7..0). -/
def tableByte (nbits w k : Nat) : Byte := BitVec.ofNat 8 (w % 2 ^ nbits / 2 ^ (8 * k))

/-- The four bytes of the longest instruction whose first bits are `w` and whose bits from `nbits` up are 0. -/
def tableBytes (nbits w : Nat) : List Byte :=
  [tableByte nbits w 0, tableByte nbits w 1, tableByte nbits w 2, tableByte nbits w 3]

/-- The instruction that the decoder reads from an instruction whose bits are `w`, in the widths after reset, P.M = P.X = 1
(70_reset_and_hazards R340; log 15). -/
def decodeTableWord (nbits w : Nat) : Option Instr :=
  match decode true true (tableBytes nbits w) with
  | .ok r => .some r.1
  | .error _ => .none

end Sys2Proof
end

