-- ==== Sys2Proof/Machine/State.lean ====
section
/-! DEFINITION. The state of the core as plain data: spec/10_state.md R20 to R42, the memory behind the bus
(spec/20_memory.md R61, R62) and what the environment supplies (spec/60_exceptions.md R312). -/

namespace Sys2Proof.Machine

/-- The status register P: eight flags, all of them architectural (10_state R29, R39). -/
structure Status where
  /-- Negative (bit 7). -/
  N : Bool
  /-- Overflow (bit 6). -/
  V : Bool
  /-- 8-bit accumulator and memory (bit 5). -/
  M : Bool
  /-- 8-bit index registers (bit 4). -/
  X : Bool
  /-- Decimal mode (bit 3). -/
  D : Bool
  /-- IRQ disable (bit 2). -/
  I : Bool
  /-- Zero (bit 1). -/
  Z : Bool
  /-- Carry (bit 0). -/
  C : Bool
  deriving DecidableEq, Repr

/-- What the environment puts on the interrupt inputs at one step (60_exceptions R312). -/
structure Pins where
  nmiEdge : Bool
  irqLine : Bool
  abortLine : Bool
  resetLine : Bool
  deriving DecidableEq, Repr

/-- Whether a bus access reads or writes (20_memory R62). -/
inductive Access where
  | read
  | write
  deriving DecidableEq, Repr

/-- One byte access of the bus (20_memory R62; the width is one byte, R60). -/
structure BusEvent where
  access : Access
  addr : Addr
  value : Byte
  deriving DecidableEq, Repr

/-- The bytes behind the bus: cells in one canonical form, addresses strictly rising, none holding `unlistedByte`. -/
abbrev Memory := List Host.Cell

/-- What an address that is not listed reads as. DESIGN CHOICE: the spec gives no contents of memory (unsafe, log 3). -/
def unlistedByte : Byte := 0x00

/-- The canonical form of memory: addresses strictly rise, lie in the 24-bit space (20_memory R61), and no cell holds what an
unlisted address reads as. -/
abbrev Memory.wf (m : Memory) : Prop :=
  m.Pairwise (fun c c' => c.1 < c'.1) ∧ ∀ c ∈ m, c.1 < 2 ^ 24 ∧ c.2 ≠ unlistedByte

/-- The machine. The first block is the architectural state of 10_state R20, under the spec's names. -/
structure State where
  /-- The 16-bit accumulator; AL and AH are its bytes (R21). -/
  A : Word
  /-- Index register X (R22). -/
  X : Word
  /-- Index register Y (R22). -/
  Y : Word
  /-- Stack pointer: the next free byte (R24). -/
  S : Word
  /-- Direct register (R25). -/
  D : Word
  /-- Data bank register (R26). -/
  DBR : Byte
  /-- Program bank register (R26). -/
  PBR : Byte
  /-- Program counter (R27). -/
  PC : Word
  /-- Status register (R29). -/
  P : Status
  /-- Emulation bit (R28). -/
  E : Bool
  /-- The cycle counter Cycles (R40). -/
  cycles : Nat
  /-- The CPU wait address, none or an address (R41). -/
  waitAddress : Option Addr
  /-- The NMI latch (R42). -/
  nmiPending : Bool
  /-- WAI's waiting state (R42). -/
  waiting : Bool
  /-- STP's stopped state (R42). -/
  stopped : Bool
  /-- The bytes behind the bus (20_memory R61). -/
  mem : Memory
  /-- The bus events so far, the newest first (20_memory R62; log 4). -/
  events : List BusEvent
  /-- The model's own: answers that the platform gives to later reads in place of memory, each used once (20_memory R62; log 2). -/
  answers : List Host.Cell
  /-- The model's own: the pin samples of the coming steps; no pin is asserted after the last (60_exceptions R312; log 1). -/
  inputs : List Pins
  /-- The model's own: how many draws have been made (00_scope R13; log 8). -/
  draws : Nat
  deriving DecidableEq, Repr

/-- Why the machine stops with a fault. The core itself raises none (00_scope R17, 60_exceptions R310). -/
inductive Fault where
  /-- Raised by `step` if the decoder rejected the bytes at PBR:PC. Safe, and it never happens: decoding is total
  (30_encoding R94). -/
  | undecodable (reason : DecodeError)
  deriving DecidableEq, Repr

/-- Why a step is refused. -/
inductive Refusal where
  /-- Raised by an arm of `exec` for an instruction that has no meaning yet; no arm does. Safe. -/
  | notModelled (mnemonic : String)
  /-- Raised by `step` when the environment asserts ABORT at the step and RESET is not asserted and the core is not stopped:
  the spec refuses it (60_exceptions R315). Safe. -/
  | abortAsserted
  deriving DecidableEq, Repr

/-- What an instruction's meaning answers. -/
abbrev Result := Host.Outcome State Fault Refusal

/-- The machine right after reset (70_reset_and_hazards R341), with memory that lists nothing. DESIGN CHOICE (log 5): the spec
leaves A, XL, YL, SL, N, V, Z and C unspecified, and here they are 0; PC is the word at 0x00FFFC of this memory (log 3);
Cycles, which reset does not write, is 0 (log 9). -/
def State.reset : State where
  A := 0x0000
  X := 0x0000
  Y := 0x0000
  S := 0x0100
  D := 0x0000
  DBR := 0x00
  PBR := 0x00
  PC := 0x0000
  P := { N := false, V := false, M := true, X := true, D := false, I := true, Z := false, C := false }
  E := true
  cycles := 0
  waitAddress := none
  nmiPending := false
  waiting := false
  stopped := false
  mem := []
  events := []
  answers := []
  inputs := []
  draws := 0

end Sys2Proof.Machine
end

