-- ==== Sys2Proof/Machine/Ops.lean ====
section
/-! DEFINITION. The named operations over memory, the bus, the registers and the stack (spec/20_memory.md R60 to R75,
spec/00_scope.md R10), the packing of P (spec/10_state.md R38), taking an exception and returning from one
(spec/60_exceptions.md R318, R320), and reset (spec/70_reset_and_hazards.md R340). -/

namespace Sys2Proof.Machine

/-! ### Memory -/

/-- The byte that memory holds at an address. -/
def Memory.read (m : Memory) (a : Nat) : Byte :=
  match m with
  | [] => unlistedByte
  | c :: rest => if c.1 = a then c.2 else Memory.read rest a

/-- Puts a cell before the first cell of a higher address. -/
def Memory.insert (m : Memory) (a : Nat) (v : Byte) : Memory :=
  match m with
  | [] => [(a, v)]
  | c :: rest => if a < c.1 then (a, v) :: c :: rest else c :: Memory.insert rest a v

/-- Writes a byte. Writing what an unlisted address reads as removes the cell, so the form stays canonical. -/
def Memory.write (m : Memory) (a : Nat) (v : Byte) : Memory :=
  let others := m.filter fun c => c.1 ≠ a
  if v = unlistedByte then others else Memory.insert others a v

/-! ### The bus -/

/-- The first answer that the platform holds for an address. -/
def firstAnswer (answers : List Host.Cell) (a : Nat) : Option Byte :=
  match answers with
  | [] => none
  | c :: rest => if c.1 = a then some c.2 else firstAnswer rest a

/-- The answers left after the first one for an address is used. -/
def dropAnswer (answers : List Host.Cell) (a : Nat) : List Host.Cell :=
  match answers with
  | [] => []
  | c :: rest => if c.1 = a then rest else c :: dropAnswer rest a

/-- The byte that the next read of an address gives: the platform's answer if it holds one, else what memory holds
(20_memory R62, R78; log 2). -/
def busValue (a : Addr) (s : State) : Byte :=
  (firstAnswer s.answers a.toNat).getD (s.mem.read a.toNat)

/-- Records a bus event (20_memory R62). -/
def record (e : BusEvent) (s : State) : State := { s with events := e :: s.events }

/-- A read without its record: the byte, and the state with the answer used. -/
def sense (a : Addr) (s : State) : Byte × State :=
  (busValue a s, { s with answers := dropAnswer s.answers a.toNat })

/-- A write without its record. -/
def poke (a : Addr) (v : Byte) (s : State) : State := { s with mem := s.mem.write a.toNat v }

/-- `BusRead` (20_memory R60, R62). -/
def busRead (a : Addr) (s : State) : Byte × State :=
  let r := sense a s
  (r.1, record ⟨.read, a, r.1⟩ r.2)

/-- `BusWrite` (20_memory R60, R62). -/
def busWrite (a : Addr) (v : Byte) (s : State) : State := record ⟨.write, a, v⟩ (poke a v s)

/-- Records the two accesses of a word, low byte and high byte, in the order of `WORD_BYTE_ORDER` (20_memory R67).
The order shows in the record alone: the two addresses differ. -/
def recordWord (low high : BusEvent) (s : State) : State :=
  { s with
    events :=
      match Config.wordByteOrder with
      | .lowFirst => high :: low :: s.events
      | .highFirst => low :: high :: s.events }

/-! ### Effective addresses -/

/-- The two kinds of effective address (20_memory R64). -/
inductive EaKind where
  | lin
  | bank0
  deriving DecidableEq, Repr

/-- An effective address (20_memory R64). -/
structure Ea where
  addr : Addr
  kind : EaKind
  deriving DecidableEq, Repr

/-- An address in bank 0 that wraps in bank 0. -/
def bank0 (offset : Word) : Ea := ⟨mkAddr 0x00 offset, .bank0⟩

/-- An address that steps through all 24 bits. -/
def linear (a : Addr) : Ea := ⟨a, .lin⟩

/-- `Next` (20_memory R64). -/
def nextEa (ea : Ea) : Ea :=
  match ea.kind with
  | .lin => ⟨ea.addr + 1, .lin⟩
  | .bank0 => bank0 (offsetOf ea.addr + 1)

/-- A byte as a value of 16 bits. -/
def zext (b : Byte) : Word := mkWord 0x00 b

/-- `MemRead(ea, 1)` (20_memory R65). -/
def memRead8 (ea : Ea) (s : State) : Byte × State := busRead ea.addr s

/-- `MemRead(ea, 2)` (20_memory R65, R67). -/
def memRead16 (ea : Ea) (s : State) : Word × State :=
  let lo := sense ea.addr s
  let hi := sense (nextEa ea).addr lo.2
  (mkWord hi.1 lo.1, recordWord ⟨.read, ea.addr, lo.1⟩ ⟨.read, (nextEa ea).addr, hi.1⟩ hi.2)

/-- `MemRead(ea, w/8)`, as a value of 16 bits (20_memory R65). -/
def memRead (w : Width) (ea : Ea) (s : State) : Word × State :=
  match w with
  | .w8 => (zext (memRead8 ea s).1, (memRead8 ea s).2)
  | .w16 => memRead16 ea s

/-- `MemWrite(ea, 1, v)` (20_memory R66). -/
def memWrite8 (ea : Ea) (v : Byte) (s : State) : State := busWrite ea.addr v s

/-- `MemWrite(ea, 2, v)` (20_memory R66, R67). -/
def memWrite16 (ea : Ea) (v : Word) (s : State) : State :=
  recordWord ⟨.write, ea.addr, lowByte v⟩ ⟨.write, (nextEa ea).addr, highByte v⟩
    (poke (nextEa ea).addr (highByte v) (poke ea.addr (lowByte v) s))

/-- `MemWrite(ea, w/8, v)` (20_memory R66). -/
def memWrite (w : Width) (ea : Ea) (v : Word) (s : State) : State :=
  match w with
  | .w8 => memWrite8 ea (lowByte v) s
  | .w16 => memWrite16 ea v s

/-- A 16-bit pointer, its low byte read first (30_encoding R121). -/
def readPointer16 (lo hi : Ea) (s : State) : Word × State :=
  let l := memRead8 lo s
  let h := memRead8 hi l.2
  (mkWord h.1 l.1, h.2)

/-- A 24-bit pointer, its bytes read from low to high (30_encoding R121). -/
def readPointer24 (b0 b1 b2 : Ea) (s : State) : Addr × State :=
  let p := readPointer16 b0 b1 s
  let b := memRead8 b2 p.2
  (mkAddr b.1 p.1, b.2)

/-! ### Registers and widths -/

/-- The width that a width flag stands for: 8 bits when it is 1 (00_scope R10). -/
def widthOf (eight : Bool) : Width := if eight then .w8 else .w16

/-- `mW` (00_scope R10). -/
def mW (s : State) : Width := widthOf s.P.M

/-- `xW` (00_scope R10). -/
def xW (s : State) : Width := widthOf s.P.X

/-- The low `w` bits of a value. -/
def truncTo (w : Width) (v : Word) : Word :=
  match w with
  | .w8 => zext (lowByte v)
  | .w16 => v

/-- `Acc(w)` (00_scope R10). -/
def acc (w : Width) (s : State) : Word := truncTo w s.A

/-- `SetAcc(w, v)`: AH stays as it is when w = 8 (00_scope R10, 10_state R21). -/
def setAcc (w : Width) (v : Word) (s : State) : State :=
  match w with
  | .w8 => { s with A := mkWord (highByte s.A) (lowByte v) }
  | .w16 => { s with A := v }

/-- `Xr(w)` (00_scope R10). -/
def xr (w : Width) (s : State) : Word := truncTo w s.X

/-- `Yr(w)` (00_scope R10). -/
def yr (w : Width) (s : State) : Word := truncTo w s.Y

/-- `SetX(w, v)`: XH is 0x00 when w = 8 (00_scope R10, 10_state R23). -/
def setX (w : Width) (v : Word) (s : State) : State := { s with X := truncTo w v }

/-- `SetY(w, v)`: YH is 0x00 when w = 8 (00_scope R10, 10_state R23). -/
def setY (w : Width) (v : Word) (s : State) : State := { s with Y := truncTo w v }

/-- A write of S: in emulation mode SH stays 0x01 (10_state R24). -/
def setS (v : Word) (s : State) : State :=
  { s with S := if s.E then mkWord 0x01 (lowByte v) else v }

/-- XH <- 0x00 and YH <- 0x00 while P.X = 1 (10_state R23). -/
def clearIndexHigh (s : State) : State :=
  if s.P.X then { s with X := zext (lowByte s.X), Y := zext (lowByte s.Y) } else s

/-! ### The status register as a byte -/

/-- Eight flags as a byte, the first at bit 7. -/
def packBits (b7 b6 b5 b4 b3 b2 b1 b0 : Bool) : Byte :=
  BitVec.ofNat 8 (128 * b7.toNat + 64 * b6.toNat + 32 * b5.toNat + 16 * b4.toNat + 8 * b3.toNat + 4 * b2.toNat
    + 2 * b1.toNat + b0.toNat)

/-- P as a byte, in the layout of native mode (10_state R29). -/
def packP (p : Status) : Byte := packBits p.N p.V p.M p.X p.D p.I p.Z p.C

/-- A byte as P, in the layout of native mode (10_state R29). -/
def unpackP (v : Byte) : Status where
  N := v.getLsbD 7
  V := v.getLsbD 6
  M := v.getLsbD 5
  X := v.getLsbD 4
  D := v.getLsbD 3
  I := v.getLsbD 2
  Z := v.getLsbD 1
  C := v.getLsbD 0

/-- `PushedP(B)`: native mode, P exactly; emulation mode, `N V 1 B D I Z C` (10_state R38). -/
def pushedP (b : Bool) (s : State) : Byte :=
  if s.E then packBits s.P.N s.P.V true b s.P.D s.P.I s.P.Z s.P.C else packP s.P

/-- P from a pulled byte, as PLP and RTI write it: in emulation mode M and X stay 1. Then XH and YH are cleared if X = 1
(48_stack_transfer R273, 49_system R309). -/
def pullP (v : Byte) (s : State) : State :=
  clearIndexHigh { s with P := if s.E then { unpackP v with M := true, X := true } else unpackP v }

/-! ### The stack -/

/-- Which stack step an instruction uses in emulation mode: that of 20_memory R74, or that of R75 for PEA, PEI, PER, PHD, PLD,
JSL, RTL and JSR (a,X). -/
inductive StackRule where
  | legacy
  | wide
  deriving DecidableEq, Repr

/-- What `EMU_STACK_LINEAR` selects (20_memory R75); the parameter is consulted only where its two values differ. -/
def emuStackChoice (wrapped stepped : Word) : Word :=
  if wrapped = stepped then wrapped else if Config.emuStackLinear then stepped else wrapped

/-- `Dec(S)` (20_memory R74, R75). -/
def decS (rule : StackRule) (s : State) : Word :=
  if s.E then
    match rule with
    | .legacy => mkWord 0x01 (lowByte s.S - 1)
    | .wide => emuStackChoice (mkWord 0x01 (lowByte s.S - 1)) (s.S - 1)
  else s.S - 1

/-- `Inc(S)` (20_memory R74, R75). -/
def incS (rule : StackRule) (s : State) : Word :=
  if s.E then
    match rule with
    | .legacy => mkWord 0x01 (lowByte s.S + 1)
    | .wide => emuStackChoice (mkWord 0x01 (lowByte s.S + 1)) (s.S + 1)
  else s.S + 1

/-- `Push8` (20_memory R74). -/
def push8 (rule : StackRule) (v : Byte) (s : State) : State :=
  let t := memWrite8 (bank0 s.S) v s
  { t with S := decS rule s }

/-- `Push16`: the high byte first, at the higher address (20_memory R74). -/
def push16 (rule : StackRule) (v : Word) (s : State) : State :=
  push8 rule (lowByte v) (push8 rule (highByte v) s)

/-- `Pull8` (20_memory R74). -/
def pull8 (rule : StackRule) (s : State) : Byte × State :=
  memRead8 (bank0 (incS rule s)) { s with S := incS rule s }

/-- `Pull16` (20_memory R74). -/
def pull16 (rule : StackRule) (s : State) : Word × State :=
  let lo := pull8 rule s
  let hi := pull8 rule lo.2
  (mkWord hi.1 lo.1, hi.2)

/-- The end of an instruction of the wide stack rule: SH <- 0x01 in emulation mode (20_memory R75). -/
def settleStack (s : State) : State := setS s.S s

/-- Pushes a value of width w: the width rule of PHA, PHX and PHY (48_stack_transfer R260). -/
def pushW (w : Width) (v : Word) (s : State) : State :=
  match w with
  | .w8 => push8 .legacy (lowByte v) s
  | .w16 => push16 .legacy v s

/-- Pulls a value of width w: the width rule of PLA, PLX and PLY (48_stack_transfer R270). -/
def pullW (w : Width) (s : State) : Word × State :=
  match w with
  | .w8 => (zext (pull8 .legacy s).1, (pull8 .legacy s).2)
  | .w16 => pull16 .legacy s

/-! ### Fetch -/

/-- `Fetch8` (20_memory R72). -/
def fetch8 (s : State) : Byte × State :=
  let r := busRead (mkAddr s.PBR s.PC) s
  (r.1, { r.2 with PC := s.PC + 1 })

/-- Fetches `n` bytes in increasing address order (30_encoding R90). -/
def fetchBytes (n : Nat) (s : State) : List Byte × State :=
  match n with
  | 0 => ([], s)
  | k + 1 =>
    let b := fetch8 s
    let rest := fetchBytes k b.2
    (b.1 :: rest.1, rest.2)

/-- The number of operand bytes after an opcode byte, for the widths of the state (30_encoding R91, R93). -/
def operandCount (opcode : Byte) (s : State) : Nat :=
  match shapeOf opcode with
  | some shape => shape.operandCount s.P.M s.P.X
  | none => 0

/-- Fetches an instruction's bytes, the opcode and as many operand bytes as its format has, and decodes them
(30_encoding R90). The widths are those of the instruction's start (00_scope R10). -/
def fetchInstr (s : State) : Except DecodeError (Instr × List Byte) × State :=
  let opcode := fetch8 s
  let operands := fetchBytes (operandCount opcode.1 s) opcode.2
  (decode s.P.M s.P.X (opcode.1 :: operands.1), operands.2)

/-- Stores bytes in memory at consecutive offsets of a bank, as `Fetch8` reads them (20_memory R72). -/
def placeBytes (bank : Byte) (offset : Word) (bytes : List Byte) (m : Memory) : Memory :=
  match bytes with
  | [] => m
  | b :: rest => placeBytes bank (offset + 1) rest (m.write (mkAddr bank offset).toNat b)

/-- The state with an instruction stored where the next step fetches: at PBR:PC, with nothing that would keep the step from
fetching it (no stopped or waiting state, no pin sample, no pending NMI, no platform answer) (log 16). -/
def placeInstr (bytes : List Byte) (s : State) : State :=
  { s with
    mem := placeBytes s.PBR s.PC bytes s.mem
    answers := []
    inputs := []
    nmiPending := false
    waiting := false
    stopped := false }

/-! ### Cycles and the wait address -/

/-- `if VAR_CYCLES then Cycles += ONE_CYCLE` (70_reset_and_hazards R352). -/
def addCycle (s : State) : State :=
  { s with cycles := s.cycles + if Config.varCycles then Config.oneCycle else 0 }

/-- `if CPU_SHUTDOWN then WaitAddress <- none` (43_incdec R186). -/
def clearWait (s : State) : State :=
  { s with waitAddress := if Config.cpuShutdown then none else s.waitAddress }

/-- `if CPU_SHUTDOWN and IDX_INCDEC_CLEARS_WAIT then WaitAddress <- none` (43_incdec R182). -/
def clearWaitIndex (s : State) : State :=
  { s with waitAddress := if Config.cpuShutdown && Config.idxIncDecClearsWait then none else s.waitAddress }

/-! ### Taking an exception and returning from one -/

/-- The events that enter a handler (00_scope R13, 60_exceptions R311). -/
inductive Exception where
  | brk
  | cop
  | nmi
  | irq
  deriving DecidableEq, Repr

/-- The vector of an event, an offset in bank 0 (60_exceptions R311, 20_memory R73). -/
def vector (kind : Exception) (emulation : Bool) : Word :=
  match kind, emulation with
  | .cop, false => 0xFFE4
  | .brk, false => 0xFFE6
  | .nmi, false => 0xFFEA
  | .irq, false => 0xFFEE
  | .cop, true => 0xFFF4
  | .nmi, true => 0xFFFA
  | .brk, true => 0xFFFE
  | .irq, true => 0xFFFE

/-- The B bit of the byte of P that an entry pushes in emulation mode (60_exceptions R311; for COP a decision of the spec,
log 18). -/
def pushedB (kind : Exception) : Bool :=
  match kind with
  | .brk => true
  | .cop => true
  | .nmi => false
  | .irq => false

/-- The pushes of an entry: PBR, return offset and P in native mode; return offset and P with B in emulation mode
(60_exceptions R318). -/
def pushFrame (kind : Exception) (ret : Word) (s : State) : State :=
  let s1 := if s.E then s else push8 .legacy s.PBR s
  push8 .legacy (pushedP (pushedB kind) s) (push16 .legacy ret s1)

/-- The entry sequence `Interrupt(kind, ret)` (60_exceptions R318). -/
def takeException (kind : Exception) (ret : Word) (s : State) : State :=
  let pushed := pushFrame kind ret s
  let masked := { pushed with P := { pushed.P with I := true, D := false }, PBR := 0x00 }
  let target := memRead16 (bank0 (vector kind s.E)) masked
  { target.2 with PC := target.1 }

/-- The return from an exception: P, then PC, then, in native mode, PBR (49_system R309, 60_exceptions R320). -/
def returnFromException (s : State) : State :=
  let v := pull8 .legacy s
  let pc := pull16 .legacy (pullP v.1 v.2)
  let t := { pc.2 with PC := pc.1 }
  if s.E then t else { (pull8 .legacy t).2 with PBR := (pull8 .legacy t).1 }

/-! ### Reset -/

/-- `Reset()` (70_reset_and_hazards R340): the registers that it leaves unspecified are drawn (log 6). -/
def resetSequence (s : State) : State :=
  let s1 : State :=
    { s with
      A := Config.drawWord s.draws
      X := zext (lowByte (Config.drawWord (s.draws + 1)))
      Y := zext (lowByte (Config.drawWord (s.draws + 2)))
      S := mkWord 0x01 (lowByte (Config.drawWord (s.draws + 3)))
      D := 0x0000
      DBR := 0x00
      PBR := 0x00
      P :=
        { N := Config.drawBit s.draws
          V := Config.drawBit (s.draws + 1)
          M := true
          X := true
          D := false
          I := true
          Z := Config.drawBit (s.draws + 2)
          C := Config.drawBit (s.draws + 3) }
      E := true
      waitAddress := if Config.cpuShutdown then none else s.waitAddress
      nmiPending := false
      waiting := false
      stopped := false
      draws := s.draws + 4 }
  let pc := memRead16 (bank0 0xFFFC) s1
  { pc.2 with PC := pc.1 }

end Sys2Proof.Machine
end

