-- ==== Sys2Proof/Machine/Boundary.lean ====
section
/-! DEFINITION. What happens at an instruction boundary: spec/60_exceptions.md R312 to R317. -/

namespace Sys2Proof.Machine

/-- What the core decides at a boundary (60_exceptions R316). -/
inductive Boundary where
  /-- The step is over: an event was taken, the wait ended, or the core takes no step. -/
  | settled (s : State)
  /-- ABORT is asserted: the step is refused (R315). -/
  | refuse
  /-- The core decodes and executes the instruction at PBR:PC. -/
  | execute (s : State)
  deriving DecidableEq, Repr

/-- No pin asserted. -/
def quietPins : Pins := { nmiEdge := false, irqLine := false, abortLine := false, resetLine := false }

/-- The pin sample of this step (60_exceptions R312; log 1). -/
def currentPins (s : State) : Pins := s.inputs.headD quietPins

/-- The state once the step has taken its pin sample: an NMI edge sets the latch (60_exceptions R313). -/
def samplePins (s : State) : State :=
  { s with inputs := s.inputs.tail, nmiPending := s.nmiPending || (currentPins s).nmiEdge }

/-- The decision at a boundary, in the order of 60_exceptions R316, on the sampled state. A "no step" of that rule leaves the
state as it is (log 14). -/
def decideBoundary (pins : Pins) (s : State) : Boundary :=
  if pins.resetLine then .settled (resetSequence s)
  else if s.stopped then .settled s
  else if pins.abortLine then .refuse
  else if s.nmiPending then .settled (takeException .nmi s.PC { s with nmiPending := false, waiting := false })
  else if pins.irqLine && !s.P.I then .settled (takeException .irq s.PC { s with waiting := false })
  else if s.waiting then .settled (if pins.irqLine then { s with waiting := false } else s)
  else .execute s

/-- The boundary of a step: the sample, and then the decision. -/
def boundary (s : State) : Boundary := decideBoundary (currentPins s) (samplePins s)

end Sys2Proof.Machine
end

