-- ==== Sys2Proof/Machine/Operands.lean ====
section
/-! DEFINITION. Operands and effective addresses: spec/30_encoding.md R96 to R114, R120. -/

namespace Sys2Proof.Machine

/-- `DirectAddr(off, legacy)` (30_encoding R101). -/
def directAddr (off : Nat) (legacy : Bool) (s : State) : Ea :=
  if legacy && s.E && lowByte s.D == 0x00 then bank0 (mkWord (highByte s.D) (BitVec.ofNat 8 off))
  else bank0 (s.D + BitVec.ofNat 16 off)

/-- An index register added to a 24-bit address, modulo 2^24 (30_encoding R100, R120). -/
def indexed (base : Addr) (index : Word) : Ea := linear (base + index.setWidth 24)

/-- The pointer of `(dp)`, and of `(dp,X)` with its index added: two legacy direct bytes (30_encoding R103, R104). -/
def directPointer (off : Nat) (s : State) : Word × State :=
  readPointer16 (directAddr off true s) (directAddr (off + 1) true s) s

/-- The pointer of `[dp]`: three direct bytes, without the page wrap (30_encoding R106). -/
def directPointerLong (off : Nat) (s : State) : Addr × State :=
  readPointer24 (directAddr off false s) (directAddr (off + 1) false s) (directAddr (off + 2) false s) s

/-- The address `sr,S` (30_encoding R108). -/
def stackAddr (k : Byte) (s : State) : Ea := bank0 (s.S + zext k)

/-- The effective address of a memory mode, with the state after its pointer reads (30_encoding R99 to R109). -/
def effectiveAddr (m : Mode) (s : State) : Ea × State :=
  match m with
  | .abs a => (linear (mkAddr s.DBR a), s)
  | .absX a => (indexed (mkAddr s.DBR a) s.X, s)
  | .absY a => (indexed (mkAddr s.DBR a) s.Y, s)
  | .dp d => (directAddr d.toNat true s, s)
  | .dpX d => (directAddr (d.toNat + s.X.toNat) true s, s)
  | .dpY d => (directAddr (d.toNat + s.Y.toNat) true s, s)
  | .dpInd d =>
    let p := directPointer d.toNat s
    (linear (mkAddr s.DBR p.1), p.2)
  | .dpXInd d =>
    let p := directPointer (d.toNat + s.X.toNat) s
    (linear (mkAddr s.DBR p.1), p.2)
  | .dpIndY d =>
    let p := directPointer d.toNat s
    (indexed (mkAddr s.DBR p.1) s.Y, p.2)
  | .dpIndLong d =>
    let p := directPointerLong d.toNat s
    (linear p.1, p.2)
  | .dpIndLongY d =>
    let p := directPointerLong d.toNat s
    (indexed p.1 s.Y, p.2)
  | .long al => (linear al, s)
  | .longX al => (indexed al s.X, s)
  | .sr k => (stackAddr k s, s)
  | .srIndY k =>
    let p := readPointer16 (stackAddr k s) (nextEa (stackAddr k s)) s
    (indexed (mkAddr s.DBR p.1) s.Y, p.2)

/-- The value of an immediate at width w; the decoder gives an immediate of that width (30_encoding R92, R98; log 21). -/
def immValue (w : Width) (v : Imm) : Word :=
  match v with
  | .byte b => truncTo w (zext b)
  | .word x => truncTo w x

/-- `Operand(mode, w)` of a memory mode (30_encoding R96). -/
def readMem (m : Mode) (w : Width) (s : State) : Word × State :=
  let ea := effectiveAddr m s
  memRead w ea.1 ea.2

/-- `Operand(mode, w)` (30_encoding R96). -/
def readOperand (o : Operand) (w : Width) (s : State) : Word × State :=
  match o with
  | .imm v => (immValue w v, s)
  | .mem m => readMem m w s

/-- A store: `MemWrite(EA(mode), w/8, v)` (30_encoding R96). -/
def writeMem (m : Mode) (w : Width) (v : Word) (s : State) : State :=
  let ea := effectiveAddr m s
  memWrite w ea.1 v ea.2

/-- `Target8` (30_encoding R110). -/
def target8 (r8 : Byte) (s : State) : Word := s.PC + r8.signExtend 16

/-- `Target16` (30_encoding R110). -/
def target16 (r16 : Word) (s : State) : Word := s.PC + r16

/-- The pointer of `(a)`: two bytes of bank 0 (30_encoding R112). -/
def absPointer (a : Word) (s : State) : Word × State := readPointer16 (bank0 a) (bank0 (a + 1)) s

/-- An address in the program bank. -/
def inProgramBank (offset : Word) (s : State) : Ea := linear (mkAddr s.PBR offset)

/-- The pointer of `(a,X)`: two bytes of the program bank (30_encoding R113). -/
def absPointerX (a : Word) (s : State) : Word × State :=
  readPointer16 (inProgramBank (a + s.X) s) (inProgramBank (a + s.X + 1) s) s

/-- The pointer of `[a]`: three bytes of bank 0 (30_encoding R114). -/
def absPointerLong (a : Word) (s : State) : Addr × State :=
  readPointer24 (bank0 a) (bank0 (a + 1)) (bank0 (a + 2)) s

end Sys2Proof.Machine
end

