-- ==== Sys2Proof/Machine/Flags.lean ====
section
/-! DEFINITION. The ALU and the flag rules: spec/00_scope.md R11, spec/40_arith.md R141 to R150, spec/42_shift_rotate.md,
spec/43_incdec.md, spec/45_compare.md R213. Values have 16 bits; at width 8 their high byte is 0. -/

namespace Sys2Proof.Machine

/-- `v[w-1]`: the top bit at width w. -/
def topBit (w : Width) (v : Word) : Bool :=
  match w with
  | .w8 => v.getLsbD 7
  | .w16 => v.getLsbD 15

/-- `v[w-2]`: the bit below the top bit at width w. -/
def secondBit (w : Width) (v : Word) : Bool :=
  match w with
  | .w8 => v.getLsbD 6
  | .w16 => v.getLsbD 14

/-- An exact integer reduced modulo 2^w (00_scope R8). -/
def wrapInt (w : Width) (i : Int) : Word := BitVec.ofNat 16 (i % (2 ^ w.bits : Nat)).toNat

/-- `SetZN(v, w)` (00_scope R11). -/
def setZN (w : Width) (v : Word) (s : State) : State :=
  { s with P := { s.P with Z := truncTo w v == 0, N := topBit w v } }

/-- `P.C <- b`. -/
def setC (b : Bool) (s : State) : State := { s with P := { s.P with C := b } }

/-- `P.V <- b`. -/
def setV (b : Bool) (s : State) : State := { s with P := { s.P with V := b } }

/-- `P.Z <- b`. -/
def setZ (b : Bool) (s : State) : State := { s with P := { s.P with Z := b } }

/-! ### Binary ADC and SBC -/

/-- `AdcBin` (40_arith R141). -/
def adcBin (w : Width) (a b : Word) (c : Bool) : Word × Bool :=
  let sum := a.toNat + b.toNat + c.toNat
  (BitVec.ofNat 16 (sum % 2 ^ w.bits), decide (2 ^ w.bits ≤ sum))

/-- `SbcBin` (40_arith R146). -/
def sbcBin (w : Width) (a b : Word) (c : Bool) : Word × Bool :=
  let t : Int := (a.toNat : Int) - b.toNat - (1 - c.toNat)
  (wrapInt w t, decide (0 ≤ t))

/-! ### Decimal ADC and SBC -/

/-- The number of decimal digits of a width (40_arith R142). -/
def digits (w : Width) : Nat := w.bits / 4

/-- The digit loop of `AdcDec` on the low `k` digits, from the least significant: the result and the carry (40_arith R142, R143). -/
def adcDigits (k a b carry : Nat) : Nat × Nat :=
  match k with
  | 0 => (0, carry)
  | k + 1 =>
    let d := a % 16 + b % 16 + carry
    let rest := adcDigits k (a / 16) (b / 16) (if d > 9 then 1 else 0)
    ((if d > 9 then d - 10 else d) % 16 + 16 * rest.1, rest.2)

/-- `AdcDec` (40_arith R142, R143). -/
def adcDec (w : Width) (a b : Word) (c : Bool) : Word × Bool :=
  let r := adcDigits (digits w) a.toNat b.toNat c.toNat
  (BitVec.ofNat 16 r.1, r.2 == 1)

/-- The digit loop of `SbcDec` on the low `k` digits, from the least significant: the result and the borrow (40_arith R147,
R148). A digit below zero has 10 added, and its low four bits are kept. -/
def sbcDigits (k a b borrow : Nat) : Nat × Nat :=
  match k with
  | 0 => (0, borrow)
  | k + 1 =>
    let d : Int := (a % 16 : Nat) - (b % 16 : Nat) - borrow
    let rest := sbcDigits k (a / 16) (b / 16) (if d < 0 then 1 else 0)
    (((if d < 0 then d + 10 else d) % 16).toNat + 16 * rest.1, rest.2)

/-- `SbcDec` (40_arith R147, R148). -/
def sbcDec (w : Width) (a b : Word) (c : Bool) : Word × Bool :=
  let r := sbcDigits (digits w) a.toNat b.toNat (1 - c.toNat)
  (BitVec.ofNat 16 r.1, r.2 == 0)

/-- Whether the low `k` digits of a number are decimal digits (40_arith R150). -/
def decimalDigits (k v : Nat) : Bool :=
  match k with
  | 0 => true
  | k + 1 => decide (v % 16 ≤ 9) && decimalDigits k (v / 16)

/-- Whether a value of width w is valid packed BCD (40_arith R150). -/
def validBcd (w : Width) (v : Word) : Bool := decimalDigits (digits w) v.toNat

/-! ### Overflow -/

/-- `AdcOverflow` (40_arith R144). -/
def adcOverflow (w : Width) (a b r : Word) : Bool := topBit w (~~~(a ^^^ b) &&& (b ^^^ r))

/-- `SbcOverflow` (40_arith R149). -/
def sbcOverflow (w : Width) (a b r : Word) : Bool := topBit w ((a ^^^ b) &&& (a ^^^ r))

/-! ### The result of ADC and SBC -/

/-- What ADC or SBC computes: the result, the carry and overflow flags, and how many draws it used. -/
structure AluOut where
  result : Word
  carry : Bool
  overflow : Bool
  drawn : Nat
  deriving DecidableEq, Repr

/-- The draw for operands that are not valid BCD: result, C and V are free values (40_arith R150; log 7). -/
def drawBcd (w : Width) (draw : Nat) : AluOut where
  result := truncTo w (Config.drawWord draw)
  carry := Config.drawBit draw
  overflow := Config.drawBit (draw + 1)
  drawn := 2

/-- ADC's result (40_arith R140, R150). -/
def adcOut (w : Width) (decimal : Bool) (a b : Word) (c : Bool) (draw : Nat) : AluOut :=
  if decimal && !(validBcd w a && validBcd w b) then drawBcd w draw
  else
    let r := if decimal then adcDec w a b c else adcBin w a b c
    { result := r.1, carry := r.2, overflow := adcOverflow w a b r.1, drawn := 0 }

/-- SBC's result (40_arith R145, R150). -/
def sbcOut (w : Width) (decimal : Bool) (a b : Word) (c : Bool) (draw : Nat) : AluOut :=
  if decimal && !(validBcd w a && validBcd w b) then drawBcd w draw
  else
    let r := if decimal then sbcDec w a b c else sbcBin w a b c
    { result := r.1, carry := r.2, overflow := sbcOverflow w a b r.1, drawn := 0 }

/-- Writes what ADC or SBC computed: V, C, the accumulator, Z and N (40_arith R140, R145). -/
def writeAlu (w : Width) (out : AluOut) (s : State) : State :=
  let t := setZN w out.result (setAcc w out.result (setC out.carry (setV out.overflow s)))
  { t with draws := t.draws + out.drawn }

/-! ### Shifts, steps and comparison -/

/-- ASL's function: the result and the bit shifted out (42_shift_rotate R170). -/
def aslOut (w : Width) (v : Word) (_carry : Bool) : Word × Bool := (truncTo w (v <<< 1), topBit w v)

/-- LSR's function (42_shift_rotate R171). -/
def lsrOut (w : Width) (v : Word) (_carry : Bool) : Word × Bool := (truncTo w v >>> 1, v.getLsbD 0)

/-- ROL's function (42_shift_rotate R172). -/
def rolOut (w : Width) (v : Word) (carry : Bool) : Word × Bool :=
  (truncTo w (v <<< 1 ||| BitVec.ofNat 16 carry.toNat), topBit w v)

/-- ROR's function (42_shift_rotate R173). -/
def rorOut (w : Width) (v : Word) (carry : Bool) : Word × Bool :=
  (truncTo w v >>> 1 ||| BitVec.ofNat 16 (carry.toNat * 2 ^ (w.bits - 1)), v.getLsbD 0)

/-- The value plus 1, modulo 2^w (43_incdec R180). -/
def incOut (w : Width) (v : Word) : Word := truncTo w (v + 1)

/-- The value minus 1, modulo 2^w (43_incdec R181). -/
def decOut (w : Width) (v : Word) : Word := truncTo w (v - 1)

/-- `Compare(g, b, w)` (45_compare R213). -/
def compare (w : Width) (g b : Word) (s : State) : State :=
  let t : Int := (g.toNat : Int) - b.toNat
  setZN w (wrapInt w t) (setC (decide (0 ≤ t)) s)

/-- A read-modify-write of the accumulator or of memory: one read, then one write of the same place (42_shift_rotate frame,
20_memory R70). The function sees the carry before the instruction and gives the result and the new carry. -/
def modifyWithCarry (f : Width → Word → Bool → Word × Bool) (t : Target) (s : State) : State :=
  let w := mW s
  match t with
  | .acc =>
    let r := f w (acc w s) s.P.C
    addCycle (setZN w r.1 (setAcc w r.1 (setC r.2 s)))
  | .mem m =>
    let ea := effectiveAddr m s
    let v := memRead w ea.1 ea.2
    let r := f w v.1 s.P.C
    addCycle (setZN w r.1 (memWrite w ea.1 r.1 (setC r.2 v.2)))

/-- A read-modify-write that leaves the carry alone and clears the wait address (43_incdec frame). -/
def modifyStep (f : Width → Word → Word) (t : Target) (s : State) : State :=
  let w := mW s
  match t with
  | .acc =>
    let r := f w (acc w s)
    addCycle (clearWait (setZN w r (setAcc w r s)))
  | .mem m =>
    let ea := effectiveAddr m s
    let v := memRead w ea.1 ea.2
    let r := f w v.1
    addCycle (clearWait (setZN w r (memWrite w ea.1 r v.2)))

/-- A logical instruction: the function of accumulator and operand goes to the accumulator, Z and N follow
(41_logical R160 to R163). -/
def logical (f : Word → Word → Word) (o : Operand) (s : State) : State :=
  let w := mW s
  let b := readOperand o w s
  let r := f (acc w s) b.1
  setZN w r (setAcc w r b.2)

/-- TSB and TRB: Z from the AND before the write, then the write (46_bit_test R222, R223). -/
def testModify (f : Word → Word → Word) (m : Mode) (s : State) : State :=
  let w := mW s
  let ea := effectiveAddr m s
  let v := memRead w ea.1 ea.2
  addCycle (memWrite w ea.1 (f v.1 (acc w s)) (setZ (acc w s &&& v.1 == 0) v.2))

end Sys2Proof.Machine
end

