-- ==== Sys2Proof/Machine/Arith.lean ====
section
/-! DEFINITION. ADC and SBC: spec/40_arith.md R140 to R153. -/

namespace Sys2Proof.Machine

/-- ADC (40_arith R140). -/
def execAdc (o : Operand) (s : State) : Result :=
  let w := mW s
  let b := readOperand o w s
  .next (writeAlu w (adcOut w s.P.D (acc w s) b.1 s.P.C s.draws) b.2)

/-- SBC (40_arith R145). -/
def execSbc (o : Operand) (s : State) : Result :=
  let w := mW s
  let b := readOperand o w s
  .next (writeAlu w (sbcOut w s.P.D (acc w s) b.1 s.P.C s.draws) b.2)

end Sys2Proof.Machine
end

