-- ==== Sys2Proof/Machine/BitTest.lean ====
section
/-! DEFINITION. BIT, BIT #, TSB and TRB: spec/46_bit_test.md R220 to R223. -/

namespace Sys2Proof.Machine

/-- BIT in memory: Z from the AND with the accumulator, N and V from the operand alone (46_bit_test R220). -/
def execBit (m : Mode) (s : State) : Result :=
  let w := mW s
  let v := readMem m w s
  .next
    { v.2 with
      P := { v.2.P with Z := acc w s &&& v.1 == 0, N := topBit w v.1, V := secondBit w v.1 } }

/-- BIT immediate: Z alone (46_bit_test R221). -/
def execBitImm (v : Imm) (s : State) : Result :=
  let w := mW s
  .next (setZ (acc w s &&& immValue w v == 0) s)

/-- TSB (46_bit_test R222). -/
def execTsb (m : Mode) (s : State) : Result := .next (testModify (fun v a => v ||| a) m s)

/-- TRB (46_bit_test R223). -/
def execTrb (m : Mode) (s : State) : Result := .next (testModify (fun v a => v &&& ~~~a) m s)

end Sys2Proof.Machine
end

