-- ==== Sys2Proof/Machine/Compare.lean ====
section
/-! DEFINITION. CMP, CPX and CPY: spec/45_compare.md R210 to R213. -/

namespace Sys2Proof.Machine

/-- CMP (45_compare R210). -/
def execCmp (o : Operand) (s : State) : Result :=
  let w := mW s
  let b := readOperand o w s
  .next (compare w (acc w s) b.1 b.2)

/-- CPX (45_compare R211). -/
def execCpx (o : Operand) (s : State) : Result :=
  let w := xW s
  let b := readOperand o w s
  .next (compare w (xr w s) b.1 b.2)

/-- CPY (45_compare R212). -/
def execCpy (o : Operand) (s : State) : Result :=
  let w := xW s
  let b := readOperand o w s
  .next (compare w (yr w s) b.1 b.2)

end Sys2Proof.Machine
end

