-- ==== Sys2Proof/Machine/Control.lean ====
section
/-! DEFINITION. Branches, jumps, calls and returns: spec/47_control.md R230 to R250. PC is already past the instruction
(30_encoding R90). -/

namespace Sys2Proof.Machine

/-- The frame of the relative branches: `if Cond then PC <- Target8` (47_control R230). -/
def branchIf (cond : Bool) (r8 : Byte) (s : State) : State := { s with PC := if cond then target8 r8 s else s.PC }

/-- BPL (47_control R231). -/
def execBpl (r8 : Byte) (s : State) : Result := .next (branchIf (!s.P.N) r8 s)

/-- BMI (47_control R232). -/
def execBmi (r8 : Byte) (s : State) : Result := .next (branchIf s.P.N r8 s)

/-- BVC (47_control R233). -/
def execBvc (r8 : Byte) (s : State) : Result := .next (branchIf (!s.P.V) r8 s)

/-- BVS (47_control R234). -/
def execBvs (r8 : Byte) (s : State) : Result := .next (branchIf s.P.V r8 s)

/-- BCC (47_control R235). -/
def execBcc (r8 : Byte) (s : State) : Result := .next (branchIf (!s.P.C) r8 s)

/-- BCS (47_control R236). -/
def execBcs (r8 : Byte) (s : State) : Result := .next (branchIf s.P.C r8 s)

/-- BNE (47_control R237). -/
def execBne (r8 : Byte) (s : State) : Result := .next (branchIf (!s.P.Z) r8 s)

/-- BEQ (47_control R238). -/
def execBeq (r8 : Byte) (s : State) : Result := .next (branchIf s.P.Z r8 s)

/-- BRA (47_control R239). -/
def execBra (r8 : Byte) (s : State) : Result := .next (branchIf true r8 s)

/-- BRL (47_control R240). -/
def execBrl (r16 : Word) (s : State) : Result := .next { s with PC := target16 r16 s }

/-- JMP a (47_control R241). -/
def execJmpAbs (a : Word) (s : State) : Result := .next { s with PC := a }

/-- JMP (a) (47_control R242). -/
def execJmpInd (a : Word) (s : State) : Result :=
  let p := absPointer a s
  .next { p.2 with PC := p.1 }

/-- JMP (a,X) (47_control R243). -/
def execJmpIndX (a : Word) (s : State) : Result :=
  let p := absPointerX a s
  .next { p.2 with PC := p.1 }

/-- JML al (47_control R244). -/
def execJmlLong (al : Addr) (s : State) : Result := .next { s with PBR := bankOf al, PC := offsetOf al }

/-- JML [a] (47_control R245). -/
def execJmlInd (a : Word) (s : State) : Result :=
  let p := absPointerLong a s
  .next { p.2 with PBR := bankOf p.1, PC := offsetOf p.1 }

/-- JSR a: the return address is the instruction's last byte (47_control R246). -/
def execJsrAbs (a : Word) (s : State) : Result := .next { push16 .legacy (s.PC - 1) s with PC := a }

/-- JSR (a,X): the push, and then the pointer read (47_control R247). -/
def execJsrIndX (a : Word) (s : State) : Result :=
  let p := absPointerX a (settleStack (push16 .wide (s.PC - 1) s))
  .next { p.2 with PC := p.1 }

/-- JSL (47_control R248). -/
def execJsl (al : Addr) (s : State) : Result :=
  .next { settleStack (push16 .wide (s.PC - 1) (push8 .wide s.PBR s)) with PBR := bankOf al, PC := offsetOf al }

/-- RTS (47_control R249). -/
def execRts (s : State) : Result :=
  let p := pull16 .legacy s
  .next { p.2 with PC := p.1 + 1 }

/-- RTL (47_control R250). -/
def execRtl (s : State) : Result :=
  let p := pull16 .wide s
  let b := pull8 .wide p.2
  .next { settleStack b.2 with PC := p.1 + 1, PBR := b.1 }

end Sys2Proof.Machine
end

