-- ==== Sys2Proof/Machine/IncDec.lean ====
section
/-! DEFINITION. INC, DEC, INX, INY, DEX and DEY: spec/43_incdec.md R180 to R186. -/

namespace Sys2Proof.Machine

/-- INC (43_incdec R180). -/
def execInc (t : Target) (s : State) : Result := .next (modifyStep incOut t s)

/-- DEC (43_incdec R181). -/
def execDec (t : Target) (s : State) : Result := .next (modifyStep decOut t s)

/-- INX (43_incdec R182). -/
def execInx (s : State) : Result :=
  let w := xW s
  let r := incOut w (xr w s)
  .next (clearWaitIndex (setZN w r (setX w r s)))

/-- INY (43_incdec R183). -/
def execIny (s : State) : Result :=
  let w := xW s
  let r := incOut w (yr w s)
  .next (clearWaitIndex (setZN w r (setY w r s)))

/-- DEX (43_incdec R184). -/
def execDex (s : State) : Result :=
  let w := xW s
  let r := decOut w (xr w s)
  .next (clearWaitIndex (setZN w r (setX w r s)))

/-- DEY (43_incdec R185). -/
def execDey (s : State) : Result :=
  let w := xW s
  let r := decOut w (yr w s)
  .next (clearWaitIndex (setZN w r (setY w r s)))

end Sys2Proof.Machine
end

