-- ==== Sys2Proof/Machine/LoadStore.lean ====
section
/-! DEFINITION. LDA, LDX, LDY, STA, STX, STY and STZ: spec/44_load_store.md R190 to R197. -/

namespace Sys2Proof.Machine

/-- LDA (44_load_store R190). -/
def execLda (o : Operand) (s : State) : Result :=
  let w := mW s
  let v := readOperand o w s
  .next (setZN w v.1 (setAcc w v.1 v.2))

/-- LDX (44_load_store R191). -/
def execLdx (o : Operand) (s : State) : Result :=
  let w := xW s
  let v := readOperand o w s
  .next (setZN w v.1 (setX w v.1 v.2))

/-- LDY (44_load_store R192). -/
def execLdy (o : Operand) (s : State) : Result :=
  let w := xW s
  let v := readOperand o w s
  .next (setZN w v.1 (setY w v.1 v.2))

/-- STA (44_load_store R193). -/
def execSta (m : Mode) (s : State) : Result := .next (writeMem m (mW s) (acc (mW s) s) s)

/-- STX (44_load_store R194). -/
def execStx (m : Mode) (s : State) : Result := .next (writeMem m (xW s) (xr (xW s) s) s)

/-- STY (44_load_store R195). -/
def execSty (m : Mode) (s : State) : Result := .next (writeMem m (xW s) (yr (xW s) s) s)

/-- STZ (44_load_store R196). -/
def execStz (m : Mode) (s : State) : Result := .next (writeMem m (mW s) 0 s)

end Sys2Proof.Machine
end

