-- ==== Sys2Proof/Machine/Logical.lean ====
section
/-! DEFINITION. AND, ORA and EOR: spec/41_logical.md R160 to R163. -/

namespace Sys2Proof.Machine

/-- AND (41_logical R160). -/
def execAnd (o : Operand) (s : State) : Result := .next (logical (· &&& ·) o s)

/-- ORA (41_logical R161). -/
def execOra (o : Operand) (s : State) : Result := .next (logical (· ||| ·) o s)

/-- EOR (41_logical R162). -/
def execEor (o : Operand) (s : State) : Result := .next (logical (· ^^^ ·) o s)

end Sys2Proof.Machine
end

