-- ==== Sys2Proof/Machine/Shift.lean ====
section
/-! DEFINITION. ASL, LSR, ROL and ROR: spec/42_shift_rotate.md R170 to R174. -/

namespace Sys2Proof.Machine

/-- ASL (42_shift_rotate R170). -/
def execAsl (t : Target) (s : State) : Result := .next (modifyWithCarry aslOut t s)

/-- LSR (42_shift_rotate R171). -/
def execLsr (t : Target) (s : State) : Result := .next (modifyWithCarry lsrOut t s)

/-- ROL (42_shift_rotate R172). -/
def execRol (t : Target) (s : State) : Result := .next (modifyWithCarry rolOut t s)

/-- ROR (42_shift_rotate R173). -/
def execRor (t : Target) (s : State) : Result := .next (modifyWithCarry rorOut t s)

end Sys2Proof.Machine
end

