-- ==== Sys2Proof/Machine/StackTransfer.lean ====
section
/-! DEFINITION. Pushes, pulls and transfers: spec/48_stack_transfer.md R260 to R288. -/

namespace Sys2Proof.Machine

/-- PHA (48_stack_transfer R260). -/
def execPha (s : State) : Result := .next (pushW (mW s) s.A s)

/-- PHX (48_stack_transfer R261). -/
def execPhx (s : State) : Result := .next (pushW (xW s) s.X s)

/-- PHY (48_stack_transfer R262). -/
def execPhy (s : State) : Result := .next (pushW (xW s) s.Y s)

/-- PHP (48_stack_transfer R263). -/
def execPhp (s : State) : Result := .next (push8 .legacy (pushedP true s) s)

/-- PHB (48_stack_transfer R264). -/
def execPhb (s : State) : Result := .next (push8 .legacy s.DBR s)

/-- PHK (48_stack_transfer R265). -/
def execPhk (s : State) : Result := .next (push8 .legacy s.PBR s)

/-- PHD (48_stack_transfer R266). -/
def execPhd (s : State) : Result := .next (settleStack (push16 .wide s.D s))

/-- PEA (48_stack_transfer R267). -/
def execPea (v : Word) (s : State) : Result := .next (settleStack (push16 .wide v s))

/-- PEI (48_stack_transfer R268). -/
def execPei (d : Byte) (s : State) : Result :=
  let p := readPointer16 (directAddr d.toNat false s) (directAddr (d.toNat + 1) false s) s
  .next (settleStack (push16 .wide p.1 p.2))

/-- PER (48_stack_transfer R269). -/
def execPer (r16 : Word) (s : State) : Result := .next (settleStack (push16 .wide (target16 r16 s) s))

/-- PLA (48_stack_transfer R270). -/
def execPla (s : State) : Result :=
  let w := mW s
  let v := pullW w s
  .next (setZN w v.1 (setAcc w v.1 v.2))

/-- PLX (48_stack_transfer R271). -/
def execPlx (s : State) : Result :=
  let w := xW s
  let v := pullW w s
  .next (setZN w v.1 (setX w v.1 v.2))

/-- PLY (48_stack_transfer R272). -/
def execPly (s : State) : Result :=
  let w := xW s
  let v := pullW w s
  .next (setZN w v.1 (setY w v.1 v.2))

/-- PLP (48_stack_transfer R273). -/
def execPlp (s : State) : Result :=
  let v := pull8 .legacy s
  .next (pullP v.1 v.2)

/-- PLB: flags of 8 bits whatever P.M is (48_stack_transfer R274). -/
def execPlb (s : State) : Result :=
  let v := pull8 .legacy s
  .next (setZN .w8 (zext v.1) { v.2 with DBR := v.1 })

/-- PLD (48_stack_transfer R275). -/
def execPld (s : State) : Result :=
  let v := pull16 .wide s
  .next (setZN .w16 v.1 { settleStack v.2 with D := v.1 })

/-- TAX (48_stack_transfer R276). -/
def execTax (s : State) : Result :=
  let w := xW s
  .next (setZN w s.A (setX w s.A s))

/-- TAY (48_stack_transfer R277). -/
def execTay (s : State) : Result :=
  let w := xW s
  .next (setZN w s.A (setY w s.A s))

/-- TXA (48_stack_transfer R278). -/
def execTxa (s : State) : Result :=
  let w := mW s
  .next (setZN w s.X (setAcc w s.X s))

/-- TYA (48_stack_transfer R279). -/
def execTya (s : State) : Result :=
  let w := mW s
  .next (setZN w s.Y (setAcc w s.Y s))

/-- TXY (48_stack_transfer R280). -/
def execTxy (s : State) : Result :=
  let w := xW s
  .next (setZN w s.X (setY w s.X s))

/-- TYX (48_stack_transfer R281). -/
def execTyx (s : State) : Result :=
  let w := xW s
  .next (setZN w s.Y (setX w s.Y s))

/-- TSX (48_stack_transfer R282). -/
def execTsx (s : State) : Result :=
  let w := xW s
  .next (setZN w s.S (setX w s.S s))

/-- TXS (48_stack_transfer R283). -/
def execTxs (s : State) : Result := .next (setS s.X s)

/-- TCS (48_stack_transfer R284). -/
def execTcs (s : State) : Result := .next (setS s.A s)

/-- TSC (48_stack_transfer R285). -/
def execTsc (s : State) : Result := .next (setZN .w16 s.S { s with A := s.S })

/-- TCD (48_stack_transfer R286). -/
def execTcd (s : State) : Result := .next (setZN .w16 s.A { s with D := s.A })

/-- TDC (48_stack_transfer R287). -/
def execTdc (s : State) : Result := .next (setZN .w16 s.D { s with A := s.D })

/-- XBA: flags from the new AL (48_stack_transfer R288). -/
def execXba (s : State) : Result :=
  let r := mkWord (lowByte s.A) (highByte s.A)
  .next (setZN .w8 r { s with A := r })

end Sys2Proof.Machine
end

