-- ==== Sys2Proof/Machine/System.lean ====
section
/-! DEFINITION. Flag, mode, block-move, power and trap instructions: spec/49_system.md R290 to R309. -/

namespace Sys2Proof.Machine

/-- CLC (49_system R290). -/
def execClc (s : State) : Result := .next (setC false s)

/-- SEC (49_system R291). -/
def execSec (s : State) : Result := .next (setC true s)

/-- CLI (49_system R292). -/
def execCli (s : State) : Result := .next { s with P := { s.P with I := false } }

/-- SEI (49_system R293). -/
def execSei (s : State) : Result := .next { s with P := { s.P with I := true } }

/-- CLD (49_system R294). -/
def execCld (s : State) : Result := .next { s with P := { s.P with D := false } }

/-- SED (49_system R295). -/
def execSed (s : State) : Result := .next { s with P := { s.P with D := true } }

/-- CLV (49_system R296). -/
def execClv (s : State) : Result := .next (setV false s)

/-- REP: clears the flags whose bit of `k` is 1; in emulation mode M and X stay 1 (49_system R297). -/
def execRep (k : Byte) (s : State) : Result :=
  let p := unpackP (packP s.P &&& ~~~k)
  .next { s with P := if s.E then { p with M := true, X := true } else p }

/-- SEP: sets the flags whose bit of `k` is 1 (49_system R298). -/
def execSep (k : Byte) (s : State) : Result := .next (clearIndexHigh { s with P := unpackP (packP s.P ||| k) })

/-- What XCE forces when the emulation bit becomes 1 (10_state R28). -/
def enterEmulation (s : State) : State :=
  { s with
    P := { s.P with M := true, X := true }
    X := zext (lowByte s.X)
    Y := zext (lowByte s.Y)
    S := mkWord 0x01 (lowByte s.S) }

/-- XCE: exchanges carry and emulation bit (49_system R299). -/
def execXce (s : State) : Result :=
  let t := { s with E := s.P.C, P := { s.P with C := s.E } }
  .next (if t.E then enterEmulation t else t)

/-- NOP (49_system R300). -/
def execNop (s : State) : Result := .next s

/-- WDM: a no-operation of two bytes (49_system R301). -/
def execWdm (_sig : Byte) (s : State) : Result := .next s

/-- The step of an index register in a block move, modulo 2^xW (49_system R302). -/
def moveIndex (w : Width) (v delta : Word) : Word := truncTo w (v + delta)

/-- The frame of MVN and MVP: one byte moved, and PC back at the instruction unless the count has run out (49_system R302). -/
def blockMove (delta : Word) (dst src : Byte) (s : State) : State :=
  let v := memRead8 (linear (mkAddr src s.X)) s
  let t := memWrite8 (linear (mkAddr dst s.Y)) v.1 v.2
  { t with
    DBR := dst
    X := moveIndex (xW s) s.X delta
    Y := moveIndex (xW s) s.Y delta
    A := s.A - 1
    PC := if s.A - 1 ≠ 0xFFFF then s.PC - 3 else s.PC }

/-- MVN: ascending addresses (49_system R303). -/
def execMvn (dst src : Byte) (s : State) : Result := .next (blockMove 1 dst src s)

/-- MVP: descending addresses (49_system R304). -/
def execMvp (dst src : Byte) (s : State) : Result := .next (blockMove (-1) dst src s)

/-- WAI (49_system R305). -/
def execWai (s : State) : Result := .next { s with waiting := true }

/-- STP (49_system R306). -/
def execStp (s : State) : Result := .next { s with stopped := true }

/-- BRK: the entry sequence, with the address after the signature byte as the return address (49_system R307). -/
def execBrk (_sig : Byte) (s : State) : Result := .next (takeException .brk s.PC s)

/-- COP: the entry sequence, with the address after the signature byte as the return address (49_system R308). -/
def execCop (_sig : Byte) (s : State) : Result := .next (takeException .cop s.PC s)

/-- RTI (49_system R309). -/
def execRti (s : State) : Result := .next (returnFromException s)

end Sys2Proof.Machine
end

