-- ==== Sys2Proof/Machine/Dispatch.lean ====
section
/-! DEFINITION. The meaning of each instruction, one arm for each constructor of Instr. -/

namespace Sys2Proof.Machine

def exec (i : Instr) (s : State) : Host.Outcome State Fault Refusal :=
  match i with
  | .adc o => Sys2Proof.Machine.execAdc o s
  | .sbc o => Sys2Proof.Machine.execSbc o s
  | .and o => Sys2Proof.Machine.execAnd o s
  | .ora o => Sys2Proof.Machine.execOra o s
  | .eor o => Sys2Proof.Machine.execEor o s
  | .asl t => Sys2Proof.Machine.execAsl t s
  | .lsr t => Sys2Proof.Machine.execLsr t s
  | .rol t => Sys2Proof.Machine.execRol t s
  | .ror t => Sys2Proof.Machine.execRor t s
  | .inc t => Sys2Proof.Machine.execInc t s
  | .dec t => Sys2Proof.Machine.execDec t s
  | .inx => Sys2Proof.Machine.execInx s
  | .iny => Sys2Proof.Machine.execIny s
  | .dex => Sys2Proof.Machine.execDex s
  | .dey => Sys2Proof.Machine.execDey s
  | .lda o => Sys2Proof.Machine.execLda o s
  | .ldx o => Sys2Proof.Machine.execLdx o s
  | .ldy o => Sys2Proof.Machine.execLdy o s
  | .sta m => Sys2Proof.Machine.execSta m s
  | .stx m => Sys2Proof.Machine.execStx m s
  | .sty m => Sys2Proof.Machine.execSty m s
  | .stz m => Sys2Proof.Machine.execStz m s
  | .cmp o => Sys2Proof.Machine.execCmp o s
  | .cpx o => Sys2Proof.Machine.execCpx o s
  | .cpy o => Sys2Proof.Machine.execCpy o s
  | .bit m => Sys2Proof.Machine.execBit m s
  | .bitImm v => Sys2Proof.Machine.execBitImm v s
  | .tsb m => Sys2Proof.Machine.execTsb m s
  | .trb m => Sys2Proof.Machine.execTrb m s
  | .bpl r8 => Sys2Proof.Machine.execBpl r8 s
  | .bmi r8 => Sys2Proof.Machine.execBmi r8 s
  | .bvc r8 => Sys2Proof.Machine.execBvc r8 s
  | .bvs r8 => Sys2Proof.Machine.execBvs r8 s
  | .bcc r8 => Sys2Proof.Machine.execBcc r8 s
  | .bcs r8 => Sys2Proof.Machine.execBcs r8 s
  | .bne r8 => Sys2Proof.Machine.execBne r8 s
  | .beq r8 => Sys2Proof.Machine.execBeq r8 s
  | .bra r8 => Sys2Proof.Machine.execBra r8 s
  | .brl r16 => Sys2Proof.Machine.execBrl r16 s
  | .jmpAbs a => Sys2Proof.Machine.execJmpAbs a s
  | .jmpInd a => Sys2Proof.Machine.execJmpInd a s
  | .jmpIndX a => Sys2Proof.Machine.execJmpIndX a s
  | .jmlLong al => Sys2Proof.Machine.execJmlLong al s
  | .jmlInd a => Sys2Proof.Machine.execJmlInd a s
  | .jsrAbs a => Sys2Proof.Machine.execJsrAbs a s
  | .jsrIndX a => Sys2Proof.Machine.execJsrIndX a s
  | .jsl al => Sys2Proof.Machine.execJsl al s
  | .rts => Sys2Proof.Machine.execRts s
  | .rtl => Sys2Proof.Machine.execRtl s
  | .pha => Sys2Proof.Machine.execPha s
  | .phx => Sys2Proof.Machine.execPhx s
  | .phy => Sys2Proof.Machine.execPhy s
  | .php => Sys2Proof.Machine.execPhp s
  | .phb => Sys2Proof.Machine.execPhb s
  | .phk => Sys2Proof.Machine.execPhk s
  | .phd => Sys2Proof.Machine.execPhd s
  | .pea v => Sys2Proof.Machine.execPea v s
  | .pei d => Sys2Proof.Machine.execPei d s
  | .per r16 => Sys2Proof.Machine.execPer r16 s
  | .pla => Sys2Proof.Machine.execPla s
  | .plx => Sys2Proof.Machine.execPlx s
  | .ply => Sys2Proof.Machine.execPly s
  | .plp => Sys2Proof.Machine.execPlp s
  | .plb => Sys2Proof.Machine.execPlb s
  | .pld => Sys2Proof.Machine.execPld s
  | .tax => Sys2Proof.Machine.execTax s
  | .tay => Sys2Proof.Machine.execTay s
  | .txa => Sys2Proof.Machine.execTxa s
  | .tya => Sys2Proof.Machine.execTya s
  | .txy => Sys2Proof.Machine.execTxy s
  | .tyx => Sys2Proof.Machine.execTyx s
  | .tsx => Sys2Proof.Machine.execTsx s
  | .txs => Sys2Proof.Machine.execTxs s
  | .tcs => Sys2Proof.Machine.execTcs s
  | .tsc => Sys2Proof.Machine.execTsc s
  | .tcd => Sys2Proof.Machine.execTcd s
  | .tdc => Sys2Proof.Machine.execTdc s
  | .xba => Sys2Proof.Machine.execXba s
  | .clc => Sys2Proof.Machine.execClc s
  | .sec => Sys2Proof.Machine.execSec s
  | .cli => Sys2Proof.Machine.execCli s
  | .sei => Sys2Proof.Machine.execSei s
  | .cld => Sys2Proof.Machine.execCld s
  | .sed => Sys2Proof.Machine.execSed s
  | .clv => Sys2Proof.Machine.execClv s
  | .rep k => Sys2Proof.Machine.execRep k s
  | .sep k => Sys2Proof.Machine.execSep k s
  | .xce => Sys2Proof.Machine.execXce s
  | .nop => Sys2Proof.Machine.execNop s
  | .wdm sig => Sys2Proof.Machine.execWdm sig s
  | .mvn dst src => Sys2Proof.Machine.execMvn dst src s
  | .mvp dst src => Sys2Proof.Machine.execMvp dst src s
  | .wai => Sys2Proof.Machine.execWai s
  | .stp => Sys2Proof.Machine.execStp s
  | .brk sig => Sys2Proof.Machine.execBrk sig s
  | .cop sig => Sys2Proof.Machine.execCop sig s
  | .rti => Sys2Proof.Machine.execRti s

end Sys2Proof.Machine
end

