-- ==== Sys2Proof/Machine/Step.lean ====
section
/-! DEFINITION. One step of the core: spec/00_scope.md R16, spec/60_exceptions.md R316. -/

namespace Sys2Proof.Machine

/-- Fetches, decodes and executes the instruction at PBR:PC (30_encoding R90). -/
def runInstr (s : State) : Host.Outcome State Fault Refusal :=
  match (fetchInstr s).1 with
  | .ok r => exec r.1 (fetchInstr s).2
  | .error e => .fault (.undecodable e)

/-- One step: the boundary's decision, and the instruction if the core executes one. -/
def step (s : State) : Host.Outcome State Fault Refusal :=
  match boundary s with
  | .settled t => .next t
  | .refuse => .refused .abortAsserted
  | .execute t => runInstr t

/-- The state with the instruction of a table word stored where the next step fetches it (log 16). -/
def State.withFetchWord (s : State) (nbits w : Nat) : State := placeInstr (tableBytes nbits w) s

end Sys2Proof.Machine
end

