-- ==== Sys2Proof/Safety.lean ====
section
/-! DEFINITION. What counts as a legal state and a safe step, and the terms that claims use. -/

namespace Sys2Proof.Machine

/-! ### Legal states and safe steps -/

/-- While P.X = 1 the high bytes of X and Y are 0x00 (10_state R23). -/
abbrev State.indexLegal (s : State) : Prop := s.P.X = true → highByte s.X = 0x00 ∧ highByte s.Y = 0x00

/-- While E = 1: P.M = P.X = 1 and SH = 0x01 (10_state R24, R28). -/
abbrev State.emulationLegal (s : State) : Prop :=
  s.E = true → s.P.M = true ∧ s.P.X = true ∧ highByte s.S = 0x01

/-- The invariants that 70_reset_and_hazards R344 asks of a launch state, with memory in its canonical form. -/
abbrev State.Inv (s : State) : Prop := s.indexLegal ∧ s.emulationLegal ∧ s.mem.wf

/-- No event is due at this boundary, so the core executes the instruction at PBR:PC: the last case of 60_exceptions R316. -/
abbrev State.executes (s : State) : Prop :=
  (currentPins s).resetLine = false ∧ s.stopped = false ∧ (currentPins s).abortLine = false ∧
  (s.nmiPending || (currentPins s).nmiEdge) = false ∧ ((currentPins s).irqLine && !s.P.I) = false ∧ s.waiting = false

/-- A safe step: it answers a next state. -/
def SafeStep (s : State) : Prop := ∃ t, step s = .next t

/-! ### Completion and frames -/

/-- The instruction answers a next state, and `R` holds of it. -/
def Completes (i : Instr) (s : State) (R : State → Prop) : Prop := ∃ t, exec i s = .next t ∧ R t

/-- The byte that memory holds at an address. -/
def byteAt (s : State) (a : Addr) : Byte := s.mem.read a.toNat

/-- Every byte of memory reads as before. -/
def SameMemory (s t : State) : Prop := ∀ a, byteAt t a = byteAt s a

/-- `t` is `u` but for the platform's answers and the record of bus events, which every read changes. `u` is the state before
the instruction with the fields replaced that the instruction may write: the equation says that all others are unchanged. -/
def Reads (u t : State) : Prop := t = { u with answers := t.answers, events := t.events }

/-- As `Reads`, for an instruction that stores: memory may change too, and at the stored addresses alone. -/
def Stores (stored : List Addr) (u t : State) : Prop :=
  t = { u with mem := t.mem, answers := t.answers, events := t.events } ∧ ∀ a, a ∉ stored → byteAt t a = byteAt u a

/-- The addresses that a write of width w stores to (20_memory R66). -/
def storedAt (w : Width) (ea : Ea) : List Addr :=
  match w with
  | .w8 => [ea.addr]
  | .w16 => [ea.addr, (nextEa ea).addr]

/-- The value of width w that memory holds at an effective address, little-endian (20_memory R63). -/
def memoryValue (w : Width) (s : State) (ea : Ea) : Nat :=
  match w with
  | .w8 => (byteAt s ea.addr).toNat
  | .w16 => (byteAt s ea.addr).toNat + 256 * (byteAt s (nextEa ea).addr).toNat

/-! ### The record of bus events -/

/-- Memory and the platform's answers in `t` are those of `s` after these events, the newest first: a read has the value that the
bus gives at that moment, and a write stores its value (20_memory R62). -/
def Follows (events : List BusEvent) (s t : State) : Prop :=
  match events with
  | [] => SameMemory s t ∧ t.answers = s.answers
  | e :: older => ∃ u, Follows older s u ∧
    match e.access with
    | .read => e.value = busValue e.addr u ∧ SameMemory u t ∧ t.answers = dropAnswer u.answers e.addr.toNat
    | .write => (∀ a, byteAt t a = if a = e.addr then e.value else byteAt u a) ∧ t.answers = u.answers

/-- Between `s` and `t` there are exactly these byte accesses, at these addresses and in this order, and their values are those
of the bus (00_scope R19, 20_memory R70). The record holds the newest first. -/
def Accesses (accesses : List (Access × Addr)) (s t : State) : Prop :=
  ∃ new, t.events = new ++ s.events ∧ new.map (fun e => (e.access, e.addr)) = accesses.reverse ∧ Follows new s t

/-- A read at each address, in the order of the list. -/
def readsAt (addrs : List Addr) : List (Access × Addr) := addrs.map fun a => (.read, a)

/-- A write at each address, in the order of the list. -/
def writesAt (addrs : List Addr) : List (Access × Addr) := addrs.map fun a => (.write, a)

/-- The two addresses of a 16-bit access, in the order of WORD_BYTE_ORDER (20_memory R67). -/
def wordAddrs (low high : Addr) : List Addr :=
  match Config.wordByteOrder with
  | .lowFirst => [low, high]
  | .highFirst => [high, low]

/-- The addresses of an access of width w at an effective address, in their order (20_memory R65, R66). -/
def dataAddrs (w : Width) (ea : Ea) : List Addr :=
  match w with
  | .w8 => [ea.addr]
  | .w16 => wordAddrs ea.addr (nextEa ea).addr

/-- Two byte accesses as the record has them, the newest first, in the order of WORD_BYTE_ORDER (20_memory R67). -/
def wordEvents (low high : BusEvent) : List BusEvent :=
  match Config.wordByteOrder with
  | .lowFirst => [high, low]
  | .highFirst => [low, high]

/-- The events of a read of width w at an effective address, in the state before the read (20_memory R65). -/
def readEvents (w : Width) (ea : Ea) (s : State) : List BusEvent :=
  let event := fun a : Addr => BusEvent.mk .read a (busValue a s)
  match w with
  | .w8 => [event ea.addr]
  | .w16 => wordEvents (event ea.addr) (event (nextEa ea).addr)

/-- The events of a write of width w at an effective address, by the bytes that memory holds in the state after the write
(20_memory R66). -/
def writeEvents (w : Width) (ea : Ea) (t : State) : List BusEvent :=
  let event := fun a : Addr => BusEvent.mk .write a (byteAt t a)
  match w with
  | .w8 => [event ea.addr]
  | .w16 => wordEvents (event ea.addr) (event (nextEa ea).addr)

/-- The record after a store through a mode: the writes follow the reads of the pointer, and there is no other access. -/
def StoreRecord (w : Width) (m : Mode) (s t : State) : Prop :=
  let ea := effectiveAddr m s
  t.events = writeEvents w ea.1 t ++ ea.2.events

/-- The record after a read-modify-write through a mode: the reads of the pointer, one read of the place and then one write of it
(20_memory R70). -/
def ModifyRecord (w : Width) (m : Mode) (s t : State) : Prop :=
  let ea := effectiveAddr m s
  t.events = writeEvents w ea.1 t ++ (readEvents w ea.1 ea.2 ++ ea.2.events)

/-! ### Flags -/

/-- The sign of a number at width w: its bit w-1. -/
def signOf (w : Width) (v : Nat) : Bool := decide (2 ^ (w.bits - 1) ≤ v % 2 ^ w.bits)

/-- Z and N follow from a value at width w (00_scope R11). -/
def FollowsZN (w : Width) (v : Nat) (p : Status) : Prop := p.Z = decide (v % 2 ^ w.bits = 0) ∧ p.N = signOf w v

/-- At width 8 the high byte of the accumulator is as before (10_state R21). -/
def KeepsHigh (w : Width) (s t : State) : Prop := w = .w8 → highByte t.A = highByte s.A

/-- The cycle counter has the unit of a variable-cycle build added, and nothing otherwise (70_reset_and_hazards R352). -/
def oneUnit : Nat := if Config.varCycles then Config.oneCycle else 0

/-! ### Decimal numbers -/

/-- `dec`: the number that the low `k` digits of a packed BCD value stand for (40_arith R143). -/
def decimalValue (k v : Nat) : Nat :=
  match k with
  | 0 => 0
  | k + 1 => v % 16 + 10 * decimalValue k (v / 16)

/-! ### The stack -/

/-- The addresses that `n` pushes store to, in their order (20_memory R74, R75). -/
def pushSlots (rule : StackRule) (n : Nat) (s : State) : List Addr :=
  match n with
  | 0 => []
  | n + 1 => mkAddr 0x00 s.S :: pushSlots rule n { s with S := decS rule s }

/-- S after `n` pushes. -/
def pushEnd (rule : StackRule) (n : Nat) (s : State) : Word :=
  match n with
  | 0 => s.S
  | n + 1 => pushEnd rule n { s with S := decS rule s }

/-- The addresses that `n` pulls read, in their order. -/
def pullSlots (rule : StackRule) (n : Nat) (s : State) : List Addr :=
  match n with
  | 0 => []
  | n + 1 => mkAddr 0x00 (incS rule s) :: pullSlots rule n { s with S := incS rule s }

/-- S after `n` pulls. -/
def pullEnd (rule : StackRule) (n : Nat) (s : State) : Word :=
  match n with
  | 0 => s.S
  | n + 1 => pullEnd rule n { s with S := incS rule s }

/-- The bytes are on the stack, the first at the address that the first push stores to, and every other byte is as before. -/
def Pushed (rule : StackRule) (bytes : List Byte) (s t : State) : Prop :=
  (pushSlots rule bytes.length s).map (byteAt t) = bytes ∧
  ∀ a, a ∉ pushSlots rule bytes.length s → byteAt t a = byteAt s a

/-- What S is at the end of an instruction of the wide stack rule (20_memory R75). -/
def settled (s : State) (v : Word) : Word := if s.E then mkWord 0x01 (lowByte v) else v

/-- The bytes that an exception entry pushes, in their order; `b` is the B bit of P in emulation mode (60_exceptions R318). -/
def frameBytes (b : Bool) (ret : Word) (s : State) : List Byte :=
  if s.E then [highByte ret, lowByte ret, pushedP b s]
  else [s.PBR, highByte ret, lowByte ret, packP s.P]

/-- `t` is `s` after an entry sequence through the vector at offset `vec` of bank 0, with `b` as the pushed B bit
(60_exceptions R311, R318): the frame is on the stack, I is 1, D is 0, PBR is 0 and PC is the word at the vector, read after the
pushes; all else is unchanged. -/
def EntersHandler (vec : Word) (b : Bool) (ret : Word) (s t : State) : Prop :=
  let n := (frameBytes b ret s).length
  Pushed .legacy (frameBytes b ret s) s t ∧
  t.PC = mkWord (busValue (mkAddr 0x00 (vec + 1)) { s with mem := t.mem })
    (busValue (mkAddr 0x00 vec) { s with mem := t.mem }) ∧
  Accesses (writesAt (pushSlots .legacy n s) ++ readsAt (wordAddrs (mkAddr 0x00 vec) (mkAddr 0x00 (vec + 1)))) s t ∧
  t = { s with S := pushEnd .legacy n s, P := { s.P with I := true, D := false }, PBR := 0x00, PC := t.PC,
               mem := t.mem, answers := t.answers, events := t.events }

/-! ### What each instruction reads and writes -/

/-- The places of a mode's pointer, in the order of their reads (30_encoding R103 to R109, R121). -/
def pointerAddrs (m : Mode) (s : State) : List Addr :=
  let direct := fun (legacy : Bool) (offsets : List Nat) => offsets.map fun off => (directAddr off legacy s).addr
  match m with
  | .dpInd d | .dpIndY d => direct true [d.toNat, d.toNat + 1]
  | .dpXInd d => direct true [d.toNat + s.X.toNat, d.toNat + s.X.toNat + 1]
  | .dpIndLong d | .dpIndLongY d => direct false [d.toNat, d.toNat + 1, d.toNat + 2]
  | .srIndY k => [mkAddr 0x00 (s.S + zext k), mkAddr 0x00 (s.S + zext k + 1)]
  | .abs _ | .absX _ | .absY _ | .dp _ | .dpX _ | .dpY _ | .long _ | .longX _ | .sr _ => []

/-- The bytes of a width. -/
def byteCount (w : Width) : Nat :=
  match w with
  | .w8 => 1
  | .w16 => 2

/-- The reads of a memory operand of width w: its pointer and then its bytes (30_encoding R96). -/
def memReads (m : Mode) (w : Width) (s : State) : List (Access × Addr) :=
  readsAt (pointerAddrs m s) ++ readsAt (dataAddrs w (effectiveAddr m s).1)

/-- The reads of an operand of width w; an immediate has none (30_encoding R96, R98). -/
def operandReads (o : Operand) (w : Width) (s : State) : List (Access × Addr) :=
  match o with
  | .imm _ => []
  | .mem m => memReads m w s

/-- A store of width w: the reads of the pointer and then the writes. -/
def storeAccesses (m : Mode) (w : Width) (s : State) : List (Access × Addr) :=
  readsAt (pointerAddrs m s) ++ writesAt (dataAddrs w (effectiveAddr m s).1)

/-- A read-modify-write of width w: the reads and then the writes; that of the accumulator has none (20_memory R70). -/
def modifyAccesses (t : Target) (w : Width) (s : State) : List (Access × Addr) :=
  match t with
  | .acc => []
  | .mem m => memReads m w s ++ writesAt (dataAddrs w (effectiveAddr m s).1)

/-- The byte accesses of an instruction after its fetch, in their order, as the instruction rules name them (20_memory R70). -/
def accessesOf (i : Instr) (s : State) : List (Access × Addr) :=
  let pushes := fun (rule : StackRule) (n : Nat) => writesAt (pushSlots rule n s)
  let pulls := fun (rule : StackRule) (n : Nat) => readsAt (pullSlots rule n s)
  let pointerX := fun a : Word => readsAt [mkAddr s.PBR (a + s.X), mkAddr s.PBR (a + s.X + 1)]
  let vectorAt := fun vec : Word => readsAt (wordAddrs (mkAddr 0x00 vec) (mkAddr 0x00 (vec + 1)))
  match i with
  | .adc o | .sbc o | .and o | .ora o | .eor o | .lda o | .cmp o => operandReads o (mW s) s
  | .ldx o | .ldy o | .cpx o | .cpy o => operandReads o (xW s) s
  | .bit m => memReads m (mW s) s
  | .sta m | .stz m => storeAccesses m (mW s) s
  | .stx m | .sty m => storeAccesses m (xW s) s
  | .asl t | .lsr t | .rol t | .ror t | .inc t | .dec t => modifyAccesses t (mW s) s
  | .tsb m | .trb m => modifyAccesses (.mem m) (mW s) s
  | .jmpInd a => readsAt [mkAddr 0x00 a, mkAddr 0x00 (a + 1)]
  | .jmpIndX a => pointerX a
  | .jmlInd a => readsAt [mkAddr 0x00 a, mkAddr 0x00 (a + 1), mkAddr 0x00 (a + 2)]
  | .jsrAbs _ => pushes .legacy 2
  | .jsrIndX a => pushes .wide 2 ++ pointerX a
  | .jsl _ => pushes .wide 3
  | .rts => pulls .legacy 2
  | .rtl => pulls .wide 3
  | .pha => pushes .legacy (byteCount (mW s))
  | .phx | .phy => pushes .legacy (byteCount (xW s))
  | .php | .phb | .phk => pushes .legacy 1
  | .phd | .pea _ | .per _ => pushes .wide 2
  | .pei d => readsAt [(directAddr d.toNat false s).addr, (directAddr (d.toNat + 1) false s).addr] ++ pushes .wide 2
  | .pla => pulls .legacy (byteCount (mW s))
  | .plx | .ply => pulls .legacy (byteCount (xW s))
  | .plp | .plb => pulls .legacy 1
  | .pld => pulls .wide 2
  | .mvn dst src | .mvp dst src => [(.read, mkAddr src s.X), (.write, mkAddr dst s.Y)]
  | .brk _ => pushes .legacy (if s.E then 3 else 4) ++ vectorAt (if s.E then 0xFFFE else 0xFFE6)
  | .cop _ => pushes .legacy (if s.E then 3 else 4) ++ vectorAt (if s.E then 0xFFF4 else 0xFFE4)
  | .rti => pulls .legacy (if s.E then 3 else 4)
  | _ => []

/-! ### Which instructions may write a register or a flag

The column "written by" of 10_state R44 and the flag rules R30 to R37, with what R23 and R28 add: a change of P.X to 1 clears XH
and YH, and XCE forces the high bytes and SH. -/

/-- A (10_state R44). -/
def mayWriteA (i : Instr) : Bool :=
  match i with
  | .adc _ | .sbc _ | .and _ | .ora _ | .eor _ | .lda _ | .pla | .txa | .tya | .tdc | .tsc | .xba | .mvn _ _ | .mvp _ _
  | .asl .acc | .lsr .acc | .rol .acc | .ror .acc | .inc .acc | .dec .acc => true
  | _ => false

/-- X (10_state R23, R44). -/
def mayWriteX (i : Instr) : Bool :=
  match i with
  | .ldx _ | .inx | .dex | .plx | .tax | .tsx | .tyx | .mvn _ _ | .mvp _ _ | .sep _ | .plp | .rti | .xce => true
  | _ => false

/-- Y (10_state R23, R44). -/
def mayWriteY (i : Instr) : Bool :=
  match i with
  | .ldy _ | .iny | .dey | .ply | .tay | .txy | .mvn _ _ | .mvp _ _ | .sep _ | .plp | .rti | .xce => true
  | _ => false

/-- S: the pushes, the pulls, TCS, TXS, the traps, and XCE (10_state R28, R44). -/
def mayWriteS (i : Instr) : Bool :=
  match i with
  | .pha | .phx | .phy | .php | .phb | .phk | .phd | .pea _ | .pei _ | .per _ | .pla | .plx | .ply | .plp | .plb | .pld
  | .jsrAbs _ | .jsrIndX _ | .jsl _ | .rts | .rtl | .tcs | .txs | .brk _ | .cop _ | .rti | .xce => true
  | _ => false

/-- D (10_state R25, R44). -/
def mayWriteD (i : Instr) : Bool :=
  match i with
  | .tcd | .pld => true
  | _ => false

/-- DBR (10_state R26, R44). -/
def mayWriteDBR (i : Instr) : Bool :=
  match i with
  | .plb | .mvn _ _ | .mvp _ _ => true
  | _ => false

/-- PBR (10_state R26, R44). -/
def mayWritePBR (i : Instr) : Bool :=
  match i with
  | .jmlLong _ | .jmlInd _ | .jsl _ | .rtl | .rti | .brk _ | .cop _ => true
  | _ => false

/-- PC after the fetch: the control transfers, the block moves and the traps (10_state R44, 49_system R302). -/
def mayWritePC (i : Instr) : Bool :=
  match i with
  | .bpl _ | .bmi _ | .bvc _ | .bvs _ | .bcc _ | .bcs _ | .bne _ | .beq _ | .bra _ | .brl _
  | .jmpAbs _ | .jmpInd _ | .jmpIndX _ | .jmlLong _ | .jmlInd _ | .jsrAbs _ | .jsrIndX _ | .jsl _ | .rts | .rtl
  | .mvn _ _ | .mvp _ _ | .brk _ | .cop _ | .rti => true
  | _ => false

/-- All eight flags: PLP and RTI, and REP and SEP by their operand (10_state R30 to R37). -/
def mayWriteP (i : Instr) : Bool :=
  match i with
  | .plp | .rti | .rep _ | .sep _ => true
  | _ => false

/-- N and Z by SetZN, or N and Z by BIT (10_state R31, R32). -/
def setsZN (i : Instr) : Bool :=
  match i with
  | .adc _ | .sbc _ | .and _ | .ora _ | .eor _ | .asl _ | .lsr _ | .rol _ | .ror _ | .inc _ | .dec _ | .inx | .iny | .dex | .dey
  | .lda _ | .ldx _ | .ldy _ | .cmp _ | .cpx _ | .cpy _ | .bit _ | .pla | .plx | .ply | .plb | .pld
  | .tax | .tay | .txa | .tya | .txy | .tyx | .tsx | .tsc | .tcd | .tdc | .xba => true
  | _ => false

/-- N (10_state R32). -/
def mayWriteN (i : Instr) : Bool := setsZN i || mayWriteP i

/-- Z (10_state R31). -/
def mayWriteZ (i : Instr) : Bool :=
  match i with
  | .bitImm _ | .tsb _ | .trb _ => true
  | _ => setsZN i || mayWriteP i

/-- C (10_state R30). -/
def mayWriteC (i : Instr) : Bool :=
  match i with
  | .adc _ | .sbc _ | .asl _ | .lsr _ | .rol _ | .ror _ | .cmp _ | .cpx _ | .cpy _ | .clc | .sec | .xce => true
  | _ => mayWriteP i

/-- V (10_state R33). -/
def mayWriteV (i : Instr) : Bool :=
  match i with
  | .adc _ | .sbc _ | .bit _ | .clv => true
  | _ => mayWriteP i

/-- D, the decimal flag (10_state R34). -/
def mayWriteDecimal (i : Instr) : Bool :=
  match i with
  | .cld | .sed | .brk _ | .cop _ => true
  | _ => mayWriteP i

/-- I (10_state R35). -/
def mayWriteI (i : Instr) : Bool :=
  match i with
  | .cli | .sei | .brk _ | .cop _ => true
  | _ => mayWriteP i

/-- M and X (10_state R36, R37). -/
def mayWriteWidth (i : Instr) : Bool :=
  match i with
  | .xce => true
  | _ => mayWriteP i

end Sys2Proof.Machine
end

