-- ==== Sys2Proof/Certificates/Slice0/Obligations.lean ====
section
/-! DEFINITION. The statements for the provers, from the numbered rules of spec/. -/

open Sys2Proof Sys2Proof.Machine

/-! ### Encoding and decoding -/

/-- Decoding what the encoder gives for a well-formed instruction gives the instruction back, whatever bytes follow
(30_encoding R91, R92, R93, R95). -/
def Obligations.DecodeOfEncode : Prop :=
  ∀ (m8 x8 : Bool) (i : Instr) (rest : List Byte), i.wellFormed m8 x8 = true →
    ∃ bytes, encode i = some bytes ∧ decode m8 x8 (bytes ++ rest) = .ok (i, rest)

/-- Whatever the decoder accepts is well-formed, and its bytes are those the encoder gives: no byte pattern has two meanings
and no bit of an instruction is dropped (30_encoding R90, R91, R94, R95). -/
def Obligations.EncodeOfDecode : Prop :=
  ∀ (m8 x8 : Bool) (bytes rest : List Byte) (i : Instr), decode m8 x8 bytes = .ok (i, rest) →
    i.wellFormed m8 x8 = true ∧ ∃ head, encode i = some head ∧ bytes = head ++ rest

/-- Decoding is total: for every opcode byte there is a number of operand bytes, at most three, such that every byte string
with at least so many operand bytes decodes to a well-formed instruction (30_encoding R91, R94). -/
def Obligations.EveryOpcodeDecodes : Prop :=
  ∀ (m8 x8 : Bool) (opcode : Byte), ∃ n ≤ 3, ∀ operands : List Byte, operands.length = n →
    ∃ i, decode m8 x8 (opcode :: operands) = .ok (i, []) ∧ i.wellFormed m8 x8 = true

/-- Words written out from the opcode map, one for each family: vectors V1 to V7 of 95_test_vectors and others of R95. -/
def Obligations.SpecWordsDecode : Prop :=
  decode false false [0xA9, 0x34, 0x12] = .ok (.lda (.imm (.word 0x1234)), []) ∧
  decode true true [0xA9, 0x34, 0x12] = .ok (.lda (.imm (.byte 0x34)), [0x12]) ∧
  decode false false [0xA2, 0xFF, 0x1F] = .ok (.ldx (.imm (.word 0x1FFF)), []) ∧
  decode false false [0xC2, 0x30] = .ok (.rep 0x30, []) ∧
  decode true true [0x5C, 0x00, 0x80, 0xC0] = .ok (.jmlLong 0xC08000, []) ∧
  decode true true [0x54, 0x7F, 0x7E] = .ok (.mvn 0x7F 0x7E, []) ∧
  decode true true [0x7D, 0x00, 0x02] = .ok (.adc (.mem (.absX 0x0200)), []) ∧
  decode true true [0x93, 0x03] = .ok (.sta (.srIndY 0x03), [])

/-! ### The step -/

/-- When no event is due and the bytes at PBR:PC are the encoding of a well-formed instruction, the step is that instruction's
meaning, at the state whose PC has passed its bytes (00_scope R16, 30_encoding R90). -/
def Obligations.StepRunsDecodedInstruction : Prop :=
  ∀ (s : State) (i : Instr) (bytes : List Byte), s.executes → i.wellFormed s.P.M s.P.X = true → encode i = some bytes →
    (fetchBytes bytes.length (samplePins s)).1 = bytes →
    step s = exec i (fetchBytes bytes.length (samplePins s)).2

/-- Fetching reads the bytes at PBR:PC, PBR:PC+1, ... with PC wrapping in its bank, and leaves everything but PC (and the
answers and the record) as it was; the record has these reads, each once, in increasing order (20_memory R70, R72,
10_state R27). -/
def Obligations.FetchReadsProgramBytes : Prop :=
  ∀ (s : State) (n : Nat), n ≤ 4 →
    (fetchBytes n s).1 = (List.range n).map (fun k => busValue (mkAddr s.PBR (s.PC + BitVec.ofNat 16 k)) s) ∧
    Reads { s with PC := s.PC + BitVec.ofNat 16 n } (fetchBytes n s).2 ∧
    (fetchBytes n s).2.events =
      ((List.range n).map fun k =>
        let a := mkAddr s.PBR (s.PC + BitVec.ofNat 16 k)
        BusEvent.mk .read a (busValue a s)).reverse ++ s.events

/-- The core never faults, and a step is refused exactly when ABORT is asserted with RESET not asserted and the core not
stopped (00_scope R17, 60_exceptions R310; the refusal of ABORT is the decision of R315, log 25). -/
def Obligations.StepNeverFaults : Prop :=
  ∀ s : State,
    (SafeStep s ∨ step s = .refused .abortAsserted) ∧
    (step s = .refused .abortAsserted ↔
      (currentPins s).abortLine = true ∧ (currentPins s).resetLine = false ∧ s.stopped = false)

/-- The state after reset is legal (70_reset_and_hazards R344), and so is the state after a reset sequence from any state whose
memory is in its canonical form. -/
def Obligations.ResetIsLegal : Prop :=
  State.reset.Inv ∧ ∀ s : State, s.mem.wf → (resetSequence s).Inv

/-- Every step keeps the invariants of 10_state R23, R24 and R28 and the canonical form of memory. -/
def Obligations.StepKeepsInvariant : Prop :=
  ∀ s t : State, s.Inv → step s = .next t → t.Inv

/-- The reset state has the values that the spec gives; the registers it leaves open are the model's choice (log 5), memory
lists nothing (log 3), Cycles starts at 0 (log 9). -/
def Obligations.ResetStateTable : Prop :=
  State.reset.E = true ∧ State.reset.P.M = true ∧ State.reset.P.X = true ∧ State.reset.P.D = false ∧ State.reset.P.I = true ∧
  highByte State.reset.X = 0x00 ∧ highByte State.reset.Y = 0x00 ∧ highByte State.reset.S = 0x01 ∧
  State.reset.D = 0x0000 ∧ State.reset.DBR = 0x00 ∧ State.reset.PBR = 0x00 ∧
  State.reset.PC = mkWord (byteAt State.reset 0x00FFFD) (byteAt State.reset 0x00FFFC) ∧
  State.reset.nmiPending = false ∧ State.reset.waiting = false ∧ State.reset.stopped = false ∧
  State.reset.waitAddress = none

/-- RESET, from any state, waiting and stopped included (70_reset_and_hazards R340, R342, R343): the registers it names, PC from
the vector, the unspecified ones from the draws, whatever they are (log 6), memory and Cycles not written; the only
accesses are the two reads of the vector, in the order of WORD_BYTE_ORDER (log 13). The order in which
the draws are numbered is the model's choice. -/
def Obligations.ResetFromAnyState : Prop :=
  ∀ s : State, (currentPins s).resetLine = true → ∃ t, step s = .next t ∧
    t.E = true ∧
    t.P = { N := Config.drawBit s.draws, V := Config.drawBit (s.draws + 1), M := true, X := true, D := false, I := true,
            Z := Config.drawBit (s.draws + 2), C := Config.drawBit (s.draws + 3) } ∧
    t.A = Config.drawWord s.draws ∧ t.X = zext (lowByte (Config.drawWord (s.draws + 1))) ∧
    t.Y = zext (lowByte (Config.drawWord (s.draws + 2))) ∧
    t.S = mkWord 0x01 (lowByte (Config.drawWord (s.draws + 3))) ∧
    t.D = 0x0000 ∧ t.DBR = 0x00 ∧ t.PBR = 0x00 ∧
    t.waiting = false ∧ t.stopped = false ∧ t.nmiPending = false ∧
    t.waitAddress = (if Config.cpuShutdown then none else s.waitAddress) ∧
    t.PC = mkWord (busValue 0x00FFFD s) (busValue 0x00FFFC s) ∧
    t.mem = s.mem ∧ t.cycles = s.cycles ∧ t.inputs = s.inputs.tail ∧
    Accesses (readsAt (wordAddrs 0x00FFFC 0x00FFFD)) s t

/-! ### Interrupt inputs -/

/-- Interrupts are taken with PC as the return address, and the latch and the waiting state are cleared: a pending NMI, or an NMI
edge at this step, whatever P.I and the IRQ line are; an active IRQ line with P.I = 0 when no NMI is pending. Each has its
vector of the mode, read after the frame is written (log 13 for the order of its bytes), and pushes B = 0
(60_exceptions R311, R313, R314, R316, R318). The pins are the first sample of `inputs` (the model's choice, log 1). -/
def Obligations.InterruptsAreTaken : Prop :=
  ∀ s : State, (currentPins s).resetLine = false → s.stopped = false → (currentPins s).abortLine = false →
    let nmi := s.nmiPending || (currentPins s).nmiEdge
    let Takes := fun vec : Word => ∃ t, step s = .next t ∧
      EntersHandler vec false s.PC { s with inputs := s.inputs.tail, nmiPending := false, waiting := false } t
    (nmi = true → Takes (if s.E then 0xFFFA else 0xFFEA)) ∧
    (nmi = false → (currentPins s).irqLine = true → s.P.I = false → Takes (if s.E then 0xFFFE else 0xFFEE))

/-- A stopped core takes no step until RESET: nothing changes but the pin sample and the NMI latch. A waiting core with no NMI
takes no step while no IRQ is active, and with P.I = 1 an active IRQ ends the wait without being taken
(49_system R305, R306, 60_exceptions R316). That no step is a next state, and that the latch takes an edge while the core is
stopped, are the model's choices (log 14, log 26). -/
def Obligations.StoppedAndWaiting : Prop :=
  ∀ s : State, (currentPins s).resetLine = false →
    (s.stopped = true →
      step s = .next { s with inputs := s.inputs.tail, nmiPending := s.nmiPending || (currentPins s).nmiEdge }) ∧
    (s.stopped = false → (currentPins s).abortLine = false → (s.nmiPending || (currentPins s).nmiEdge) = false →
      s.waiting = true →
      ((currentPins s).irqLine = true → s.P.I = true →
        step s = .next { s with inputs := s.inputs.tail, nmiPending := false, waiting := false }) ∧
      ((currentPins s).irqLine = false →
        step s = .next { s with inputs := s.inputs.tail, nmiPending := false }))

/-! ### Status byte, stack, addresses -/

/-- The byte of P: native mode has the layout NVMXDIZC, and reading it back gives P; in emulation mode the pushed byte has bit 5
at 1 and B in bit 4 (10_state R29, R38; which kinds push B = 1 is in TrapResults, log 18). -/
def Obligations.StatusByteLayout : Prop :=
  (∀ p : Status, unpackP (packP p) = p ∧
    (packP p).toNat = 128 * p.N.toNat + 64 * p.V.toNat + 32 * p.M.toNat + 16 * p.X.toNat + 8 * p.D.toNat + 4 * p.I.toNat
      + 2 * p.Z.toNat + p.C.toNat) ∧
  (∀ v : Byte, packP (unpackP v) = v) ∧
  (∀ (b : Bool) (s : State), s.E = false → pushedP b s = packP s.P) ∧
  (∀ (b : Bool) (s : State), s.E = true → pushedP b s = packP { s.P with M := true, X := b })

/-- The steps of S: modulo 2^16 in native mode; in emulation mode in page 0x01, but for the instructions of the wide rule in 16
bits if EMU_STACK_LINEAR (20_memory R74, R75). -/
def Obligations.StackSteps : Prop :=
  ∀ (rule : StackRule) (s : State),
    let dec := (decS rule s).toNat
    let inc := (incS rule s).toNat
    let Linear := dec = (s.S.toNat + 65535) % 65536 ∧ inc = (s.S.toNat + 1) % 65536
    let InPage := dec = 256 + (s.S.toNat + 255) % 256 ∧ inc = 256 + (s.S.toNat + 1) % 256
    (s.E = false → Linear) ∧
    (s.E = true → match rule with
      | .legacy => InPage
      | .wide => if Config.emuStackLinear then Linear else InPage)

/-- The byte after an effective address: the next of all 24 bits for a linear address, in bank 0 for an address of bank 0
(20_memory R64). -/
def Obligations.NextByteAddress : Prop :=
  ∀ a : Addr,
    (nextEa ⟨a, .lin⟩).addr.toNat = (a.toNat + 1) % 2 ^ 24 ∧ (nextEa ⟨a, .lin⟩).kind = .lin ∧
    (nextEa ⟨a, .bank0⟩).addr.toNat = (a.toNat % 65536 + 1) % 65536 ∧ (nextEa ⟨a, .bank0⟩).kind = .bank0

/-- Reads and writes of memory are little-endian, byte by byte, and a write stores nothing else; a read of a place just written
gives the value when the platform holds no answer (20_memory R63, R65, R66, R78; the answers are the model's form of the
oracle, log 2). -/
def Obligations.MemoryAccess : Prop :=
  ∀ (w : Width) (ea : Ea) (v : Word) (s : State),
    (memRead .w16 ea s).1.toNat = (busValue ea.addr s).toNat + 256 * (busValue (nextEa ea).addr s).toNat ∧
    (memRead .w8 ea s).1.toNat = (busValue ea.addr s).toNat ∧
    Reads s (memRead w ea s).2 ∧
    memoryValue w (memWrite w ea v s) ea = v.toNat % 2 ^ w.bits ∧
    Stores (storedAt w ea) s (memWrite w ea v s) ∧
    (s.answers = [] → (memRead w ea (memWrite w ea v s)).1.toNat = v.toNat % 2 ^ w.bits)

/-- The record of a 16-bit access has its two byte accesses, once each, in the order that WORD_BYTE_ORDER gives; that of an 8-bit
access has one (20_memory R62, R65, R66, R67). Every instruction makes exactly the accesses that its rule names, at the addresses
and in the order that it names, each once, with the values of the bus, and no dummy access (20_memory R70, 00_scope R19; the
decision of R70, log 19). Log 12 and log 13 give the order in which the pointer of (sr,S),Y and a vector are read. -/
def Obligations.BusEventOrder : Prop :=
  (∀ (ea : Ea) (v : Word) (s : State),
    let lo := ea.addr
    let hi := (nextEa ea).addr
    (memRead .w8 ea s).2.events = ⟨.read, lo, busValue lo s⟩ :: s.events ∧
    (memWrite .w8 ea v s).events = ⟨.write, lo, lowByte v⟩ :: s.events ∧
    match Config.wordByteOrder with
    | .lowFirst =>
      (memRead .w16 ea s).2.events = ⟨.read, hi, busValue hi s⟩ :: ⟨.read, lo, busValue lo s⟩ :: s.events ∧
      (memWrite .w16 ea v s).events = ⟨.write, hi, highByte v⟩ :: ⟨.write, lo, lowByte v⟩ :: s.events
    | .highFirst =>
      (memRead .w16 ea s).2.events = ⟨.read, lo, busValue lo s⟩ :: ⟨.read, hi, busValue hi s⟩ :: s.events ∧
      (memWrite .w16 ea v s).events = ⟨.write, lo, lowByte v⟩ :: ⟨.write, hi, highByte v⟩ :: s.events) ∧
  ∀ (i : Instr) (s : State), Completes i s (Accesses (accessesOf i s) s)

/-- The absolute and long modes (30_encoding R99, R100, R107): the sum of an index may carry into the next bank. -/
def Obligations.AbsoluteAddresses : Prop :=
  ∀ (a : Word) (al : Addr) (s : State),
    let base := s.DBR.toNat * 65536 + a.toNat
    ((effectiveAddr (.abs a) s).1.addr.toNat = base ∧
      (effectiveAddr (.absX a) s).1.addr.toNat = (base + s.X.toNat) % 2 ^ 24 ∧
      (effectiveAddr (.absY a) s).1.addr.toNat = (base + s.Y.toNat) % 2 ^ 24 ∧
      (effectiveAddr (.long al) s).1.addr = al ∧
      (effectiveAddr (.longX al) s).1.addr.toNat = (al.toNat + s.X.toNat) % 2 ^ 24) ∧
    ∀ m ∈ [Mode.abs a, .absX a, .absY a, .long al, .longX al],
      (effectiveAddr m s).1.kind = .lin ∧ (effectiveAddr m s).2 = s

/-- The direct address (30_encoding R101) and the modes dp, dp,X and dp,Y (R102): in emulation mode with DL = 0 the legacy modes
wrap in the direct page; otherwise the sum wraps in bank 0. -/
def Obligations.DirectAddresses : Prop :=
  (∀ (off : Nat) (legacy : Bool) (s : State),
    (directAddr off legacy s).kind = .bank0 ∧
    (directAddr off legacy s).addr.toNat =
      if legacy = true ∧ s.E = true ∧ s.D.toNat % 256 = 0 then s.D.toNat / 256 * 256 + off % 256
      else (s.D.toNat + off) % 65536) ∧
  ∀ (d : Byte) (s : State),
    effectiveAddr (.dp d) s = (directAddr d.toNat true s, s) ∧
    effectiveAddr (.dpX d) s = (directAddr (d.toNat + s.X.toNat) true s, s) ∧
    effectiveAddr (.dpY d) s = (directAddr (d.toNat + s.Y.toNat) true s, s) ∧
    (effectiveAddr (.dp d) s).1.addr.toNat = (s.D.toNat + d.toNat) % 65536

/-- The indirect modes through the direct page (30_encoding R103 to R106): where the pointer lies, its byte order, the bank of the
address, the index, and the reads of the pointer, from low to high (R121). -/
def Obligations.IndirectAddresses : Prop :=
  ∀ (d : Byte) (s : State),
    let at2 := fun off : Nat => (busValue (directAddr off true s).addr s).toNat
      + 256 * (busValue (directAddr (off + 1) true s).addr s).toNat
    let at3 := fun off : Nat => (busValue (directAddr off false s).addr s).toNat
      + 256 * (busValue (directAddr (off + 1) false s).addr s).toNat
      + 65536 * (busValue (directAddr (off + 2) false s).addr s).toNat
    let bank := s.DBR.toNat * 65536
    ((effectiveAddr (.dpInd d) s).1.addr.toNat = bank + at2 d.toNat ∧
      (effectiveAddr (.dpXInd d) s).1.addr.toNat = bank + at2 (d.toNat + s.X.toNat) ∧
      (effectiveAddr (.dpIndY d) s).1.addr.toNat = (bank + at2 d.toNat + s.Y.toNat) % 2 ^ 24 ∧
      (effectiveAddr (.dpIndLong d) s).1.addr.toNat = at3 d.toNat ∧
      (effectiveAddr (.dpIndLongY d) s).1.addr.toNat = (at3 d.toNat + s.Y.toNat) % 2 ^ 24) ∧
    (∀ m ∈ [Mode.dpInd d, .dpXInd d, .dpIndY d, .dpIndLong d, .dpIndLongY d],
      (effectiveAddr m s).1.kind = .lin ∧ Reads s (effectiveAddr m s).2) ∧
    let event := fun (off : Nat) (legacy : Bool) =>
      let a := (directAddr off legacy s).addr
      BusEvent.mk .read a (busValue a s)
    let events2 := fun off : Nat => event (off + 1) true :: event off true :: s.events
    (effectiveAddr (.dpInd d) s).2.events = events2 d.toNat ∧
    (effectiveAddr (.dpXInd d) s).2.events = events2 (d.toNat + s.X.toNat) ∧
    (effectiveAddr (.dpIndY d) s).2.events = events2 d.toNat ∧
    ∀ m ∈ [Mode.dpIndLong d, .dpIndLongY d],
      (effectiveAddr m s).2.events =
        event (d.toNat + 2) false :: event (d.toNat + 1) false :: event d.toNat false :: s.events

/-- The stack-relative modes (30_encoding R108, R109), and the reads of the pointer, low byte first (R121; log 12). -/
def Obligations.StackRelativeAddresses : Prop :=
  ∀ (k : Byte) (s : State),
    let q := (s.S.toNat + k.toNat) % 65536
    let p := (busValue (BitVec.ofNat 24 q) s).toNat + 256 * (busValue (BitVec.ofNat 24 ((q + 1) % 65536)) s).toNat
    (effectiveAddr (.sr k) s).1.addr.toNat = q ∧ (effectiveAddr (.sr k) s).1.kind = .bank0 ∧
    (effectiveAddr (.sr k) s).2 = s ∧
    (effectiveAddr (.srIndY k) s).1.addr.toNat = (s.DBR.toNat * 65536 + p + s.Y.toNat) % 2 ^ 24 ∧
    (effectiveAddr (.srIndY k) s).1.kind = .lin ∧ Reads s (effectiveAddr (.srIndY k) s).2 ∧
    Accesses (readsAt [BitVec.ofNat 24 q, BitVec.ofNat 24 ((q + 1) % 65536)]) s (effectiveAddr (.srIndY k) s).2

/-! ### Arithmetic -/

/-- ADC with P.D = 0: sum, carry and overflow for every operand form, and its frame (40_arith R140, R141, R144). -/
def Obligations.AdcBinary : Prop :=
  ∀ (o : Operand) (s : State), s.P.D = false → Completes (.adc o) s fun t =>
    let w := mW s
    let a := (acc w s).toNat
    let b := (readOperand o w s).1.toNat
    let c := s.P.C.toNat
    (acc w t).toNat = (a + b + c) % 2 ^ w.bits ∧ KeepsHigh w s t ∧
    t.P.C = decide (2 ^ w.bits ≤ a + b + c) ∧
    t.P.V = (signOf w a == signOf w b && signOf w b != signOf w (a + b + c)) ∧
    FollowsZN w (a + b + c) t.P ∧ SameMemory s t ∧
    Reads { s with A := t.A, P := { s.P with N := t.P.N, V := t.P.V, Z := t.P.Z, C := t.P.C } } t

/-- SBC with P.D = 0: difference, carry (not borrow) and overflow for every operand form, and its frame
(40_arith R145, R146, R149). -/
def Obligations.SbcBinary : Prop :=
  ∀ (o : Operand) (s : State), s.P.D = false → Completes (.sbc o) s fun t =>
    let w := mW s
    let a := (acc w s).toNat
    let b := (readOperand o w s).1.toNat
    let c := s.P.C.toNat
    ((acc w t).toNat : Int) = ((a : Int) - b - (1 - c)) % 2 ^ w.bits ∧ KeepsHigh w s t ∧
    t.P.C = decide (b + 1 ≤ a + c) ∧
    t.P.V = (signOf w a != signOf w b && signOf w a != signOf w (acc w t).toNat) ∧
    FollowsZN w (acc w t).toNat t.P ∧ SameMemory s t ∧
    Reads { s with A := t.A, P := { s.P with N := t.P.N, V := t.P.V, Z := t.P.Z, C := t.P.C } } t

/-- ADC with P.D = 1 and valid BCD operands adds decimal numbers of two or four digits (40_arith R140, R142, R143, R144): the
result is valid BCD, the carry is the decimal carry, V comes from the final result (the decision of R152; log 17). -/
def Obligations.AdcDecimal : Prop :=
  ∀ (o : Operand) (s : State), s.P.D = true → validBcd (mW s) (acc (mW s) s) = true →
    validBcd (mW s) (readOperand o (mW s) s).1 = true → Completes (.adc o) s fun t =>
    let w := mW s
    let k := digits w
    let a := (acc w s).toNat
    let b := (readOperand o w s).1.toNat
    let sum := decimalValue k a + decimalValue k b + s.P.C.toNat
    validBcd w (acc w t) = true ∧ decimalValue k (acc w t).toNat = sum % 10 ^ k ∧ KeepsHigh w s t ∧
    t.P.C = decide (10 ^ k ≤ sum) ∧
    t.P.V = (signOf w a == signOf w b && signOf w b != signOf w (acc w t).toNat) ∧
    FollowsZN w (acc w t).toNat t.P ∧ SameMemory s t ∧
    Reads { s with A := t.A, P := { s.P with N := t.P.N, V := t.P.V, Z := t.P.Z, C := t.P.C } } t

/-- SBC with P.D = 1 and valid BCD operands subtracts decimal numbers of two or four digits (40_arith R145, R147, R148, R149);
V comes from the final result (the decision of R152; log 17). -/
def Obligations.SbcDecimal : Prop :=
  ∀ (o : Operand) (s : State), s.P.D = true → validBcd (mW s) (acc (mW s) s) = true →
    validBcd (mW s) (readOperand o (mW s) s).1 = true → Completes (.sbc o) s fun t =>
    let w := mW s
    let k := digits w
    let a := (acc w s).toNat
    let b := (readOperand o w s).1.toNat
    let diff : Int := (decimalValue k a : Int) - decimalValue k b - (1 - s.P.C.toNat)
    validBcd w (acc w t) = true ∧ (decimalValue k (acc w t).toNat : Int) = diff % 10 ^ k ∧ KeepsHigh w s t ∧
    t.P.C = decide (0 ≤ diff) ∧
    t.P.V = (signOf w a != signOf w b && signOf w a != signOf w (acc w t).toNat) ∧
    FollowsZN w (acc w t).toNat t.P ∧ SameMemory s t ∧
    Reads { s with A := t.A, P := { s.P with N := t.P.N, V := t.P.V, Z := t.P.Z, C := t.P.C } } t

/-- ADC and SBC with P.D = 1 and an operand that is not valid BCD still complete: result, C and V are the next draws, whatever
they are; Z and N follow the drawn result, and AH and all else are as for valid operands (40_arith R150; log 7). -/
def Obligations.InvalidBcdIsDrawn : Prop :=
  ∀ (o : Operand) (s : State), s.P.D = true →
    (validBcd (mW s) (acc (mW s) s) && validBcd (mW s) (readOperand o (mW s) s).1) = false →
    ∀ i ∈ [Instr.adc o, .sbc o], Completes i s fun t =>
      let w := mW s
      (acc w t).toNat = (Config.drawWord s.draws).toNat % 2 ^ w.bits ∧
      t.P.C = Config.drawBit s.draws ∧ t.P.V = Config.drawBit (s.draws + 1) ∧ t.draws = s.draws + 2 ∧
      FollowsZN w (acc w t).toNat t.P ∧ KeepsHigh w s t ∧ SameMemory s t ∧
      Reads { s with A := t.A, P := { s.P with N := t.P.N, V := t.P.V, Z := t.P.Z, C := t.P.C }, draws := t.draws } t

/-- The BCD round trip of the source's §8 (95_test_vectors T3): subtracting what was added gives the first operand back, for all
valid BCD values of 8 and 16 bits. -/
def Obligations.BcdRoundTrip : Prop :=
  ∀ (w : Width) (a b : Word), a.toNat < 2 ^ w.bits → b.toNat < 2 ^ w.bits → validBcd w a = true → validBcd w b = true →
    (sbcDec w (adcDec w a b false).1 b true).1 = a

/-! ### Logical, shift, rotate, increment, decrement -/

/-- AND, ORA and EOR for every operand form: the result goes to the accumulator, Z and N follow it, and C, V and all else are
unchanged (41_logical R160 to R163). -/
def Obligations.LogicalResults : Prop :=
  ∀ (o : Operand) (s : State),
    let w := mW s
    let b := (readOperand o w s).1
    let Result := fun (r : Word) (t : State) =>
      acc w t = r ∧ KeepsHigh w s t ∧ FollowsZN w r.toNat t.P ∧ SameMemory s t ∧
      Reads { s with A := t.A, P := { s.P with N := t.P.N, Z := t.P.Z } } t
    Completes (.and o) s (Result (acc w s &&& b)) ∧
    Completes (.ora o) s (Result (acc w s ||| b)) ∧
    Completes (.eor o) s (Result (acc w s ^^^ b))

/-- ASL, LSR, ROL and ROR of the accumulator: result, carry out, Z, N, the cycle unit, and the frame
(42_shift_rotate R170 to R174). -/
def Obligations.ShiftAccumulator : Prop :=
  ∀ s : State,
    let w := mW s
    let v := (acc w s).toNat
    let c := s.P.C.toNat
    let Result := fun (r : Nat) (out : Bool) (t : State) =>
      (acc w t).toNat = r ∧ KeepsHigh w s t ∧ t.P.C = out ∧ FollowsZN w r t.P ∧ SameMemory s t ∧
      t.cycles = s.cycles + oneUnit ∧
      Reads { s with A := t.A, P := { s.P with N := t.P.N, Z := t.P.Z, C := t.P.C }, cycles := t.cycles } t
    Completes (.asl .acc) s (Result (2 * v % 2 ^ w.bits) (signOf w v)) ∧
    Completes (.lsr .acc) s (Result (v / 2) (decide (v % 2 = 1))) ∧
    Completes (.rol .acc) s (Result ((2 * v + c) % 2 ^ w.bits) (signOf w v)) ∧
    Completes (.ror .acc) s (Result (v / 2 + c * 2 ^ (w.bits - 1)) (decide (v % 2 = 1)))

/-- ASL, LSR, ROL and ROR of memory, in every mode: the stored value, carry out, Z, N, the cycle unit, the record (one read of the
place and then one write of it), and the frame: every byte outside the stored bytes reads as before
(42_shift_rotate R170 to R174, 20_memory R70). -/
def Obligations.ShiftMemory : Prop :=
  ∀ (m : Mode) (s : State),
    let w := mW s
    let ea := (effectiveAddr m s).1
    let v := (readMem m w s).1.toNat
    let c := s.P.C.toNat
    let Result := fun (r : Nat) (out : Bool) (t : State) =>
      memoryValue w t ea = r ∧ t.P.C = out ∧ FollowsZN w r t.P ∧ t.cycles = s.cycles + oneUnit ∧ ModifyRecord w m s t ∧
      Stores (storedAt w ea) { s with P := { s.P with N := t.P.N, Z := t.P.Z, C := t.P.C }, cycles := t.cycles } t
    Completes (.asl (.mem m)) s (Result (2 * v % 2 ^ w.bits) (signOf w v)) ∧
    Completes (.lsr (.mem m)) s (Result (v / 2) (decide (v % 2 = 1))) ∧
    Completes (.rol (.mem m)) s (Result ((2 * v + c) % 2 ^ w.bits) (signOf w v)) ∧
    Completes (.ror (.mem m)) s (Result (v / 2 + c * 2 ^ (w.bits - 1)) (decide (v % 2 = 1)))

/-- INC and DEC of the accumulator and of memory: the value plus or minus 1 modulo 2^w, Z and N, the wait address, the cycle unit,
the record (one read of the place and then one write of it), and the frame: C and V are unchanged
(43_incdec R180, R181, R186, 20_memory R70). -/
def Obligations.IncDecResults : Prop :=
  ∀ (m : Mode) (s : State),
    let w := mW s
    let ea := (effectiveAddr m s).1
    let a := (acc w s).toNat
    let v := (readMem m w s).1.toNat
    let up := fun n : Nat => (n + 1) % 2 ^ w.bits
    let down := fun n : Nat => (n + (2 ^ w.bits - 1)) % 2 ^ w.bits
    let Side := fun (r : Nat) (t : State) =>
      FollowsZN w r t.P ∧ t.cycles = s.cycles + oneUnit ∧
      t.waitAddress = if Config.cpuShutdown then none else s.waitAddress
    let InAcc := fun (r : Nat) (t : State) =>
      (acc w t).toNat = r ∧ KeepsHigh w s t ∧ Side r t ∧ SameMemory s t ∧
      Reads { s with A := t.A, P := { s.P with N := t.P.N, Z := t.P.Z }, cycles := t.cycles, waitAddress := t.waitAddress } t
    let InMemory := fun (r : Nat) (t : State) =>
      memoryValue w t ea = r ∧ Side r t ∧ ModifyRecord w m s t ∧
      Stores (storedAt w ea)
        { s with P := { s.P with N := t.P.N, Z := t.P.Z }, cycles := t.cycles, waitAddress := t.waitAddress } t
    Completes (.inc .acc) s (InAcc (up a)) ∧ Completes (.dec .acc) s (InAcc (down a)) ∧
    Completes (.inc (.mem m)) s (InMemory (up v)) ∧ Completes (.dec (.mem m)) s (InMemory (down v))

/-- INX, INY, DEX and DEY at width xW: the register plus or minus 1 modulo 2^w, with the high byte 0x00 at width 8, Z and N, the
wait address by the parameters, and the frame (43_incdec R182 to R186). -/
def Obligations.IndexIncDecResults : Prop :=
  ∀ s : State,
    let w := xW s
    let x := (xr w s).toNat
    let y := (yr w s).toNat
    let up := fun n : Nat => (n + 1) % 2 ^ w.bits
    let down := fun n : Nat => (n + (2 ^ w.bits - 1)) % 2 ^ w.bits
    let Side := fun (r : Nat) (t : State) =>
      FollowsZN w r t.P ∧ SameMemory s t ∧
      t.waitAddress = if Config.cpuShutdown && Config.idxIncDecClearsWait then none else s.waitAddress
    let InX := fun (r : Nat) (t : State) =>
      t.X.toNat = r ∧ Side r t ∧
      Reads { s with X := t.X, P := { s.P with N := t.P.N, Z := t.P.Z }, waitAddress := t.waitAddress } t
    let InY := fun (r : Nat) (t : State) =>
      t.Y.toNat = r ∧ Side r t ∧
      Reads { s with Y := t.Y, P := { s.P with N := t.P.N, Z := t.P.Z }, waitAddress := t.waitAddress } t
    Completes .inx s (InX (up x)) ∧ Completes .iny s (InY (up y)) ∧
    Completes .dex s (InX (down x)) ∧ Completes .dey s (InY (down y))

/-! ### Loads, stores, comparison, bit test -/

/-- LDA, LDX and LDY for every operand form: the operand is in the register, Z and N follow it, AH stays at width 8 and XH, YH are
0x00, and all else is unchanged (44_load_store R190 to R192, R197). The widths mW and xW of this and of every other statement are
8 bits where P.M or P.X is 1, and 16 where it is 0 (00_scope R10); a register at a width is its low bits; an operand is the
immediate's value, or the little-endian value at the effective address, read after the pointer (30_encoding R96, R98). -/
def Obligations.LoadResults : Prop :=
  ∀ (o : Operand) (s : State),
    let vm := (readOperand o (mW s) s).1
    let vx := (readOperand o (xW s) s).1
    (mW s).bits = (if s.P.M then 8 else 16) ∧ (xW s).bits = (if s.P.X then 8 else 16) ∧
    (∀ w : Width, (acc w s).toNat = s.A.toNat % 2 ^ w.bits ∧ (xr w s).toNat = s.X.toNat % 2 ^ w.bits ∧
      (yr w s).toNat = s.Y.toNat % 2 ^ w.bits) ∧
    (∀ (b : Byte) (v : Word), (readOperand (.imm (.byte b)) .w8 s).1.toNat = b.toNat ∧
      (readOperand (.imm (.word v)) .w16 s).1 = v) ∧
    (∀ (m : Mode) (w : Width), readOperand (.mem m) w s = readMem m w s ∧
      let ea := (effectiveAddr m s).1
      let u := (effectiveAddr m s).2
      (readMem m w s).1.toNat = match w with
        | .w8 => (busValue ea.addr u).toNat
        | .w16 => (busValue ea.addr u).toNat + 256 * (busValue (nextEa ea).addr u).toNat) ∧
    (Completes (.lda o) s fun t =>
      acc (mW s) t = vm ∧ KeepsHigh (mW s) s t ∧ FollowsZN (mW s) vm.toNat t.P ∧ SameMemory s t ∧
      Reads { s with A := t.A, P := { s.P with N := t.P.N, Z := t.P.Z } } t) ∧
    (Completes (.ldx o) s fun t =>
      t.X = vx ∧ FollowsZN (xW s) vx.toNat t.P ∧ SameMemory s t ∧
      Reads { s with X := t.X, P := { s.P with N := t.P.N, Z := t.P.Z } } t) ∧
    (Completes (.ldy o) s fun t =>
      t.Y = vx ∧ FollowsZN (xW s) vx.toNat t.P ∧ SameMemory s t ∧
      Reads { s with Y := t.Y, P := { s.P with N := t.P.N, Z := t.P.Z } } t)

/-- STA, STX, STY and STZ in every mode: the register's value is at the effective address, no flag and no register changes, and
every byte outside the stored bytes reads as before; the record has the writes after the reads of the pointer and nothing else
(44_load_store R193 to R197, 20_memory R70). -/
def Obligations.StoreResults : Prop :=
  ∀ (m : Mode) (s : State),
    let ea := (effectiveAddr m s).1
    let Result := fun (w : Width) (v : Nat) (t : State) =>
      memoryValue w t ea = v ∧ StoreRecord w m s t ∧ Stores (storedAt w ea) s t
    Completes (.sta m) s (Result (mW s) (acc (mW s) s).toNat) ∧
    Completes (.stx m) s (Result (xW s) (xr (xW s) s).toNat) ∧
    Completes (.sty m) s (Result (xW s) (yr (xW s) s).toNat) ∧
    Completes (.stz m) s (Result (mW s) 0)

/-- CMP, CPX and CPY for every operand form: C is "register >= operand" of unsigned numbers, Z and N come from the wrapped
difference, and no register and no other flag changes (45_compare R210 to R213). -/
def Obligations.CompareResults : Prop :=
  ∀ (o : Operand) (s : State),
    let Result := fun (w : Width) (g : Word) (t : State) =>
      let b := (readOperand o w s).1.toNat
      t.P.C = decide (b ≤ g.toNat) ∧ t.P.Z = decide (g.toNat = b) ∧
      t.P.N = signOf w (g.toNat + 2 ^ w.bits - b) ∧ SameMemory s t ∧
      Reads { s with P := { s.P with N := t.P.N, Z := t.P.Z, C := t.P.C } } t
    Completes (.cmp o) s (Result (mW s) (acc (mW s) s)) ∧
    Completes (.cpx o) s (Result (xW s) (xr (xW s) s)) ∧
    Completes (.cpy o) s (Result (xW s) (yr (xW s) s))

/-- BIT in memory: N and V are the operand's top two bits, whatever the accumulator holds; Z is from the AND; the immediate form
writes Z alone; nothing else changes (46_bit_test R220, R221). -/
def Obligations.BitResults : Prop :=
  ∀ (m : Mode) (v : Imm) (s : State),
    let w := mW s
    let b := (readMem m w s).1
    (Completes (.bit m) s fun t =>
      t.P.Z = decide (acc w s &&& b = 0) ∧ t.P.N = b.getLsbD (w.bits - 1) ∧ t.P.V = b.getLsbD (w.bits - 2) ∧
      SameMemory s t ∧ Reads { s with P := { s.P with N := t.P.N, V := t.P.V, Z := t.P.Z } } t) ∧
    (Completes (.bitImm v) s fun t =>
      t.P.Z = decide (acc w s &&& (readOperand (.imm v) w s).1 = 0) ∧ SameMemory s t ∧
      t = { s with P := { s.P with Z := t.P.Z } })

/-- TSB and TRB: Z is from the AND before the write, the accumulator's bits are set or cleared in memory, the cycle unit is added,
one read of the place and then one write of it is recorded, and nothing else changes (46_bit_test R222, R223, 20_memory R70). -/
def Obligations.TestAndModifyResults : Prop :=
  ∀ (m : Mode) (s : State),
    let w := mW s
    let ea := (effectiveAddr m s).1
    let v := (readMem m w s).1
    let a := acc w s
    let Result := fun (r : Word) (t : State) =>
      t.P.Z = decide (a &&& v = 0) ∧ memoryValue w t ea = r.toNat ∧ t.cycles = s.cycles + oneUnit ∧ ModifyRecord w m s t ∧
      Stores (storedAt w ea) { s with P := { s.P with Z := t.P.Z }, cycles := t.cycles } t
    Completes (.tsb m) s (Result (v ||| a)) ∧ Completes (.trb m) s (Result (v &&& ~~~a))

/-! ### Control transfer -/

/-- The relative branches and BRL: the condition, the target (PC is past the instruction) modulo 2^16 in the same bank, and
nothing but PC changes (47_control R230 to R240, 30_encoding R110). -/
def Obligations.BranchResults : Prop :=
  ∀ (r8 : Byte) (r16 : Word) (s : State),
    let Goes := fun (cond : Bool) (disp : Int) (t : State) =>
      (t.PC.toNat : Int) = (if cond then ((s.PC.toNat : Int) + disp) % 65536 else s.PC.toNat) ∧ SameMemory s t ∧
      t = { s with PC := t.PC }
    Completes (.bpl r8) s (Goes (!s.P.N) r8.toInt) ∧ Completes (.bmi r8) s (Goes s.P.N r8.toInt) ∧
    Completes (.bvc r8) s (Goes (!s.P.V) r8.toInt) ∧ Completes (.bvs r8) s (Goes s.P.V r8.toInt) ∧
    Completes (.bcc r8) s (Goes (!s.P.C) r8.toInt) ∧ Completes (.bcs r8) s (Goes s.P.C r8.toInt) ∧
    Completes (.bne r8) s (Goes (!s.P.Z) r8.toInt) ∧ Completes (.beq r8) s (Goes s.P.Z r8.toInt) ∧
    Completes (.bra r8) s (Goes true r8.toInt) ∧ Completes (.brl r16) s (Goes true r16.toInt)

/-- The jumps: JMP a, JML al, and the three through pointers, with the bank and the wrap of each pointer
(47_control R241 to R245, 30_encoding R111 to R114). -/
def Obligations.JumpResults : Prop :=
  ∀ (a : Word) (al : Addr) (s : State),
    let in0 := fun k : Nat => (busValue (BitVec.ofNat 24 ((a.toNat + k) % 65536)) s).toNat
    let inPbr := fun k : Nat =>
      (busValue (BitVec.ofNat 24 (s.PBR.toNat * 65536 + (a.toNat + s.X.toNat + k) % 65536)) s).toNat
    (Completes (.jmpAbs a) s fun t => t = { s with PC := a }) ∧
    (Completes (.jmlLong al) s fun t =>
      t.PBR.toNat = al.toNat / 65536 ∧ t.PC.toNat = al.toNat % 65536 ∧ t = { s with PBR := t.PBR, PC := t.PC }) ∧
    (Completes (.jmpInd a) s fun t =>
      t.PC.toNat = in0 0 + 256 * in0 1 ∧ SameMemory s t ∧ Reads { s with PC := t.PC } t) ∧
    (Completes (.jmpIndX a) s fun t =>
      t.PC.toNat = inPbr 0 + 256 * inPbr 1 ∧ SameMemory s t ∧ Reads { s with PC := t.PC } t) ∧
    (Completes (.jmlInd a) s fun t =>
      t.PC.toNat = in0 0 + 256 * in0 1 ∧ t.PBR.toNat = in0 2 ∧ SameMemory s t ∧
      Reads { s with PBR := t.PBR, PC := t.PC } t)

/-- The calls: what is pushed (the address of the instruction's last byte, for JSL the program bank first), S, the target, and
the frame. JSR (a,X) reads its pointer after the push (47_control R246 to R248, 20_memory R74, R75). -/
def Obligations.CallResults : Prop :=
  ∀ (a : Word) (al : Addr) (s : State),
    let ret := s.PC - 1
    let two := [highByte ret, lowByte ret]
    let q := fun (mem : Memory) (k : Nat) =>
      busValue (BitVec.ofNat 24 (s.PBR.toNat * 65536 + (a.toNat + s.X.toNat + k) % 65536)) { s with mem := mem }
    (Completes (.jsrAbs a) s fun t =>
      Pushed .legacy two s t ∧ t.S = pushEnd .legacy 2 s ∧ t.PC = a ∧
      Stores (pushSlots .legacy 2 s) { s with S := t.S, PC := t.PC } t) ∧
    (Completes (.jsrIndX a) s fun t =>
      Pushed .wide two s t ∧ t.S = settled s (pushEnd .wide 2 s) ∧ t.PC = mkWord (q t.mem 1) (q t.mem 0) ∧
      Stores (pushSlots .wide 2 s) { s with S := t.S, PC := t.PC } t) ∧
    (Completes (.jsl al) s fun t =>
      Pushed .wide (s.PBR :: two) s t ∧ t.S = settled s (pushEnd .wide 3 s) ∧ t.PC = offsetOf al ∧ t.PBR = bankOf al ∧
      Stores (pushSlots .wide 3 s) { s with S := t.S, PC := t.PC, PBR := t.PBR } t)

/-- The returns: PC is the pulled word plus 1, RTL pulls the program bank too, and nothing else but S changes
(47_control R249, R250). -/
def Obligations.ReturnResults : Prop :=
  ∀ s : State,
    (Completes .rts s fun t =>
      (∃ lo hi, (pullSlots .legacy 2 s).map (fun a => busValue a s) = [lo, hi] ∧ t.PC = mkWord hi lo + 1) ∧
      t.S = pullEnd .legacy 2 s ∧ SameMemory s t ∧ Reads { s with S := t.S, PC := t.PC } t) ∧
    (Completes .rtl s fun t =>
      (∃ lo hi bank, (pullSlots .wide 3 s).map (fun a => busValue a s) = [lo, hi, bank] ∧ t.PC = mkWord hi lo + 1 ∧
        t.PBR = bank) ∧
      t.S = settled s (pullEnd .wide 3 s) ∧ SameMemory s t ∧ Reads { s with S := t.S, PC := t.PC, PBR := t.PBR } t)

/-- RTS undoes JSR: from every legal stack, a return right after the call continues after the call with S as it was, when the
platform holds no answer for bus reads (47_control R246, R249). -/
def Obligations.ReturnAfterCall : Prop :=
  ∀ (a : Word) (s t : State), s.answers = [] → (s.E = true → highByte s.S = 0x01) → exec (.jsrAbs a) s = .next t →
    Completes .rts t fun u => u.PC = s.PC ∧ u.S = s.S ∧ u.PBR = s.PBR ∧ u.A = s.A ∧ u.X = s.X ∧ u.Y = s.Y ∧ u.P = s.P

/-! ### Stack and transfers -/

/-- The pushes of the legacy stack rule: what is pushed, at the width of P.M or P.X or always one byte, S, and the frame: no
register but S and no flag changes (48_stack_transfer R260 to R265). -/
def Obligations.PushResults : Prop :=
  ∀ s : State,
    let Pushes := fun (bytes : List Byte) (t : State) =>
      Pushed .legacy bytes s t ∧ t.S = pushEnd .legacy bytes.length s ∧
      Stores (pushSlots .legacy bytes.length s) { s with S := t.S } t
    let bytesOf := fun (w : Width) (v : Word) => if w = .w8 then [lowByte v] else [highByte v, lowByte v]
    Completes .pha s (Pushes (bytesOf (mW s) s.A)) ∧
    Completes .phx s (Pushes (bytesOf (xW s) s.X)) ∧
    Completes .phy s (Pushes (bytesOf (xW s) s.Y)) ∧
    Completes .php s (Pushes [pushedP true s]) ∧
    Completes .phb s (Pushes [s.DBR]) ∧
    Completes .phk s (Pushes [s.PBR])

/-- PHD, PEA, PEI and PER push 16 bits, the high byte first, by the wide stack rule (48_stack_transfer R266 to R269, 20_memory
R75): D, the operand, the word at the direct address, PC plus the operand. -/
def Obligations.WidePushResults : Prop :=
  ∀ (v : Word) (d : Byte) (s : State),
    let Pushes := fun (x : Word) (t : State) =>
      Pushed .wide [highByte x, lowByte x] s t ∧ t.S = settled s (pushEnd .wide 2 s) ∧
      Stores (pushSlots .wide 2 s) { s with S := t.S } t
    Completes .phd s (Pushes s.D) ∧
    Completes (.pea v) s (Pushes v) ∧
    Completes (.pei d) s (Pushes (mkWord (busValue (directAddr (d.toNat + 1) false s).addr s)
      (busValue (directAddr d.toNat false s).addr s))) ∧
    Completes (.per v) s (Pushes (s.PC + v))

/-- PLA, PLX and PLY at the width of P.M or P.X: the pulled value, Z and N, S, and the frame (48_stack_transfer R270 to R272). -/
def Obligations.PullResults : Prop :=
  ∀ s : State,
    let IsPulled := fun (w : Width) (v : Word) =>
      (pullSlots .legacy (w.bits / 8) s).map (fun a => busValue a s) =
        if w = .w8 then [lowByte v] else [lowByte v, highByte v]
    (Completes .pla s fun t =>
      IsPulled (mW s) t.A ∧ KeepsHigh (mW s) s t ∧ FollowsZN (mW s) t.A.toNat t.P ∧
      t.S = pullEnd .legacy ((mW s).bits / 8) s ∧ SameMemory s t ∧
      Reads { s with A := t.A, S := t.S, P := { s.P with N := t.P.N, Z := t.P.Z } } t) ∧
    (Completes .plx s fun t =>
      IsPulled (xW s) t.X ∧ (xW s = .w8 → highByte t.X = 0x00) ∧ FollowsZN (xW s) t.X.toNat t.P ∧
      t.S = pullEnd .legacy ((xW s).bits / 8) s ∧ SameMemory s t ∧
      Reads { s with X := t.X, S := t.S, P := { s.P with N := t.P.N, Z := t.P.Z } } t) ∧
    (Completes .ply s fun t =>
      IsPulled (xW s) t.Y ∧ (xW s = .w8 → highByte t.Y = 0x00) ∧ FollowsZN (xW s) t.Y.toNat t.P ∧
      t.S = pullEnd .legacy ((xW s).bits / 8) s ∧ SameMemory s t ∧
      Reads { s with Y := t.Y, S := t.S, P := { s.P with N := t.P.N, Z := t.P.Z } } t)

/-- PLB and PLD: the pulled value, flags of 8 and of 16 bits whatever P.M is, S, and the frame (48_stack_transfer R274, R275). -/
def Obligations.PullBankAndDirect : Prop :=
  ∀ s : State,
    (Completes .plb s fun t =>
      (pullSlots .legacy 1 s).map (fun a => busValue a s) = [t.DBR] ∧ FollowsZN .w8 t.DBR.toNat t.P ∧
      t.S = pullEnd .legacy 1 s ∧ SameMemory s t ∧
      Reads { s with DBR := t.DBR, S := t.S, P := { s.P with N := t.P.N, Z := t.P.Z } } t) ∧
    (Completes .pld s fun t =>
      (pullSlots .wide 2 s).map (fun a => busValue a s) = [lowByte t.D, highByte t.D] ∧ FollowsZN .w16 t.D.toNat t.P ∧
      t.S = settled s (pullEnd .wide 2 s) ∧ SameMemory s t ∧
      Reads { s with D := t.D, S := t.S, P := { s.P with N := t.P.N, Z := t.P.Z } } t)

/-- PLP: in native mode P is the pulled byte; in emulation mode bits 5 and 4 are ignored and M and X stay 1; with X = 1 afterwards
XH and YH are 0x00, and with X = 0 the index registers are unchanged; nothing else but S changes (48_stack_transfer R273). -/
def Obligations.PullStatusResults : Prop :=
  ∀ s : State, Completes .plp s fun t =>
    (∃ v, (pullSlots .legacy 1 s).map (fun a => busValue a s) = [v] ∧
      t.P = if s.E then { unpackP v with M := true, X := true } else unpackP v) ∧
    t.X = (if t.P.X then zext (lowByte s.X) else s.X) ∧ t.Y = (if t.P.X then zext (lowByte s.Y) else s.Y) ∧
    t.S = pullEnd .legacy 1 s ∧ SameMemory s t ∧ Reads { s with P := t.P, X := t.X, Y := t.Y, S := t.S } t

/-- The transfers between A, X, Y and from S to X, at the width of the destination, with Z and N
(48_stack_transfer R276 to R282). -/
def Obligations.IndexTransferResults : Prop :=
  ∀ s : State,
    let ToX := fun (v : Word) (t : State) =>
      t.X.toNat = v.toNat % 2 ^ (xW s).bits ∧ FollowsZN (xW s) v.toNat t.P ∧
      t = { s with X := t.X, P := { s.P with N := t.P.N, Z := t.P.Z } }
    let ToY := fun (v : Word) (t : State) =>
      t.Y.toNat = v.toNat % 2 ^ (xW s).bits ∧ FollowsZN (xW s) v.toNat t.P ∧
      t = { s with Y := t.Y, P := { s.P with N := t.P.N, Z := t.P.Z } }
    let ToA := fun (v : Word) (t : State) =>
      (acc (mW s) t).toNat = v.toNat % 2 ^ (mW s).bits ∧ KeepsHigh (mW s) s t ∧ FollowsZN (mW s) v.toNat t.P ∧
      t = { s with A := t.A, P := { s.P with N := t.P.N, Z := t.P.Z } }
    Completes .tax s (ToX s.A) ∧ Completes .tay s (ToY s.A) ∧ Completes .txa s (ToA s.X) ∧ Completes .tya s (ToA s.Y) ∧
    Completes .txy s (ToY s.X) ∧ Completes .tyx s (ToX s.Y) ∧ Completes .tsx s (ToX s.S)

/-- The 16-bit transfers TXS, TCS, TSC, TCD, TDC and XBA: what is copied whatever P.M is, SH in emulation mode, and the flags of
those that set them (48_stack_transfer R283 to R288). -/
def Obligations.WordTransferResults : Prop :=
  ∀ s : State,
    let stack := fun v : Word => if s.E then 256 + v.toNat % 256 else v.toNat
    (Completes .txs s fun t => t.S.toNat = stack s.X ∧ t = { s with S := t.S }) ∧
    (Completes .tcs s fun t => t.S.toNat = stack s.A ∧ t = { s with S := t.S }) ∧
    (Completes .tsc s fun t =>
      t.A = s.S ∧ FollowsZN .w16 s.S.toNat t.P ∧ t = { s with A := t.A, P := { s.P with N := t.P.N, Z := t.P.Z } }) ∧
    (Completes .tcd s fun t =>
      t.D = s.A ∧ FollowsZN .w16 s.A.toNat t.P ∧ t = { s with D := t.D, P := { s.P with N := t.P.N, Z := t.P.Z } }) ∧
    (Completes .tdc s fun t =>
      t.A = s.D ∧ FollowsZN .w16 s.D.toNat t.P ∧ t = { s with A := t.A, P := { s.P with N := t.P.N, Z := t.P.Z } }) ∧
    (Completes .xba s fun t =>
      lowByte t.A = highByte s.A ∧ highByte t.A = lowByte s.A ∧ FollowsZN .w8 (highByte s.A).toNat t.P ∧
      t = { s with A := t.A, P := { s.P with N := t.P.N, Z := t.P.Z } })

/-! ### Flags, modes, block moves, power, traps -/

/-- CLC, SEC, CLI, SEI, CLD, SED and CLV change their flag alone; NOP and WDM change nothing; WAI and STP enter the waiting and
the stopped state and change nothing else (49_system R290 to R296, R300, R301, R305, R306). -/
def Obligations.FlagAndPowerResults : Prop :=
  ∀ (sig : Byte) (s : State),
    (Completes .clc s fun t => t = { s with P := { s.P with C := false } }) ∧
    (Completes .sec s fun t => t = { s with P := { s.P with C := true } }) ∧
    (Completes .cli s fun t => t = { s with P := { s.P with I := false } }) ∧
    (Completes .sei s fun t => t = { s with P := { s.P with I := true } }) ∧
    (Completes .cld s fun t => t = { s with P := { s.P with D := false } }) ∧
    (Completes .sed s fun t => t = { s with P := { s.P with D := true } }) ∧
    (Completes .clv s fun t => t = { s with P := { s.P with V := false } }) ∧
    (Completes .nop s fun t => t = s) ∧ (Completes (.wdm sig) s fun t => t = s) ∧
    (Completes .wai s fun t => t = { s with waiting := true }) ∧
    (Completes .stp s fun t => t = { s with stopped := true })

/-- REP and SEP: bit by bit of the operand, P's bits are cleared or set; in emulation mode REP leaves M and X at 1; SEP clears XH
and YH when X is 1 afterwards; nothing else changes (49_system R297, R298). -/
def Obligations.RepSepResults : Prop :=
  ∀ (k : Byte) (s : State),
    (Completes (.rep k) s fun t =>
      t = { s with P := t.P } ∧
      ∀ b < 8, (packP t.P).getLsbD b = if s.E = true ∧ (b = 5 ∨ b = 4) then true
        else (packP s.P).getLsbD b && !k.getLsbD b) ∧
    (Completes (.sep k) s fun t =>
      t = { s with P := t.P, X := t.X, Y := t.Y } ∧
      (∀ b < 8, (packP t.P).getLsbD b = ((packP s.P).getLsbD b || k.getLsbD b)) ∧
      t.X = (if t.P.X then zext (lowByte s.X) else s.X) ∧ t.Y = (if t.P.X then zext (lowByte s.Y) else s.Y))

/-- XCE exchanges carry and emulation bit; into emulation mode it forces M, X, XH, YH and SH, and nothing else changes
(49_system R299, 10_state R28). -/
def Obligations.ExchangeModeResults : Prop :=
  ∀ s : State,
    (s.P.C = false → Completes .xce s fun t => t = { s with E := false, P := { s.P with C := s.E } }) ∧
    (s.P.C = true → Completes .xce s fun t =>
      t = { s with E := true, P := { s.P with C := s.E, M := true, X := true }, X := t.X, Y := t.Y, S := t.S } ∧
      t.X.toNat = s.X.toNat % 256 ∧ t.Y.toNat = s.Y.toNat % 256 ∧ t.S.toNat = 256 + s.S.toNat % 256)

/-- MVN and MVP move one byte: where it is read and stored, DBR, the indexes modulo 2^xW, the count of 16 bits, and PC back at the
instruction unless the count has run out; no flag changes (49_system R302 to R304). -/
def Obligations.BlockMoveResults : Prop :=
  ∀ (dst src : Byte) (s : State),
    let n := 2 ^ (xW s).bits
    let Moves := fun (d : Nat) (t : State) =>
      byteAt t (mkAddr dst s.Y) = busValue (mkAddr src s.X) s ∧ t.DBR = dst ∧
      t.X.toNat = (s.X.toNat + d) % n ∧ t.Y.toNat = (s.Y.toNat + d) % n ∧
      t.A.toNat = (s.A.toNat + 65535) % 65536 ∧
      t.PC = (if s.A.toNat = 0 then s.PC else s.PC - 3) ∧
      Stores [mkAddr dst s.Y] { s with A := t.A, X := t.X, Y := t.Y, DBR := t.DBR, PC := t.PC } t
    Completes (.mvn dst src) s (Moves 1) ∧ Completes (.mvp dst src) s (Moves 65535)

/-- BRK and COP take their trap whatever P.I is: the entry sequence with PC, past the signature byte, as the return address,
through the vector of the kind and the mode, with B = 1 (49_system R307, R308, 60_exceptions R311, R318).
B = 1 in COP's frame is the decision of R308 (log 18); the order of the vector's two bytes is that of log 13. -/
def Obligations.TrapResults : Prop :=
  ∀ (sig : Byte) (s : State),
    Completes (.brk sig) s (EntersHandler (if s.E then 0xFFFE else 0xFFE6) true s.PC s) ∧
    Completes (.cop sig) s (EntersHandler (if s.E then 0xFFF4 else 0xFFE4) true s.PC s)

/-- RTI: P from the first pulled byte as PLP pulls it, PC from the next two, in native mode PBR from the fourth; nothing else but S
and, with X = 1, the high bytes of the index registers changes (49_system R309, 60_exceptions R320). -/
def Obligations.ReturnFromInterruptResults : Prop :=
  ∀ s : State, Completes .rti s fun t =>
    let n := if s.E then 3 else 4
    (∃ v lo hi bank, (pullSlots .legacy n s).map (fun a => busValue a s) = (if s.E then [v, lo, hi] else [v, lo, hi, bank]) ∧
      t.P = (if s.E then { unpackP v with M := true, X := true } else unpackP v) ∧
      t.PC = mkWord hi lo ∧ t.PBR = (if s.E then s.PBR else bank)) ∧
    t.X = (if t.P.X then zext (lowByte s.X) else s.X) ∧ t.Y = (if t.P.X then zext (lowByte s.Y) else s.Y) ∧
    t.S = pullEnd .legacy n s ∧ SameMemory s t ∧
    Reads { s with P := t.P, X := t.X, Y := t.Y, S := t.S, PC := t.PC, PBR := t.PBR } t

/-- RTI undoes an entry: from every legal state, an RTI right after the entry sequence gives back P, PC and S, and in native mode
PBR; in emulation mode PBR is 0 (60_exceptions R318, R320). The platform holds no answer for bus reads. -/
def Obligations.ReturnUndoesEntry : Prop :=
  ∀ (kind : Exception) (ret : Word) (s : State), s.Inv → s.answers = [] →
    let t := returnFromException (takeException kind ret s)
    t.P = s.P ∧ t.PC = ret ∧ t.S = s.S ∧ t.PBR = (if s.E then 0x00 else s.PBR) ∧
    t.A = s.A ∧ t.X = s.X ∧ t.Y = s.Y ∧ t.D = s.D ∧ t.DBR = s.DBR ∧ t.E = s.E

/-! ### Rules over all instructions -/

/-- Which instructions may write a register, by the column "written by" of 10_state R44 with R23 and R28: every other instruction
leaves it as it was; PC, which the fetch has already moved, is changed by the control transfers, the block moves and the traps alone.
WAI and STP alone enter their states, and no instruction writes the NMI latch or uses up an input. -/
def Obligations.RegisterWriters : Prop :=
  ∀ (i : Instr) (s t : State), exec i s = .next t →
    (t.A ≠ s.A → mayWriteA i = true) ∧ (t.X ≠ s.X → mayWriteX i = true) ∧ (t.Y ≠ s.Y → mayWriteY i = true) ∧
    (t.S ≠ s.S → mayWriteS i = true) ∧ (t.D ≠ s.D → mayWriteD i = true) ∧ (t.DBR ≠ s.DBR → mayWriteDBR i = true) ∧
    (t.PBR ≠ s.PBR → mayWritePBR i = true) ∧ (t.PC ≠ s.PC → mayWritePC i = true) ∧
    (t.E ≠ s.E → i = .xce) ∧
    (t.waiting ≠ s.waiting → i = .wai) ∧ (t.stopped ≠ s.stopped → i = .stp) ∧
    t.nmiPending = s.nmiPending ∧ t.inputs = s.inputs

/-- Which instructions may write each flag of P (10_state R30 to R37): every other instruction leaves it as it was. -/
def Obligations.FlagWriters : Prop :=
  ∀ (i : Instr) (s t : State), exec i s = .next t →
    (t.P.N ≠ s.P.N → mayWriteN i = true) ∧ (t.P.V ≠ s.P.V → mayWriteV i = true) ∧
    (t.P.M ≠ s.P.M → mayWriteWidth i = true) ∧ (t.P.X ≠ s.P.X → mayWriteWidth i = true) ∧
    (t.P.D ≠ s.P.D → mayWriteDecimal i = true) ∧ (t.P.I ≠ s.P.I → mayWriteI i = true) ∧
    (t.P.Z ≠ s.P.Z → mayWriteZ i = true) ∧ (t.P.C ≠ s.P.C → mayWriteC i = true)

/-- The only timing of the core: Cycles grows by ONE_CYCLE, in a variable-cycle build, in ASL, LSR, ROL, ROR, INC, DEC, TSB and
TRB; no other instruction, no interrupt entry and no reset adds (70_reset_and_hazards R352). -/
def Obligations.CycleCounterRule : Prop :=
  (∀ (i : Instr) (s t : State), exec i s = .next t →
    t.cycles = s.cycles +
      match i with
      | .asl _ | .lsr _ | .rol _ | .ror _ | .inc _ | .dec _ | .tsb _ | .trb _ => oneUnit
      | _ => 0) ∧
  (∀ (kind : Exception) (ret : Word) (s : State), (takeException kind ret s).cycles = s.cycles) ∧
  ∀ s : State, (resetSequence s).cycles = s.cycles
end

