-- ==== Sys2Proof/Laws/Memory.lean ====
section
/-! SUPPORT. Memory: a read after a write, and the canonical form. -/

namespace Sys2Proof.Machine

@[simp] theorem Memory.read_nil (a : Nat) : Memory.read [] a = unlistedByte := rfl

theorem Memory.read_insert_same (m : Memory) (a : Nat) (v : Byte) (h : ∀ c ∈ m, c.1 ≠ a) :
    Memory.read (Memory.insert m a v) a = v := by
  induction m with
  | nil => simp [Memory.insert, Memory.read]
  | cons c rest ih =>
    have hc := h c (by simp)
    have hr := ih fun c' hc' => h c' (by simp [hc'])
    unfold Memory.insert
    split <;> simp [Memory.read, hc, hr]

theorem Memory.read_insert_other (m : Memory) (a b : Nat) (v : Byte) (hab : b ≠ a) :
    Memory.read (Memory.insert m a v) b = Memory.read m b := by
  induction m with
  | nil => simp [Memory.insert, Memory.read, Ne.symm hab]
  | cons c rest ih =>
    unfold Memory.insert
    split
    · simp [Memory.read, Ne.symm hab]
    · simp [Memory.read, ih]

theorem Memory.read_filter_same (m : Memory) (a : Nat) :
    Memory.read (m.filter fun c => c.1 ≠ a) a = unlistedByte := by
  induction m with
  | nil => rfl
  | cons c rest ih =>
    by_cases hc : c.1 = a
    · simpa [hc] using ih
    · simp only [List.filter_cons, ne_eq, hc, not_false_eq_true, decide_true, ↓reduceIte, Memory.read]
      simpa using ih

theorem Memory.read_filter_other (m : Memory) (a b : Nat) (hab : b ≠ a) :
    Memory.read (m.filter fun c => c.1 ≠ a) b = Memory.read m b := by
  induction m with
  | nil => rfl
  | cons c rest ih =>
    by_cases hc : c.1 = a
    · have hcb : c.1 ≠ b := fun h => hab (h.symm.trans hc)
      have ha : ¬ a = b := fun h => hab h.symm
      simp only [List.filter_cons, hc, ne_eq, not_true_eq_false, decide_false, Bool.false_eq_true, ↓reduceIte, Memory.read, ha]
      simpa using ih
    · simp only [List.filter_cons, ne_eq, hc, not_false_eq_true, decide_true, ↓reduceIte, Memory.read]
      simp only [ne_eq] at ih
      rw [ih]

/-- A read of the byte just written gives it. -/
@[simp] theorem Memory.read_write_same (m : Memory) (a : Nat) (v : Byte) : (m.write a v).read a = v := by
  unfold Memory.write
  by_cases hv : v = unlistedByte
  · rw [if_pos hv, hv]; exact Memory.read_filter_same m a
  · rw [if_neg hv]
    exact Memory.read_insert_same _ _ _ (by simp)

/-- A write leaves every other byte as it was. -/
theorem Memory.read_write_other (m : Memory) (a b : Nat) (v : Byte) (hab : b ≠ a) : (m.write a v).read b = m.read b := by
  unfold Memory.write
  by_cases hv : v = unlistedByte
  · rw [if_pos hv]; exact Memory.read_filter_other m a b hab
  · rw [if_neg hv]
    exact (Memory.read_insert_other _ _ _ _ hab).trans (Memory.read_filter_other m a b hab)

/-- A byte after a write, in one formula. -/
theorem Memory.read_write (m : Memory) (a b : Nat) (v : Byte) : (m.write a v).read b = if b = a then v else m.read b := by
  by_cases h : b = a
  · simp [h]
  · rw [if_neg h, Memory.read_write_other m a b v h]

theorem Memory.mem_insert (m : Memory) (a : Nat) (v : Byte) (c : Host.Cell) :
    c ∈ Memory.insert m a v ↔ c = (a, v) ∨ c ∈ m := by
  induction m with
  | nil => simp [Memory.insert]
  | cons d rest ih =>
    unfold Memory.insert
    split
    · simp
    · simp [ih, or_left_comm]

theorem Memory.insert_sorted (m : Memory) (a : Nat) (v : Byte) (hs : m.Pairwise fun c c' => c.1 < c'.1)
    (h : ∀ c ∈ m, c.1 ≠ a) : (Memory.insert m a v).Pairwise fun c c' => c.1 < c'.1 := by
  induction m with
  | nil => simp [Memory.insert]
  | cons d rest ih =>
    have hd := h d (by simp)
    rw [List.pairwise_cons] at hs
    unfold Memory.insert
    split
    · rename_i had
      rw [List.pairwise_cons, List.pairwise_cons]
      refine ⟨fun c hc => ?_, hs.1, hs.2⟩
      rcases List.mem_cons.1 hc with rfl | hc
      · exact had
      · exact Nat.lt_trans had (hs.1 c hc)
    · rename_i had
      rw [List.pairwise_cons]
      refine ⟨fun c hc => ?_, ih hs.2 fun c hc => h c (by simp [hc])⟩
      rcases (Memory.mem_insert _ _ _ _).1 hc with rfl | hc
      · exact Nat.lt_of_le_of_ne (Nat.le_of_not_lt had) hd
      · exact hs.1 c hc

/-- A write keeps the canonical form. -/
theorem Memory.write_wf (m : Memory) (a : Nat) (v : Byte) (ha : a < 2 ^ 24) (h : m.wf) : (m.write a v).wf := by
  obtain ⟨hs, hc⟩ := h
  have hf : (m.filter fun c => c.1 ≠ a).Pairwise fun c c' => c.1 < c'.1 := hs.filter _
  unfold Memory.write
  by_cases hv : v = unlistedByte
  · rw [if_pos hv]
    exact ⟨hf, fun c hm => hc c (List.mem_of_mem_filter hm)⟩
  · rw [if_neg hv]
    refine ⟨Memory.insert_sorted _ _ _ hf (by simp), fun c hm => ?_⟩
    rcases (Memory.mem_insert _ _ _ _).1 hm with rfl | hm
    · exact ⟨ha, hv⟩
    · exact hc c (List.mem_of_mem_filter hm)

theorem placeBytes_wf (bank : Byte) (bytes : List Byte) : ∀ (offset : Word) (m : Memory), m.wf →
    Memory.wf (placeBytes bank offset bytes m) := by
  induction bytes with
  | nil => intro offset m h; exact h
  | cons b rest ih =>
    intro offset m h
    exact ih _ _ (Memory.write_wf _ _ _ (mkAddr bank offset).isLt h)

end Sys2Proof.Machine
end

