-- ==== Sys2Proof/Laws/State.lean ====
section
/-! SUPPORT. One lemma for each field under each update of the state. -/

namespace Sys2Proof.Machine

/-! ### record -/

@[simp] theorem record_A (e : BusEvent) (s : State) : (record e s).A = s.A := rfl
@[simp] theorem record_X (e : BusEvent) (s : State) : (record e s).X = s.X := rfl
@[simp] theorem record_Y (e : BusEvent) (s : State) : (record e s).Y = s.Y := rfl
@[simp] theorem record_S (e : BusEvent) (s : State) : (record e s).S = s.S := rfl
@[simp] theorem record_D (e : BusEvent) (s : State) : (record e s).D = s.D := rfl
@[simp] theorem record_DBR (e : BusEvent) (s : State) : (record e s).DBR = s.DBR := rfl
@[simp] theorem record_PBR (e : BusEvent) (s : State) : (record e s).PBR = s.PBR := rfl
@[simp] theorem record_PC (e : BusEvent) (s : State) : (record e s).PC = s.PC := rfl
@[simp] theorem record_P (e : BusEvent) (s : State) : (record e s).P = s.P := rfl
@[simp] theorem record_E (e : BusEvent) (s : State) : (record e s).E = s.E := rfl
@[simp] theorem record_cycles (e : BusEvent) (s : State) : (record e s).cycles = s.cycles := rfl
@[simp] theorem record_waitAddress (e : BusEvent) (s : State) : (record e s).waitAddress = s.waitAddress := rfl
@[simp] theorem record_nmiPending (e : BusEvent) (s : State) : (record e s).nmiPending = s.nmiPending := rfl
@[simp] theorem record_waiting (e : BusEvent) (s : State) : (record e s).waiting = s.waiting := rfl
@[simp] theorem record_stopped (e : BusEvent) (s : State) : (record e s).stopped = s.stopped := rfl
@[simp] theorem record_mem (e : BusEvent) (s : State) : (record e s).mem = s.mem := rfl
@[simp] theorem record_events (e : BusEvent) (s : State) : (record e s).events = e :: s.events := rfl
@[simp] theorem record_answers (e : BusEvent) (s : State) : (record e s).answers = s.answers := rfl
@[simp] theorem record_inputs (e : BusEvent) (s : State) : (record e s).inputs = s.inputs := rfl
@[simp] theorem record_draws (e : BusEvent) (s : State) : (record e s).draws = s.draws := rfl

/-! ### poke -/

@[simp] theorem poke_A (a : Addr) (v : Byte) (s : State) : (poke a v s).A = s.A := rfl
@[simp] theorem poke_X (a : Addr) (v : Byte) (s : State) : (poke a v s).X = s.X := rfl
@[simp] theorem poke_Y (a : Addr) (v : Byte) (s : State) : (poke a v s).Y = s.Y := rfl
@[simp] theorem poke_S (a : Addr) (v : Byte) (s : State) : (poke a v s).S = s.S := rfl
@[simp] theorem poke_D (a : Addr) (v : Byte) (s : State) : (poke a v s).D = s.D := rfl
@[simp] theorem poke_DBR (a : Addr) (v : Byte) (s : State) : (poke a v s).DBR = s.DBR := rfl
@[simp] theorem poke_PBR (a : Addr) (v : Byte) (s : State) : (poke a v s).PBR = s.PBR := rfl
@[simp] theorem poke_PC (a : Addr) (v : Byte) (s : State) : (poke a v s).PC = s.PC := rfl
@[simp] theorem poke_P (a : Addr) (v : Byte) (s : State) : (poke a v s).P = s.P := rfl
@[simp] theorem poke_E (a : Addr) (v : Byte) (s : State) : (poke a v s).E = s.E := rfl
@[simp] theorem poke_cycles (a : Addr) (v : Byte) (s : State) : (poke a v s).cycles = s.cycles := rfl
@[simp] theorem poke_waitAddress (a : Addr) (v : Byte) (s : State) : (poke a v s).waitAddress = s.waitAddress := rfl
@[simp] theorem poke_nmiPending (a : Addr) (v : Byte) (s : State) : (poke a v s).nmiPending = s.nmiPending := rfl
@[simp] theorem poke_waiting (a : Addr) (v : Byte) (s : State) : (poke a v s).waiting = s.waiting := rfl
@[simp] theorem poke_stopped (a : Addr) (v : Byte) (s : State) : (poke a v s).stopped = s.stopped := rfl
@[simp] theorem poke_mem (a : Addr) (v : Byte) (s : State) : (poke a v s).mem = s.mem.write a.toNat v := rfl
@[simp] theorem poke_events (a : Addr) (v : Byte) (s : State) : (poke a v s).events = s.events := rfl
@[simp] theorem poke_answers (a : Addr) (v : Byte) (s : State) : (poke a v s).answers = s.answers := rfl
@[simp] theorem poke_inputs (a : Addr) (v : Byte) (s : State) : (poke a v s).inputs = s.inputs := rfl
@[simp] theorem poke_draws (a : Addr) (v : Byte) (s : State) : (poke a v s).draws = s.draws := rfl

/-! ### recordWord -/

@[simp] theorem recordWord_A (lo hi : BusEvent) (s : State) : (recordWord lo hi s).A = s.A := rfl
@[simp] theorem recordWord_X (lo hi : BusEvent) (s : State) : (recordWord lo hi s).X = s.X := rfl
@[simp] theorem recordWord_Y (lo hi : BusEvent) (s : State) : (recordWord lo hi s).Y = s.Y := rfl
@[simp] theorem recordWord_S (lo hi : BusEvent) (s : State) : (recordWord lo hi s).S = s.S := rfl
@[simp] theorem recordWord_D (lo hi : BusEvent) (s : State) : (recordWord lo hi s).D = s.D := rfl
@[simp] theorem recordWord_DBR (lo hi : BusEvent) (s : State) : (recordWord lo hi s).DBR = s.DBR := rfl
@[simp] theorem recordWord_PBR (lo hi : BusEvent) (s : State) : (recordWord lo hi s).PBR = s.PBR := rfl
@[simp] theorem recordWord_PC (lo hi : BusEvent) (s : State) : (recordWord lo hi s).PC = s.PC := rfl
@[simp] theorem recordWord_P (lo hi : BusEvent) (s : State) : (recordWord lo hi s).P = s.P := rfl
@[simp] theorem recordWord_E (lo hi : BusEvent) (s : State) : (recordWord lo hi s).E = s.E := rfl
@[simp] theorem recordWord_cycles (lo hi : BusEvent) (s : State) : (recordWord lo hi s).cycles = s.cycles := rfl
@[simp] theorem recordWord_waitAddress (lo hi : BusEvent) (s : State) :
    (recordWord lo hi s).waitAddress = s.waitAddress := rfl
@[simp] theorem recordWord_nmiPending (lo hi : BusEvent) (s : State) : (recordWord lo hi s).nmiPending = s.nmiPending := rfl
@[simp] theorem recordWord_waiting (lo hi : BusEvent) (s : State) : (recordWord lo hi s).waiting = s.waiting := rfl
@[simp] theorem recordWord_stopped (lo hi : BusEvent) (s : State) : (recordWord lo hi s).stopped = s.stopped := rfl
@[simp] theorem recordWord_mem (lo hi : BusEvent) (s : State) : (recordWord lo hi s).mem = s.mem := rfl
@[simp] theorem recordWord_answers (lo hi : BusEvent) (s : State) : (recordWord lo hi s).answers = s.answers := rfl
@[simp] theorem recordWord_inputs (lo hi : BusEvent) (s : State) : (recordWord lo hi s).inputs = s.inputs := rfl
@[simp] theorem recordWord_draws (lo hi : BusEvent) (s : State) : (recordWord lo hi s).draws = s.draws := rfl

/-! ### sense -/

@[simp] theorem sense_A (a : Addr) (s : State) : ((sense a s).2).A = s.A := rfl
@[simp] theorem sense_X (a : Addr) (s : State) : ((sense a s).2).X = s.X := rfl
@[simp] theorem sense_Y (a : Addr) (s : State) : ((sense a s).2).Y = s.Y := rfl
@[simp] theorem sense_S (a : Addr) (s : State) : ((sense a s).2).S = s.S := rfl
@[simp] theorem sense_D (a : Addr) (s : State) : ((sense a s).2).D = s.D := rfl
@[simp] theorem sense_DBR (a : Addr) (s : State) : ((sense a s).2).DBR = s.DBR := rfl
@[simp] theorem sense_PBR (a : Addr) (s : State) : ((sense a s).2).PBR = s.PBR := rfl
@[simp] theorem sense_PC (a : Addr) (s : State) : ((sense a s).2).PC = s.PC := rfl
@[simp] theorem sense_P (a : Addr) (s : State) : ((sense a s).2).P = s.P := rfl
@[simp] theorem sense_E (a : Addr) (s : State) : ((sense a s).2).E = s.E := rfl
@[simp] theorem sense_cycles (a : Addr) (s : State) : ((sense a s).2).cycles = s.cycles := rfl
@[simp] theorem sense_waitAddress (a : Addr) (s : State) : ((sense a s).2).waitAddress = s.waitAddress := rfl
@[simp] theorem sense_nmiPending (a : Addr) (s : State) : ((sense a s).2).nmiPending = s.nmiPending := rfl
@[simp] theorem sense_waiting (a : Addr) (s : State) : ((sense a s).2).waiting = s.waiting := rfl
@[simp] theorem sense_stopped (a : Addr) (s : State) : ((sense a s).2).stopped = s.stopped := rfl
@[simp] theorem sense_mem (a : Addr) (s : State) : ((sense a s).2).mem = s.mem := rfl
@[simp] theorem sense_events (a : Addr) (s : State) : ((sense a s).2).events = s.events := rfl
@[simp] theorem sense_answers (a : Addr) (s : State) : ((sense a s).2).answers = dropAnswer s.answers a.toNat := rfl
@[simp] theorem sense_inputs (a : Addr) (s : State) : ((sense a s).2).inputs = s.inputs := rfl
@[simp] theorem sense_draws (a : Addr) (s : State) : ((sense a s).2).draws = s.draws := rfl

/-! ### busRead -/

@[simp] theorem busRead_A (a : Addr) (s : State) : ((busRead a s).2).A = s.A := rfl
@[simp] theorem busRead_X (a : Addr) (s : State) : ((busRead a s).2).X = s.X := rfl
@[simp] theorem busRead_Y (a : Addr) (s : State) : ((busRead a s).2).Y = s.Y := rfl
@[simp] theorem busRead_S (a : Addr) (s : State) : ((busRead a s).2).S = s.S := rfl
@[simp] theorem busRead_D (a : Addr) (s : State) : ((busRead a s).2).D = s.D := rfl
@[simp] theorem busRead_DBR (a : Addr) (s : State) : ((busRead a s).2).DBR = s.DBR := rfl
@[simp] theorem busRead_PBR (a : Addr) (s : State) : ((busRead a s).2).PBR = s.PBR := rfl
@[simp] theorem busRead_PC (a : Addr) (s : State) : ((busRead a s).2).PC = s.PC := rfl
@[simp] theorem busRead_P (a : Addr) (s : State) : ((busRead a s).2).P = s.P := rfl
@[simp] theorem busRead_E (a : Addr) (s : State) : ((busRead a s).2).E = s.E := rfl
@[simp] theorem busRead_cycles (a : Addr) (s : State) : ((busRead a s).2).cycles = s.cycles := rfl
@[simp] theorem busRead_waitAddress (a : Addr) (s : State) : ((busRead a s).2).waitAddress = s.waitAddress := rfl
@[simp] theorem busRead_nmiPending (a : Addr) (s : State) : ((busRead a s).2).nmiPending = s.nmiPending := rfl
@[simp] theorem busRead_waiting (a : Addr) (s : State) : ((busRead a s).2).waiting = s.waiting := rfl
@[simp] theorem busRead_stopped (a : Addr) (s : State) : ((busRead a s).2).stopped = s.stopped := rfl
@[simp] theorem busRead_mem (a : Addr) (s : State) : ((busRead a s).2).mem = s.mem := rfl
@[simp] theorem busRead_events (a : Addr) (s : State) :
    ((busRead a s).2).events = ⟨.read, a, busValue a s⟩ :: s.events := rfl
@[simp] theorem busRead_answers (a : Addr) (s : State) : ((busRead a s).2).answers = dropAnswer s.answers a.toNat := rfl
@[simp] theorem busRead_inputs (a : Addr) (s : State) : ((busRead a s).2).inputs = s.inputs := rfl
@[simp] theorem busRead_draws (a : Addr) (s : State) : ((busRead a s).2).draws = s.draws := rfl

/-! ### busWrite -/

@[simp] theorem busWrite_A (a : Addr) (v : Byte) (s : State) : (busWrite a v s).A = s.A := rfl
@[simp] theorem busWrite_X (a : Addr) (v : Byte) (s : State) : (busWrite a v s).X = s.X := rfl
@[simp] theorem busWrite_Y (a : Addr) (v : Byte) (s : State) : (busWrite a v s).Y = s.Y := rfl
@[simp] theorem busWrite_S (a : Addr) (v : Byte) (s : State) : (busWrite a v s).S = s.S := rfl
@[simp] theorem busWrite_D (a : Addr) (v : Byte) (s : State) : (busWrite a v s).D = s.D := rfl
@[simp] theorem busWrite_DBR (a : Addr) (v : Byte) (s : State) : (busWrite a v s).DBR = s.DBR := rfl
@[simp] theorem busWrite_PBR (a : Addr) (v : Byte) (s : State) : (busWrite a v s).PBR = s.PBR := rfl
@[simp] theorem busWrite_PC (a : Addr) (v : Byte) (s : State) : (busWrite a v s).PC = s.PC := rfl
@[simp] theorem busWrite_P (a : Addr) (v : Byte) (s : State) : (busWrite a v s).P = s.P := rfl
@[simp] theorem busWrite_E (a : Addr) (v : Byte) (s : State) : (busWrite a v s).E = s.E := rfl
@[simp] theorem busWrite_cycles (a : Addr) (v : Byte) (s : State) : (busWrite a v s).cycles = s.cycles := rfl
@[simp] theorem busWrite_waitAddress (a : Addr) (v : Byte) (s : State) : (busWrite a v s).waitAddress = s.waitAddress := rfl
@[simp] theorem busWrite_nmiPending (a : Addr) (v : Byte) (s : State) : (busWrite a v s).nmiPending = s.nmiPending := rfl
@[simp] theorem busWrite_waiting (a : Addr) (v : Byte) (s : State) : (busWrite a v s).waiting = s.waiting := rfl
@[simp] theorem busWrite_stopped (a : Addr) (v : Byte) (s : State) : (busWrite a v s).stopped = s.stopped := rfl
@[simp] theorem busWrite_mem (a : Addr) (v : Byte) (s : State) : (busWrite a v s).mem = s.mem.write a.toNat v := rfl
@[simp] theorem busWrite_events (a : Addr) (v : Byte) (s : State) :
    (busWrite a v s).events = ⟨.write, a, v⟩ :: s.events := rfl
@[simp] theorem busWrite_answers (a : Addr) (v : Byte) (s : State) : (busWrite a v s).answers = s.answers := rfl
@[simp] theorem busWrite_inputs (a : Addr) (v : Byte) (s : State) : (busWrite a v s).inputs = s.inputs := rfl
@[simp] theorem busWrite_draws (a : Addr) (v : Byte) (s : State) : (busWrite a v s).draws = s.draws := rfl

/-! ### setAcc -/

@[simp] theorem setAcc_X (w : Width) (v : Word) (s : State) : (setAcc w v s).X = s.X := by cases w <;> rfl
@[simp] theorem setAcc_Y (w : Width) (v : Word) (s : State) : (setAcc w v s).Y = s.Y := by cases w <;> rfl
@[simp] theorem setAcc_S (w : Width) (v : Word) (s : State) : (setAcc w v s).S = s.S := by cases w <;> rfl
@[simp] theorem setAcc_D (w : Width) (v : Word) (s : State) : (setAcc w v s).D = s.D := by cases w <;> rfl
@[simp] theorem setAcc_DBR (w : Width) (v : Word) (s : State) : (setAcc w v s).DBR = s.DBR := by cases w <;> rfl
@[simp] theorem setAcc_PBR (w : Width) (v : Word) (s : State) : (setAcc w v s).PBR = s.PBR := by cases w <;> rfl
@[simp] theorem setAcc_PC (w : Width) (v : Word) (s : State) : (setAcc w v s).PC = s.PC := by cases w <;> rfl
@[simp] theorem setAcc_P (w : Width) (v : Word) (s : State) : (setAcc w v s).P = s.P := by cases w <;> rfl
@[simp] theorem setAcc_E (w : Width) (v : Word) (s : State) : (setAcc w v s).E = s.E := by cases w <;> rfl
@[simp] theorem setAcc_cycles (w : Width) (v : Word) (s : State) : (setAcc w v s).cycles = s.cycles := by cases w <;> rfl
@[simp] theorem setAcc_waitAddress (w : Width) (v : Word) (s : State) :
    (setAcc w v s).waitAddress = s.waitAddress := by cases w <;> rfl
@[simp] theorem setAcc_nmiPending (w : Width) (v : Word) (s : State) :
    (setAcc w v s).nmiPending = s.nmiPending := by cases w <;> rfl
@[simp] theorem setAcc_waiting (w : Width) (v : Word) (s : State) : (setAcc w v s).waiting = s.waiting := by cases w <;> rfl
@[simp] theorem setAcc_stopped (w : Width) (v : Word) (s : State) : (setAcc w v s).stopped = s.stopped := by cases w <;> rfl
@[simp] theorem setAcc_mem (w : Width) (v : Word) (s : State) : (setAcc w v s).mem = s.mem := by cases w <;> rfl
@[simp] theorem setAcc_events (w : Width) (v : Word) (s : State) : (setAcc w v s).events = s.events := by cases w <;> rfl
@[simp] theorem setAcc_answers (w : Width) (v : Word) (s : State) : (setAcc w v s).answers = s.answers := by cases w <;> rfl
@[simp] theorem setAcc_inputs (w : Width) (v : Word) (s : State) : (setAcc w v s).inputs = s.inputs := by cases w <;> rfl
@[simp] theorem setAcc_draws (w : Width) (v : Word) (s : State) : (setAcc w v s).draws = s.draws := by cases w <;> rfl

/-! ### setX -/

@[simp] theorem setX_A (w : Width) (v : Word) (s : State) : (setX w v s).A = s.A := rfl
@[simp] theorem setX_X (w : Width) (v : Word) (s : State) : (setX w v s).X = truncTo w v := rfl
@[simp] theorem setX_Y (w : Width) (v : Word) (s : State) : (setX w v s).Y = s.Y := rfl
@[simp] theorem setX_S (w : Width) (v : Word) (s : State) : (setX w v s).S = s.S := rfl
@[simp] theorem setX_D (w : Width) (v : Word) (s : State) : (setX w v s).D = s.D := rfl
@[simp] theorem setX_DBR (w : Width) (v : Word) (s : State) : (setX w v s).DBR = s.DBR := rfl
@[simp] theorem setX_PBR (w : Width) (v : Word) (s : State) : (setX w v s).PBR = s.PBR := rfl
@[simp] theorem setX_PC (w : Width) (v : Word) (s : State) : (setX w v s).PC = s.PC := rfl
@[simp] theorem setX_P (w : Width) (v : Word) (s : State) : (setX w v s).P = s.P := rfl
@[simp] theorem setX_E (w : Width) (v : Word) (s : State) : (setX w v s).E = s.E := rfl
@[simp] theorem setX_cycles (w : Width) (v : Word) (s : State) : (setX w v s).cycles = s.cycles := rfl
@[simp] theorem setX_waitAddress (w : Width) (v : Word) (s : State) : (setX w v s).waitAddress = s.waitAddress := rfl
@[simp] theorem setX_nmiPending (w : Width) (v : Word) (s : State) : (setX w v s).nmiPending = s.nmiPending := rfl
@[simp] theorem setX_waiting (w : Width) (v : Word) (s : State) : (setX w v s).waiting = s.waiting := rfl
@[simp] theorem setX_stopped (w : Width) (v : Word) (s : State) : (setX w v s).stopped = s.stopped := rfl
@[simp] theorem setX_mem (w : Width) (v : Word) (s : State) : (setX w v s).mem = s.mem := rfl
@[simp] theorem setX_events (w : Width) (v : Word) (s : State) : (setX w v s).events = s.events := rfl
@[simp] theorem setX_answers (w : Width) (v : Word) (s : State) : (setX w v s).answers = s.answers := rfl
@[simp] theorem setX_inputs (w : Width) (v : Word) (s : State) : (setX w v s).inputs = s.inputs := rfl
@[simp] theorem setX_draws (w : Width) (v : Word) (s : State) : (setX w v s).draws = s.draws := rfl

/-! ### setY -/

@[simp] theorem setY_A (w : Width) (v : Word) (s : State) : (setY w v s).A = s.A := rfl
@[simp] theorem setY_X (w : Width) (v : Word) (s : State) : (setY w v s).X = s.X := rfl
@[simp] theorem setY_Y (w : Width) (v : Word) (s : State) : (setY w v s).Y = truncTo w v := rfl
@[simp] theorem setY_S (w : Width) (v : Word) (s : State) : (setY w v s).S = s.S := rfl
@[simp] theorem setY_D (w : Width) (v : Word) (s : State) : (setY w v s).D = s.D := rfl
@[simp] theorem setY_DBR (w : Width) (v : Word) (s : State) : (setY w v s).DBR = s.DBR := rfl
@[simp] theorem setY_PBR (w : Width) (v : Word) (s : State) : (setY w v s).PBR = s.PBR := rfl
@[simp] theorem setY_PC (w : Width) (v : Word) (s : State) : (setY w v s).PC = s.PC := rfl
@[simp] theorem setY_P (w : Width) (v : Word) (s : State) : (setY w v s).P = s.P := rfl
@[simp] theorem setY_E (w : Width) (v : Word) (s : State) : (setY w v s).E = s.E := rfl
@[simp] theorem setY_cycles (w : Width) (v : Word) (s : State) : (setY w v s).cycles = s.cycles := rfl
@[simp] theorem setY_waitAddress (w : Width) (v : Word) (s : State) : (setY w v s).waitAddress = s.waitAddress := rfl
@[simp] theorem setY_nmiPending (w : Width) (v : Word) (s : State) : (setY w v s).nmiPending = s.nmiPending := rfl
@[simp] theorem setY_waiting (w : Width) (v : Word) (s : State) : (setY w v s).waiting = s.waiting := rfl
@[simp] theorem setY_stopped (w : Width) (v : Word) (s : State) : (setY w v s).stopped = s.stopped := rfl
@[simp] theorem setY_mem (w : Width) (v : Word) (s : State) : (setY w v s).mem = s.mem := rfl
@[simp] theorem setY_events (w : Width) (v : Word) (s : State) : (setY w v s).events = s.events := rfl
@[simp] theorem setY_answers (w : Width) (v : Word) (s : State) : (setY w v s).answers = s.answers := rfl
@[simp] theorem setY_inputs (w : Width) (v : Word) (s : State) : (setY w v s).inputs = s.inputs := rfl
@[simp] theorem setY_draws (w : Width) (v : Word) (s : State) : (setY w v s).draws = s.draws := rfl

/-! ### setS -/

@[simp] theorem setS_A (v : Word) (s : State) : (setS v s).A = s.A := rfl
@[simp] theorem setS_X (v : Word) (s : State) : (setS v s).X = s.X := rfl
@[simp] theorem setS_Y (v : Word) (s : State) : (setS v s).Y = s.Y := rfl
@[simp] theorem setS_S (v : Word) (s : State) : (setS v s).S = if s.E then mkWord 0x01 (lowByte v) else v := rfl
@[simp] theorem setS_D (v : Word) (s : State) : (setS v s).D = s.D := rfl
@[simp] theorem setS_DBR (v : Word) (s : State) : (setS v s).DBR = s.DBR := rfl
@[simp] theorem setS_PBR (v : Word) (s : State) : (setS v s).PBR = s.PBR := rfl
@[simp] theorem setS_PC (v : Word) (s : State) : (setS v s).PC = s.PC := rfl
@[simp] theorem setS_P (v : Word) (s : State) : (setS v s).P = s.P := rfl
@[simp] theorem setS_E (v : Word) (s : State) : (setS v s).E = s.E := rfl
@[simp] theorem setS_cycles (v : Word) (s : State) : (setS v s).cycles = s.cycles := rfl
@[simp] theorem setS_waitAddress (v : Word) (s : State) : (setS v s).waitAddress = s.waitAddress := rfl
@[simp] theorem setS_nmiPending (v : Word) (s : State) : (setS v s).nmiPending = s.nmiPending := rfl
@[simp] theorem setS_waiting (v : Word) (s : State) : (setS v s).waiting = s.waiting := rfl
@[simp] theorem setS_stopped (v : Word) (s : State) : (setS v s).stopped = s.stopped := rfl
@[simp] theorem setS_mem (v : Word) (s : State) : (setS v s).mem = s.mem := rfl
@[simp] theorem setS_events (v : Word) (s : State) : (setS v s).events = s.events := rfl
@[simp] theorem setS_answers (v : Word) (s : State) : (setS v s).answers = s.answers := rfl
@[simp] theorem setS_inputs (v : Word) (s : State) : (setS v s).inputs = s.inputs := rfl
@[simp] theorem setS_draws (v : Word) (s : State) : (setS v s).draws = s.draws := rfl

/-! ### settleStack -/

@[simp] theorem settleStack_A (s : State) : (settleStack s).A = s.A := rfl
@[simp] theorem settleStack_X (s : State) : (settleStack s).X = s.X := rfl
@[simp] theorem settleStack_Y (s : State) : (settleStack s).Y = s.Y := rfl
@[simp] theorem settleStack_S (s : State) : (settleStack s).S = if s.E then mkWord 0x01 (lowByte s.S) else s.S := rfl
@[simp] theorem settleStack_D (s : State) : (settleStack s).D = s.D := rfl
@[simp] theorem settleStack_DBR (s : State) : (settleStack s).DBR = s.DBR := rfl
@[simp] theorem settleStack_PBR (s : State) : (settleStack s).PBR = s.PBR := rfl
@[simp] theorem settleStack_PC (s : State) : (settleStack s).PC = s.PC := rfl
@[simp] theorem settleStack_P (s : State) : (settleStack s).P = s.P := rfl
@[simp] theorem settleStack_E (s : State) : (settleStack s).E = s.E := rfl
@[simp] theorem settleStack_cycles (s : State) : (settleStack s).cycles = s.cycles := rfl
@[simp] theorem settleStack_waitAddress (s : State) : (settleStack s).waitAddress = s.waitAddress := rfl
@[simp] theorem settleStack_nmiPending (s : State) : (settleStack s).nmiPending = s.nmiPending := rfl
@[simp] theorem settleStack_waiting (s : State) : (settleStack s).waiting = s.waiting := rfl
@[simp] theorem settleStack_stopped (s : State) : (settleStack s).stopped = s.stopped := rfl
@[simp] theorem settleStack_mem (s : State) : (settleStack s).mem = s.mem := rfl
@[simp] theorem settleStack_events (s : State) : (settleStack s).events = s.events := rfl
@[simp] theorem settleStack_answers (s : State) : (settleStack s).answers = s.answers := rfl
@[simp] theorem settleStack_inputs (s : State) : (settleStack s).inputs = s.inputs := rfl
@[simp] theorem settleStack_draws (s : State) : (settleStack s).draws = s.draws := rfl

/-! ### setZN -/

@[simp] theorem setZN_A (w : Width) (v : Word) (s : State) : (setZN w v s).A = s.A := rfl
@[simp] theorem setZN_X (w : Width) (v : Word) (s : State) : (setZN w v s).X = s.X := rfl
@[simp] theorem setZN_Y (w : Width) (v : Word) (s : State) : (setZN w v s).Y = s.Y := rfl
@[simp] theorem setZN_S (w : Width) (v : Word) (s : State) : (setZN w v s).S = s.S := rfl
@[simp] theorem setZN_D (w : Width) (v : Word) (s : State) : (setZN w v s).D = s.D := rfl
@[simp] theorem setZN_DBR (w : Width) (v : Word) (s : State) : (setZN w v s).DBR = s.DBR := rfl
@[simp] theorem setZN_PBR (w : Width) (v : Word) (s : State) : (setZN w v s).PBR = s.PBR := rfl
@[simp] theorem setZN_PC (w : Width) (v : Word) (s : State) : (setZN w v s).PC = s.PC := rfl
@[simp] theorem setZN_P (w : Width) (v : Word) (s : State) :
    (setZN w v s).P = { s.P with Z := truncTo w v == 0, N := topBit w v } := rfl
@[simp] theorem setZN_E (w : Width) (v : Word) (s : State) : (setZN w v s).E = s.E := rfl
@[simp] theorem setZN_cycles (w : Width) (v : Word) (s : State) : (setZN w v s).cycles = s.cycles := rfl
@[simp] theorem setZN_waitAddress (w : Width) (v : Word) (s : State) : (setZN w v s).waitAddress = s.waitAddress := rfl
@[simp] theorem setZN_nmiPending (w : Width) (v : Word) (s : State) : (setZN w v s).nmiPending = s.nmiPending := rfl
@[simp] theorem setZN_waiting (w : Width) (v : Word) (s : State) : (setZN w v s).waiting = s.waiting := rfl
@[simp] theorem setZN_stopped (w : Width) (v : Word) (s : State) : (setZN w v s).stopped = s.stopped := rfl
@[simp] theorem setZN_mem (w : Width) (v : Word) (s : State) : (setZN w v s).mem = s.mem := rfl
@[simp] theorem setZN_events (w : Width) (v : Word) (s : State) : (setZN w v s).events = s.events := rfl
@[simp] theorem setZN_answers (w : Width) (v : Word) (s : State) : (setZN w v s).answers = s.answers := rfl
@[simp] theorem setZN_inputs (w : Width) (v : Word) (s : State) : (setZN w v s).inputs = s.inputs := rfl
@[simp] theorem setZN_draws (w : Width) (v : Word) (s : State) : (setZN w v s).draws = s.draws := rfl

/-! ### setC -/

@[simp] theorem setC_A (b : Bool) (s : State) : (setC b s).A = s.A := rfl
@[simp] theorem setC_X (b : Bool) (s : State) : (setC b s).X = s.X := rfl
@[simp] theorem setC_Y (b : Bool) (s : State) : (setC b s).Y = s.Y := rfl
@[simp] theorem setC_S (b : Bool) (s : State) : (setC b s).S = s.S := rfl
@[simp] theorem setC_D (b : Bool) (s : State) : (setC b s).D = s.D := rfl
@[simp] theorem setC_DBR (b : Bool) (s : State) : (setC b s).DBR = s.DBR := rfl
@[simp] theorem setC_PBR (b : Bool) (s : State) : (setC b s).PBR = s.PBR := rfl
@[simp] theorem setC_PC (b : Bool) (s : State) : (setC b s).PC = s.PC := rfl
@[simp] theorem setC_P (b : Bool) (s : State) : (setC b s).P = { s.P with C := b } := rfl
@[simp] theorem setC_E (b : Bool) (s : State) : (setC b s).E = s.E := rfl
@[simp] theorem setC_cycles (b : Bool) (s : State) : (setC b s).cycles = s.cycles := rfl
@[simp] theorem setC_waitAddress (b : Bool) (s : State) : (setC b s).waitAddress = s.waitAddress := rfl
@[simp] theorem setC_nmiPending (b : Bool) (s : State) : (setC b s).nmiPending = s.nmiPending := rfl
@[simp] theorem setC_waiting (b : Bool) (s : State) : (setC b s).waiting = s.waiting := rfl
@[simp] theorem setC_stopped (b : Bool) (s : State) : (setC b s).stopped = s.stopped := rfl
@[simp] theorem setC_mem (b : Bool) (s : State) : (setC b s).mem = s.mem := rfl
@[simp] theorem setC_events (b : Bool) (s : State) : (setC b s).events = s.events := rfl
@[simp] theorem setC_answers (b : Bool) (s : State) : (setC b s).answers = s.answers := rfl
@[simp] theorem setC_inputs (b : Bool) (s : State) : (setC b s).inputs = s.inputs := rfl
@[simp] theorem setC_draws (b : Bool) (s : State) : (setC b s).draws = s.draws := rfl

/-! ### setV -/

@[simp] theorem setV_A (b : Bool) (s : State) : (setV b s).A = s.A := rfl
@[simp] theorem setV_X (b : Bool) (s : State) : (setV b s).X = s.X := rfl
@[simp] theorem setV_Y (b : Bool) (s : State) : (setV b s).Y = s.Y := rfl
@[simp] theorem setV_S (b : Bool) (s : State) : (setV b s).S = s.S := rfl
@[simp] theorem setV_D (b : Bool) (s : State) : (setV b s).D = s.D := rfl
@[simp] theorem setV_DBR (b : Bool) (s : State) : (setV b s).DBR = s.DBR := rfl
@[simp] theorem setV_PBR (b : Bool) (s : State) : (setV b s).PBR = s.PBR := rfl
@[simp] theorem setV_PC (b : Bool) (s : State) : (setV b s).PC = s.PC := rfl
@[simp] theorem setV_P (b : Bool) (s : State) : (setV b s).P = { s.P with V := b } := rfl
@[simp] theorem setV_E (b : Bool) (s : State) : (setV b s).E = s.E := rfl
@[simp] theorem setV_cycles (b : Bool) (s : State) : (setV b s).cycles = s.cycles := rfl
@[simp] theorem setV_waitAddress (b : Bool) (s : State) : (setV b s).waitAddress = s.waitAddress := rfl
@[simp] theorem setV_nmiPending (b : Bool) (s : State) : (setV b s).nmiPending = s.nmiPending := rfl
@[simp] theorem setV_waiting (b : Bool) (s : State) : (setV b s).waiting = s.waiting := rfl
@[simp] theorem setV_stopped (b : Bool) (s : State) : (setV b s).stopped = s.stopped := rfl
@[simp] theorem setV_mem (b : Bool) (s : State) : (setV b s).mem = s.mem := rfl
@[simp] theorem setV_events (b : Bool) (s : State) : (setV b s).events = s.events := rfl
@[simp] theorem setV_answers (b : Bool) (s : State) : (setV b s).answers = s.answers := rfl
@[simp] theorem setV_inputs (b : Bool) (s : State) : (setV b s).inputs = s.inputs := rfl
@[simp] theorem setV_draws (b : Bool) (s : State) : (setV b s).draws = s.draws := rfl

/-! ### setZ -/

@[simp] theorem setZ_A (b : Bool) (s : State) : (setZ b s).A = s.A := rfl
@[simp] theorem setZ_X (b : Bool) (s : State) : (setZ b s).X = s.X := rfl
@[simp] theorem setZ_Y (b : Bool) (s : State) : (setZ b s).Y = s.Y := rfl
@[simp] theorem setZ_S (b : Bool) (s : State) : (setZ b s).S = s.S := rfl
@[simp] theorem setZ_D (b : Bool) (s : State) : (setZ b s).D = s.D := rfl
@[simp] theorem setZ_DBR (b : Bool) (s : State) : (setZ b s).DBR = s.DBR := rfl
@[simp] theorem setZ_PBR (b : Bool) (s : State) : (setZ b s).PBR = s.PBR := rfl
@[simp] theorem setZ_PC (b : Bool) (s : State) : (setZ b s).PC = s.PC := rfl
@[simp] theorem setZ_P (b : Bool) (s : State) : (setZ b s).P = { s.P with Z := b } := rfl
@[simp] theorem setZ_E (b : Bool) (s : State) : (setZ b s).E = s.E := rfl
@[simp] theorem setZ_cycles (b : Bool) (s : State) : (setZ b s).cycles = s.cycles := rfl
@[simp] theorem setZ_waitAddress (b : Bool) (s : State) : (setZ b s).waitAddress = s.waitAddress := rfl
@[simp] theorem setZ_nmiPending (b : Bool) (s : State) : (setZ b s).nmiPending = s.nmiPending := rfl
@[simp] theorem setZ_waiting (b : Bool) (s : State) : (setZ b s).waiting = s.waiting := rfl
@[simp] theorem setZ_stopped (b : Bool) (s : State) : (setZ b s).stopped = s.stopped := rfl
@[simp] theorem setZ_mem (b : Bool) (s : State) : (setZ b s).mem = s.mem := rfl
@[simp] theorem setZ_events (b : Bool) (s : State) : (setZ b s).events = s.events := rfl
@[simp] theorem setZ_answers (b : Bool) (s : State) : (setZ b s).answers = s.answers := rfl
@[simp] theorem setZ_inputs (b : Bool) (s : State) : (setZ b s).inputs = s.inputs := rfl
@[simp] theorem setZ_draws (b : Bool) (s : State) : (setZ b s).draws = s.draws := rfl

/-! ### addCycle -/

@[simp] theorem addCycle_A (s : State) : (addCycle s).A = s.A := rfl
@[simp] theorem addCycle_X (s : State) : (addCycle s).X = s.X := rfl
@[simp] theorem addCycle_Y (s : State) : (addCycle s).Y = s.Y := rfl
@[simp] theorem addCycle_S (s : State) : (addCycle s).S = s.S := rfl
@[simp] theorem addCycle_D (s : State) : (addCycle s).D = s.D := rfl
@[simp] theorem addCycle_DBR (s : State) : (addCycle s).DBR = s.DBR := rfl
@[simp] theorem addCycle_PBR (s : State) : (addCycle s).PBR = s.PBR := rfl
@[simp] theorem addCycle_PC (s : State) : (addCycle s).PC = s.PC := rfl
@[simp] theorem addCycle_P (s : State) : (addCycle s).P = s.P := rfl
@[simp] theorem addCycle_E (s : State) : (addCycle s).E = s.E := rfl
@[simp] theorem addCycle_cycles (s : State) :
    (addCycle s).cycles = s.cycles + if Config.varCycles then Config.oneCycle else 0 := rfl
@[simp] theorem addCycle_waitAddress (s : State) : (addCycle s).waitAddress = s.waitAddress := rfl
@[simp] theorem addCycle_nmiPending (s : State) : (addCycle s).nmiPending = s.nmiPending := rfl
@[simp] theorem addCycle_waiting (s : State) : (addCycle s).waiting = s.waiting := rfl
@[simp] theorem addCycle_stopped (s : State) : (addCycle s).stopped = s.stopped := rfl
@[simp] theorem addCycle_mem (s : State) : (addCycle s).mem = s.mem := rfl
@[simp] theorem addCycle_events (s : State) : (addCycle s).events = s.events := rfl
@[simp] theorem addCycle_answers (s : State) : (addCycle s).answers = s.answers := rfl
@[simp] theorem addCycle_inputs (s : State) : (addCycle s).inputs = s.inputs := rfl
@[simp] theorem addCycle_draws (s : State) : (addCycle s).draws = s.draws := rfl

/-! ### clearWait -/

@[simp] theorem clearWait_A (s : State) : (clearWait s).A = s.A := rfl
@[simp] theorem clearWait_X (s : State) : (clearWait s).X = s.X := rfl
@[simp] theorem clearWait_Y (s : State) : (clearWait s).Y = s.Y := rfl
@[simp] theorem clearWait_S (s : State) : (clearWait s).S = s.S := rfl
@[simp] theorem clearWait_D (s : State) : (clearWait s).D = s.D := rfl
@[simp] theorem clearWait_DBR (s : State) : (clearWait s).DBR = s.DBR := rfl
@[simp] theorem clearWait_PBR (s : State) : (clearWait s).PBR = s.PBR := rfl
@[simp] theorem clearWait_PC (s : State) : (clearWait s).PC = s.PC := rfl
@[simp] theorem clearWait_P (s : State) : (clearWait s).P = s.P := rfl
@[simp] theorem clearWait_E (s : State) : (clearWait s).E = s.E := rfl
@[simp] theorem clearWait_cycles (s : State) : (clearWait s).cycles = s.cycles := rfl
@[simp] theorem clearWait_waitAddress (s : State) :
    (clearWait s).waitAddress = if Config.cpuShutdown then none else s.waitAddress := rfl
@[simp] theorem clearWait_nmiPending (s : State) : (clearWait s).nmiPending = s.nmiPending := rfl
@[simp] theorem clearWait_waiting (s : State) : (clearWait s).waiting = s.waiting := rfl
@[simp] theorem clearWait_stopped (s : State) : (clearWait s).stopped = s.stopped := rfl
@[simp] theorem clearWait_mem (s : State) : (clearWait s).mem = s.mem := rfl
@[simp] theorem clearWait_events (s : State) : (clearWait s).events = s.events := rfl
@[simp] theorem clearWait_answers (s : State) : (clearWait s).answers = s.answers := rfl
@[simp] theorem clearWait_inputs (s : State) : (clearWait s).inputs = s.inputs := rfl
@[simp] theorem clearWait_draws (s : State) : (clearWait s).draws = s.draws := rfl

/-! ### clearWaitIndex -/

@[simp] theorem clearWaitIndex_A (s : State) : (clearWaitIndex s).A = s.A := rfl
@[simp] theorem clearWaitIndex_X (s : State) : (clearWaitIndex s).X = s.X := rfl
@[simp] theorem clearWaitIndex_Y (s : State) : (clearWaitIndex s).Y = s.Y := rfl
@[simp] theorem clearWaitIndex_S (s : State) : (clearWaitIndex s).S = s.S := rfl
@[simp] theorem clearWaitIndex_D (s : State) : (clearWaitIndex s).D = s.D := rfl
@[simp] theorem clearWaitIndex_DBR (s : State) : (clearWaitIndex s).DBR = s.DBR := rfl
@[simp] theorem clearWaitIndex_PBR (s : State) : (clearWaitIndex s).PBR = s.PBR := rfl
@[simp] theorem clearWaitIndex_PC (s : State) : (clearWaitIndex s).PC = s.PC := rfl
@[simp] theorem clearWaitIndex_P (s : State) : (clearWaitIndex s).P = s.P := rfl
@[simp] theorem clearWaitIndex_E (s : State) : (clearWaitIndex s).E = s.E := rfl
@[simp] theorem clearWaitIndex_cycles (s : State) : (clearWaitIndex s).cycles = s.cycles := rfl
@[simp] theorem clearWaitIndex_waitAddress (s : State) :
    (clearWaitIndex s).waitAddress = if Config.cpuShutdown && Config.idxIncDecClearsWait then none else s.waitAddress := rfl
@[simp] theorem clearWaitIndex_nmiPending (s : State) : (clearWaitIndex s).nmiPending = s.nmiPending := rfl
@[simp] theorem clearWaitIndex_waiting (s : State) : (clearWaitIndex s).waiting = s.waiting := rfl
@[simp] theorem clearWaitIndex_stopped (s : State) : (clearWaitIndex s).stopped = s.stopped := rfl
@[simp] theorem clearWaitIndex_mem (s : State) : (clearWaitIndex s).mem = s.mem := rfl
@[simp] theorem clearWaitIndex_events (s : State) : (clearWaitIndex s).events = s.events := rfl
@[simp] theorem clearWaitIndex_answers (s : State) : (clearWaitIndex s).answers = s.answers := rfl
@[simp] theorem clearWaitIndex_inputs (s : State) : (clearWaitIndex s).inputs = s.inputs := rfl
@[simp] theorem clearWaitIndex_draws (s : State) : (clearWaitIndex s).draws = s.draws := rfl

@[simp] theorem setAcc_A (w : Width) (v : Word) (s : State) :
    (setAcc w v s).A = match w with | .w8 => mkWord (highByte s.A) (lowByte v) | .w16 => v := by cases w <;> rfl

end Sys2Proof.Machine
end

