-- ==== Sys2Proof/Laws/Bus.lean ====
section
/-! SUPPORT. The bus, words and bytes, and what a read or a write of memory can change. -/

namespace Sys2Proof.Machine

/-! ### Bytes and words -/

theorem mkWord_toNat (hi lo : Byte) : (mkWord hi lo).toNat = hi.toNat * 256 + lo.toNat := by
  have h := lo.isLt
  unfold mkWord
  rw [BitVec.toNat_append, ← Nat.shiftLeft_add_eq_or_of_lt h, Nat.shiftLeft_eq]

theorem mkAddr_toNat (bank : Byte) (offset : Word) : (mkAddr bank offset).toNat = bank.toNat * 65536 + offset.toNat := by
  have h := offset.isLt
  unfold mkAddr
  rw [BitVec.toNat_append, ← Nat.shiftLeft_add_eq_or_of_lt h, Nat.shiftLeft_eq]

theorem lowByte_toNat (v : Word) : (lowByte v).toNat = v.toNat % 256 := by
  simp [lowByte]

theorem highByte_toNat (v : Word) : (highByte v).toNat = v.toNat / 256 := by
  have h := v.isLt
  simp [highByte, Nat.shiftRight_eq_div_pow]; omega

theorem bankOf_toNat (a : Addr) : (bankOf a).toNat = a.toNat / 65536 := by
  have h := a.isLt
  simp [bankOf, Nat.shiftRight_eq_div_pow]; omega

theorem offsetOf_toNat (a : Addr) : (offsetOf a).toNat = a.toNat % 65536 := by
  simp [offsetOf]

@[simp] theorem lowByte_mkWord (hi lo : Byte) : lowByte (mkWord hi lo) = lo := by
  have h := lo.isLt
  apply BitVec.eq_of_toNat_eq; rw [lowByte_toNat, mkWord_toNat]; omega

@[simp] theorem highByte_mkWord (hi lo : Byte) : highByte (mkWord hi lo) = hi := by
  have h := lo.isLt
  apply BitVec.eq_of_toNat_eq; rw [highByte_toNat, mkWord_toNat]; omega

@[simp] theorem mkWord_bytes (v : Word) : mkWord (highByte v) (lowByte v) = v := by
  apply BitVec.eq_of_toNat_eq; rw [mkWord_toNat, lowByte_toNat, highByte_toNat]; omega

@[simp] theorem bankOf_mkAddr (bank : Byte) (offset : Word) : bankOf (mkAddr bank offset) = bank := by
  have h := offset.isLt
  apply BitVec.eq_of_toNat_eq; rw [bankOf_toNat, mkAddr_toNat]; omega

@[simp] theorem offsetOf_mkAddr (bank : Byte) (offset : Word) : offsetOf (mkAddr bank offset) = offset := by
  have h := offset.isLt
  apply BitVec.eq_of_toNat_eq; rw [offsetOf_toNat, mkAddr_toNat]; omega

@[simp] theorem mkAddr_parts (a : Addr) : mkAddr (bankOf a) (offsetOf a) = a := by
  apply BitVec.eq_of_toNat_eq; rw [mkAddr_toNat, bankOf_toNat, offsetOf_toNat]; omega

@[simp] theorem zext_toNat (b : Byte) : (zext b).toNat = b.toNat := by
  simp [zext, mkWord_toNat]

@[simp] theorem lowByte_zext (b : Byte) : lowByte (zext b) = b := lowByte_mkWord _ _

@[simp] theorem highByte_zext (b : Byte) : highByte (zext b) = 0 := highByte_mkWord _ _

theorem truncTo_toNat (w : Width) (v : Word) : (truncTo w v).toNat = v.toNat % 2 ^ w.bits := by
  cases w
  · simp [truncTo, Width.bits, lowByte_toNat]
  · exact (Nat.mod_eq_of_lt v.isLt).symm

theorem truncTo_lt (w : Width) (v : Word) : (truncTo w v).toNat < 2 ^ w.bits := by
  rw [truncTo_toNat]; exact Nat.mod_lt _ (by positivity)

@[simp] theorem truncTo_truncTo (w : Width) (v : Word) : truncTo w (truncTo w v) = truncTo w v := by
  cases w <;> simp [truncTo]

/-- Two words of one bank and different offsets are different addresses. -/
theorem mkAddr_ne (bank : Byte) (o o' : Word) (h : o ≠ o') : mkAddr bank o ≠ mkAddr bank o' :=
  fun e => h (by rw [← offsetOf_mkAddr bank o, e, offsetOf_mkAddr])

@[simp] theorem bank0_addr (o : Word) : (bank0 o).addr = mkAddr 0x00 o := rfl

@[simp] theorem linear_addr (a : Addr) : (linear a).addr = a := rfl

@[simp] theorem nextEa_bank0 (o : Word) : nextEa (bank0 o) = bank0 (o + 1) := by
  simp [nextEa, bank0]

@[simp] theorem nextEa_linear (a : Addr) : nextEa (linear a) = linear (a + 1) := rfl

theorem word_add_one_ne (o : Word) : o + 1 ≠ o := by
  intro h
  have h' := congrArg BitVec.toNat h
  rw [BitVec.toNat_add] at h'
  have := o.isLt
  have : (1 : Word).toNat = 1 := rfl
  omega

/-- The second byte of a word lies at another address than the first (20_memory R64). -/
theorem nextEa_ne (ea : Ea) : (nextEa ea).addr ≠ ea.addr := by
  obtain ⟨a, k⟩ := ea
  cases k
  · intro h
    have h' : (a + 1).toNat = a.toNat := congrArg BitVec.toNat h
    rw [BitVec.toNat_add] at h'
    have := a.isLt
    have : (1 : Addr).toNat = 1 := rfl
    omega
  · intro h
    have h' : offsetOf (mkAddr 0x00 (offsetOf a + 1)) = offsetOf a := congrArg offsetOf h
    rw [offsetOf_mkAddr] at h'
    exact word_add_one_ne _ h'

/-! ### Reads -/

/-- `t` differs from `s` at most in the platform's answers and the record of bus events: what a read can do. -/
def BusOnly (s t : State) : Prop := t = { s with answers := t.answers, events := t.events }

theorem BusOnly.refl (s : State) : BusOnly s s := rfl

theorem BusOnly.trans {s t u : State} (h : BusOnly s t) (h' : BusOnly t u) : BusOnly s u := by
  unfold BusOnly at *; rw [h', h]

theorem sense_busOnly (a : Addr) (s : State) : BusOnly s (sense a s).2 := rfl

theorem busRead_busOnly (a : Addr) (s : State) : BusOnly s (busRead a s).2 := rfl

theorem memRead8_busOnly (ea : Ea) (s : State) : BusOnly s (memRead8 ea s).2 := rfl

theorem memRead16_busOnly (ea : Ea) (s : State) : BusOnly s (memRead16 ea s).2 := rfl

theorem memRead_busOnly (w : Width) (ea : Ea) (s : State) : BusOnly s (memRead w ea s).2 := by cases w <;> rfl

theorem readPointer16_busOnly (lo hi : Ea) (s : State) : BusOnly s (readPointer16 lo hi s).2 :=
  (memRead8_busOnly lo s).trans (memRead8_busOnly hi _)

theorem readPointer24_busOnly (b0 b1 b2 : Ea) (s : State) : BusOnly s (readPointer24 b0 b1 b2 s).2 :=
  (readPointer16_busOnly b0 b1 s).trans (memRead8_busOnly b2 _)

theorem firstAnswer_dropAnswer (l : List Host.Cell) (a b : Nat) (h : b ≠ a) :
    firstAnswer (dropAnswer l a) b = firstAnswer l b := by
  induction l with
  | nil => rfl
  | cons c rest ih =>
    by_cases hc : c.1 = a
    · have : ¬ a = b := fun e => h e.symm
      simp [dropAnswer, firstAnswer, hc, this]
    · simp [dropAnswer, firstAnswer, hc, ih]

/-- A read leaves what another address answers as it was. -/
theorem busValue_sense (a b : Addr) (s : State) (h : b ≠ a) : busValue b (sense a s).2 = busValue b s := by
  unfold busValue
  rw [sense_answers, sense_mem, firstAnswer_dropAnswer _ _ _ fun e => h (BitVec.eq_of_toNat_eq e)]

theorem busValue_busRead (a b : Addr) (s : State) (h : b ≠ a) : busValue b (busRead a s).2 = busValue b s :=
  busValue_sense a b s h

@[simp] theorem memRead8_val (ea : Ea) (s : State) : (memRead8 ea s).1 = busValue ea.addr s := rfl

/-- The value of a 16-bit read (20_memory R63, R65). -/
@[simp] theorem memRead16_val (ea : Ea) (s : State) :
    (memRead16 ea s).1 = mkWord (busValue (nextEa ea).addr s) (busValue ea.addr s) := by
  show mkWord (busValue (nextEa ea).addr (sense ea.addr s).2) (busValue ea.addr s) = _
  rw [busValue_sense _ _ _ (nextEa_ne ea)]

/-- The value of a pointer read from two places (30_encoding R121). -/
theorem readPointer16_val (lo hi : Ea) (s : State) (h : hi.addr ≠ lo.addr) :
    (readPointer16 lo hi s).1 = mkWord (busValue hi.addr s) (busValue lo.addr s) := by
  show mkWord (busValue hi.addr (busRead lo.addr s).2) (busValue lo.addr s) = _
  rw [busValue_busRead _ _ _ h]

/-- The value of a pointer read from three places (30_encoding R121). -/
theorem readPointer24_val (b0 b1 b2 : Ea) (s : State) (h : b1.addr ≠ b0.addr) (h' : b2.addr ≠ b0.addr)
    (h'' : b2.addr ≠ b1.addr) :
    (readPointer24 b0 b1 b2 s).1 =
      mkAddr (busValue b2.addr s) (mkWord (busValue b1.addr s) (busValue b0.addr s)) := by
  show mkAddr (busValue b2.addr (busRead b1.addr (busRead b0.addr s).2).2)
    (mkWord (busValue b1.addr (busRead b0.addr s).2) (busValue b0.addr s)) = _
  rw [busValue_busRead _ _ _ h'', busValue_busRead _ _ _ h', busValue_busRead _ _ _ h]

theorem memRead_lt (w : Width) (ea : Ea) (s : State) : (memRead w ea s).1.toNat < 2 ^ w.bits := by
  cases w
  · simpa [memRead, Width.bits] using (busValue ea.addr s).isLt
  · simpa [memRead, Width.bits] using (memRead16 ea s).1.isLt

/-! ### Writes -/

/-- `t` differs from `s` at most in memory and the record of bus events: what a write can do. -/
def BusStore (s t : State) : Prop := t = { s with mem := t.mem, events := t.events }

theorem busWrite_busStore (a : Addr) (v : Byte) (s : State) : BusStore s (busWrite a v s) := rfl

theorem memWrite8_busStore (ea : Ea) (v : Byte) (s : State) : BusStore s (memWrite8 ea v s) := rfl

theorem memWrite16_busStore (ea : Ea) (v : Word) (s : State) : BusStore s (memWrite16 ea v s) := rfl

theorem memWrite_busStore (w : Width) (ea : Ea) (v : Word) (s : State) : BusStore s (memWrite w ea v s) := by cases w <;> rfl

/-- Memory after a 16-bit write, byte by byte. -/
theorem memWrite16_mem (ea : Ea) (v : Word) (s : State) :
    (memWrite16 ea v s).mem = (s.mem.write ea.addr.toNat (lowByte v)).write (nextEa ea).addr.toNat (highByte v) := rfl

/-- A write leaves every byte outside the bytes it stores to as it was. -/
theorem memWrite_other (w : Width) (ea : Ea) (v : Word) (s : State) (a : Addr) (h : a ∉ storedAt w ea) :
    (memWrite w ea v s).mem.read a.toNat = s.mem.read a.toNat := by
  cases w
  · have ha : a.toNat ≠ ea.addr.toNat := fun e => h (by simp [storedAt, BitVec.eq_of_toNat_eq e])
    exact Memory.read_write_other _ _ _ _ ha
  · have ha : a.toNat ≠ ea.addr.toNat := fun e => h (by simp [storedAt, BitVec.eq_of_toNat_eq e])
    have ha' : a.toNat ≠ (nextEa ea).addr.toNat := fun e => h (by simp [storedAt, BitVec.eq_of_toNat_eq e])
    show ((s.mem.write _ _).write _ _).read _ = _
    rw [Memory.read_write_other _ _ _ _ ha', Memory.read_write_other _ _ _ _ ha]

/-- A write stores the low byte at the effective address. -/
theorem memWrite_low (w : Width) (ea : Ea) (v : Word) (s : State) :
    (memWrite w ea v s).mem.read ea.addr.toNat = lowByte v := by
  cases w
  · exact Memory.read_write_same _ _ _
  · have ha : ea.addr.toNat ≠ (nextEa ea).addr.toNat := fun e => nextEa_ne ea (BitVec.eq_of_toNat_eq e).symm
    show ((s.mem.write _ _).write _ _).read _ = _
    rw [Memory.read_write_other _ _ _ _ ha, Memory.read_write_same]

/-- A 16-bit write stores the high byte at the next address. -/
theorem memWrite16_high (ea : Ea) (v : Word) (s : State) :
    (memWrite .w16 ea v s).mem.read (nextEa ea).addr.toNat = highByte v :=
  Memory.read_write_same _ _ _

theorem memWrite_wf (w : Width) (ea : Ea) (v : Word) (s : State) (h : s.mem.wf) : (memWrite w ea v s).mem.wf := by
  cases w
  · exact Memory.write_wf _ _ _ ea.addr.isLt h
  · exact Memory.write_wf _ _ _ (nextEa ea).addr.isLt (Memory.write_wf _ _ _ ea.addr.isLt h)

end Sys2Proof.Machine
end

