-- ==== Sys2Proof/Laws/Operands.lean ====
section
/-! SUPPORT. Operands and effective addresses: what reading one can change, and the values that pointers give. -/

namespace Sys2Proof.Machine

theorem directPointer_busOnly (off : Nat) (s : State) : BusOnly s (directPointer off s).2 := readPointer16_busOnly _ _ _

theorem directPointerLong_busOnly (off : Nat) (s : State) : BusOnly s (directPointerLong off s).2 :=
  readPointer24_busOnly _ _ _ _

theorem absPointer_busOnly (a : Word) (s : State) : BusOnly s (absPointer a s).2 := readPointer16_busOnly _ _ _

theorem absPointerX_busOnly (a : Word) (s : State) : BusOnly s (absPointerX a s).2 := readPointer16_busOnly _ _ _

theorem absPointerLong_busOnly (a : Word) (s : State) : BusOnly s (absPointerLong a s).2 := readPointer24_busOnly _ _ _ _

/-- Forming an effective address changes nothing but the platform's answers and the record of bus events. -/
theorem effectiveAddr_busOnly (m : Mode) (s : State) : BusOnly s (effectiveAddr m s).2 := by
  cases m with
  | abs | absX | absY | dp | dpX | dpY | long | longX | sr => exact BusOnly.refl s
  | dpInd | dpXInd | dpIndY => exact directPointer_busOnly _ s
  | dpIndLong | dpIndLongY => exact directPointerLong_busOnly _ s
  | srIndY => exact readPointer16_busOnly _ _ s

theorem readMem_busOnly (m : Mode) (w : Width) (s : State) : BusOnly s (readMem m w s).2 :=
  (effectiveAddr_busOnly m s).trans (memRead_busOnly w _ _)

/-- Reading an operand changes nothing but the platform's answers and the record of bus events. -/
theorem readOperand_busOnly (o : Operand) (w : Width) (s : State) : BusOnly s (readOperand o w s).2 := by
  cases o
  · exact BusOnly.refl s
  · exact readMem_busOnly _ w s

theorem immValue_lt (w : Width) (v : Imm) : (immValue w v).toNat < 2 ^ w.bits := by
  cases v <;> exact truncTo_lt _ _

/-- An operand of width w has w bits. -/
theorem readOperand_lt (o : Operand) (w : Width) (s : State) : (readOperand o w s).1.toNat < 2 ^ w.bits := by
  cases o
  · exact immValue_lt w _
  · exact memRead_lt w _ _

/-- A value of w bits is its own truncation. -/
theorem truncTo_of_lt (w : Width) (v : Word) (h : v.toNat < 2 ^ w.bits) : truncTo w v = v :=
  BitVec.eq_of_toNat_eq (by rw [truncTo_toNat, Nat.mod_eq_of_lt h])

theorem acc_lt (w : Width) (s : State) : (acc w s).toNat < 2 ^ w.bits := truncTo_lt _ _

@[simp] theorem truncTo_readOperand (o : Operand) (w : Width) (s : State) :
    truncTo w (readOperand o w s).1 = (readOperand o w s).1 := truncTo_of_lt _ _ (readOperand_lt o w s)

@[simp] theorem truncTo_acc (w : Width) (s : State) : truncTo w (acc w s) = acc w s := truncTo_truncTo _ _

/-- A store through a mode: everything outside the stored bytes, the answers and the record is as it was. -/
theorem writeMem_frame (m : Mode) (w : Width) (v : Word) (s : State) :
    writeMem m w v s = { s with mem := (writeMem m w v s).mem, answers := (writeMem m w v s).answers,
                                events := (writeMem m w v s).events } := by
  have h := effectiveAddr_busOnly m s
  have h' := memWrite_busStore w (effectiveAddr m s).1 v (effectiveAddr m s).2
  unfold BusOnly at h
  unfold BusStore at h'
  show memWrite w (effectiveAddr m s).1 v (effectiveAddr m s).2 = _
  unfold writeMem
  rw [h'] ; rw [h]

@[simp] theorem effectiveAddr_mem (m : Mode) (s : State) : (effectiveAddr m s).2.mem = s.mem := by
  rw [effectiveAddr_busOnly m s]

/-- Memory after a store through a mode. -/
theorem writeMem_other (m : Mode) (w : Width) (v : Word) (s : State) (a : Addr) (h : a ∉ storedAt w (effectiveAddr m s).1) :
    (writeMem m w v s).mem.read a.toNat = s.mem.read a.toNat := by
  show (memWrite w (effectiveAddr m s).1 v (effectiveAddr m s).2).mem.read _ = _
  rw [memWrite_other w _ v _ a h, effectiveAddr_mem]

theorem writeMem_wf (m : Mode) (w : Width) (v : Word) (s : State) (h : s.mem.wf) : (writeMem m w v s).mem.wf :=
  memWrite_wf _ _ _ _ (by rw [effectiveAddr_mem]; exact h)

end Sys2Proof.Machine
end

