-- ==== Sys2Proof/Laws/Stack.lean ====
section
/-! SUPPORT. The stack primitives: what a push or a pull can change, and where S ends. -/

namespace Sys2Proof.Machine

/-- `t` differs from `s` at most in S, memory, the answers and the record: what pushes and pulls can do. -/
def StackOnly (s t : State) : Prop :=
  t = { s with S := t.S, mem := t.mem, answers := t.answers, events := t.events }

theorem StackOnly.refl (s : State) : StackOnly s s := rfl

theorem StackOnly.trans {s t u : State} (h : StackOnly s t) (h' : StackOnly t u) : StackOnly s u := by
  unfold StackOnly at *; rw [h', h]

theorem push8_stackOnly (r : StackRule) (v : Byte) (s : State) : StackOnly s (push8 r v s) := rfl

theorem push16_stackOnly (r : StackRule) (v : Word) (s : State) : StackOnly s (push16 r v s) :=
  (push8_stackOnly r _ s).trans (push8_stackOnly r _ _)

theorem pull8_stackOnly (r : StackRule) (s : State) : StackOnly s (pull8 r s).2 := rfl

theorem pull16_stackOnly (r : StackRule) (s : State) : StackOnly s (pull16 r s).2 :=
  (pull8_stackOnly r s).trans (pull8_stackOnly r _)

theorem settleStack_stackOnly (s : State) : StackOnly s (settleStack s) := rfl

theorem pushW_stackOnly (w : Width) (v : Word) (s : State) : StackOnly s (pushW w v s) := by
  cases w
  · exact push8_stackOnly _ _ _
  · exact push16_stackOnly _ _ _

theorem pullW_stackOnly (w : Width) (s : State) : StackOnly s (pullW w s).2 := by
  cases w
  · exact pull8_stackOnly _ _
  · exact pull16_stackOnly _ _

@[simp] theorem push8_S (r : StackRule) (v : Byte) (s : State) : (push8 r v s).S = decS r s := rfl

@[simp] theorem push8_E (r : StackRule) (v : Byte) (s : State) : (push8 r v s).E = s.E := rfl

@[simp] theorem push8_mem (r : StackRule) (v : Byte) (s : State) :
    (push8 r v s).mem = s.mem.write (mkAddr 0x00 s.S).toNat v := rfl

@[simp] theorem pull8_S (r : StackRule) (s : State) : (pull8 r s).2.S = incS r s := rfl

@[simp] theorem pull8_E (r : StackRule) (s : State) : (pull8 r s).2.E = s.E := rfl

@[simp] theorem pull8_mem (r : StackRule) (s : State) : (pull8 r s).2.mem = s.mem := rfl

theorem push8_wf (r : StackRule) (v : Byte) (s : State) (h : s.mem.wf) : (push8 r v s).mem.wf :=
  Memory.write_wf _ _ _ (mkAddr 0x00 s.S).isLt h

theorem push16_wf (r : StackRule) (v : Word) (s : State) (h : s.mem.wf) : (push16 r v s).mem.wf :=
  push8_wf r _ _ (push8_wf r _ _ h)

theorem pushW_wf (w : Width) (v : Word) (s : State) (h : s.mem.wf) : (pushW w v s).mem.wf := by
  cases w
  · exact push8_wf _ _ _ h
  · exact push16_wf _ _ _ h

theorem pull16_mem (r : StackRule) (s : State) : (pull16 r s).2.mem = s.mem := rfl

theorem pullW_mem (w : Width) (s : State) : (pullW w s).2.mem = s.mem := by cases w <;> rfl

/-- What `EMU_STACK_LINEAR` selects, without the comparison (20_memory R75). -/
theorem emuStackChoice_eq (wrapped stepped : Word) :
    emuStackChoice wrapped stepped = if Config.emuStackLinear then stepped else wrapped := by
  unfold emuStackChoice
  split
  · rename_i h; rw [h]; simp
  · rfl

/-- In emulation mode the legacy rule keeps SH at 0x01 (20_memory R74). -/
theorem decS_legacy_high (s : State) (h : s.E = true) : highByte (decS .legacy s) = 0x01 := by
  simp [decS, h]

theorem incS_legacy_high (s : State) (h : s.E = true) : highByte (incS .legacy s) = 0x01 := by
  simp [incS, h]

/-- In emulation mode the end of a wide stack instruction puts SH at 0x01 (20_memory R75). -/
theorem settleStack_high (s : State) (h : s.E = true) : highByte (settleStack s).S = 0x01 := by
  simp [h]

theorem settleStack_native (s : State) (h : s.E = false) : settleStack s = s := by
  unfold settleStack setS
  rw [if_neg (by simp [h])]

/-- In native mode both stack rules step S by one (20_memory R74). -/
theorem decS_native (r : StackRule) (s : State) (h : s.E = false) : decS r s = s.S - 1 := by
  simp [decS, h]

theorem incS_native (r : StackRule) (s : State) (h : s.E = false) : incS r s = s.S + 1 := by
  simp [incS, h]

end Sys2Proof.Machine
end

