-- ==== Sys2Proof/Laws/Flags.lean ====
section
/-! SUPPORT. The flag rules in numbers, and what each shared operation of the instructions can change. -/

namespace Sys2Proof.Machine

theorem busOnly_fields {s t : State} (h : BusOnly s t) :
    ∃ answers events, t = { s with answers := answers, events := events } :=
  ⟨_, _, h⟩

theorem stackOnly_fields {s t : State} (h : StackOnly s t) :
    ∃ sp mem answers events, t = { s with S := sp, mem := mem, answers := answers, events := events } :=
  ⟨_, _, _, _, h⟩

theorem width_le (w : Width) : 2 ^ w.bits ≤ 65536 := by cases w <;> simp [Width.bits]

/-- The top bit is the sign of the number. -/
theorem topBit_eq_sign (w : Width) (v : Word) : topBit w v = signOf w v.toNat := by
  have h := v.isLt
  cases w <;>
  · simp only [topBit, signOf, Width.bits, BitVec.getLsbD, Nat.testBit_eq_decide_div_mod_eq]
    congr 1; simp; omega

/-- The Z flag of SetZN, in numbers. -/
theorem truncTo_eq_zero (w : Width) (v : Word) : (truncTo w v == 0) = decide (v.toNat % 2 ^ w.bits = 0) := by
  rw [← truncTo_toNat, Bool.eq_iff_iff, beq_iff_eq, decide_eq_true_eq]
  exact ⟨fun h => by rw [h]; rfl, fun h => BitVec.eq_of_toNat_eq h⟩

/-- SetZN sets Z and N from the value at its width (00_scope R11). -/
theorem setZN_follows (w : Width) (v : Word) (s : State) : FollowsZN w v.toNat (setZN w v s).P :=
  ⟨truncTo_eq_zero w v, topBit_eq_sign w v⟩

@[simp] theorem signOf_mod (w : Width) (n : Nat) : signOf w (n % 2 ^ w.bits) = signOf w n := by simp [signOf]

@[simp] theorem followsZN_mod (w : Width) (n : Nat) (p : Status) : FollowsZN w (n % 2 ^ w.bits) p ↔ FollowsZN w n p := by
  simp [FollowsZN]

/-- The accumulator at a width after it is written at that width. -/
@[simp] theorem acc_setAcc (w : Width) (v : Word) (s : State) : acc w (setAcc w v s) = truncTo w v := by
  cases w <;> simp [acc, truncTo, setAcc]

/-- A write of the accumulator at width 8 keeps AH (10_state R21). -/
theorem setAcc_keepsHigh (w : Width) (v : Word) (s : State) : KeepsHigh w s (setAcc w v s) := by
  rintro rfl; simp

/-- What a value that has been written at width w reads as in memory. -/
theorem memoryValue_memWrite (w : Width) (ea : Ea) (v : Word) (s : State) :
    memoryValue w (memWrite w ea v s) ea = v.toNat % 2 ^ w.bits := by
  cases w
  · show ((memWrite .w8 ea v s).mem.read ea.addr.toNat).toNat = _
    rw [memWrite_low, lowByte_toNat]; rfl
  · show ((memWrite .w16 ea v s).mem.read ea.addr.toNat).toNat
      + 256 * ((memWrite .w16 ea v s).mem.read (nextEa ea).addr.toNat).toNat = _
    rw [memWrite_low, memWrite16_high, lowByte_toNat, highByte_toNat]
    have := v.isLt
    simp only [Width.bits]; omega

/-- A value of memory depends on memory alone. -/
theorem memoryValue_congr (w : Width) (s t : State) (ea : Ea) (h : t.mem = s.mem) :
    memoryValue w t ea = memoryValue w s ea := by
  cases w <;> simp [memoryValue, byteAt, h]

theorem byteAt_congr {s t : State} (h : t.mem = s.mem) (a : Addr) : byteAt t a = byteAt s a := by simp [byteAt, h]

/-- A write of memory changes the stored bytes and the record alone. -/
theorem memWrite_stores (w : Width) (ea : Ea) (v : Word) (s : State) : Stores (storedAt w ea) s (memWrite w ea v s) := by
  refine ⟨?_, fun a ha => memWrite_other w ea v s a ha⟩
  cases w <;> rfl

/-- Writing a result to the accumulator with Z and N, after a read. -/
theorem setZN_setAcc_reads (w : Width) (r : Word) (s u : State) (h : BusOnly s u) :
    let t := setZN w r (setAcc w r u)
    Reads { s with A := t.A, P := { s.P with N := t.P.N, Z := t.P.Z } } t := by
  obtain ⟨an, ev, rfl⟩ := busOnly_fields h
  cases w <;> rfl

/-- What ADC and SBC can change: the accumulator, N, V, Z, C and the draw counter. -/
theorem writeAlu_reads (w : Width) (out : AluOut) (s u : State) (h : BusOnly s u) :
    let t := writeAlu w out u
    Reads { s with A := t.A, P := { s.P with N := t.P.N, V := t.P.V, Z := t.P.Z, C := t.P.C }, draws := t.draws } t := by
  obtain ⟨an, ev, rfl⟩ := busOnly_fields h
  cases w <;> rfl

/-- What a logical instruction can change: the accumulator, N and Z. -/
theorem logical_reads (f : Word → Word → Word) (o : Operand) (s : State) :
    let t := logical f o s
    Reads { s with A := t.A, P := { s.P with N := t.P.N, Z := t.P.Z } } t :=
  setZN_setAcc_reads _ _ s _ (readOperand_busOnly o (mW s) s)

/-- What a comparison can change: N, Z and C. -/
theorem compare_reads (w : Width) (g b : Word) (s u : State) (h : BusOnly s u) :
    Reads { s with P := { s.P with N := (compare w g b u).P.N, Z := (compare w g b u).P.Z, C := (compare w g b u).P.C } }
      (compare w g b u) := by
  obtain ⟨an, ev, rfl⟩ := busOnly_fields h
  rfl

/-- The read-modify-write of memory: the state before its write differs from the first in the answers and the record. -/
theorem readMem_eq (m : Mode) (w : Width) (s : State) :
    readMem m w s = memRead w (effectiveAddr m s).1 (effectiveAddr m s).2 := rfl

/-- The index registers after P is pulled (10_state R23). -/
theorem clearIndexHigh_eq (s : State) :
    clearIndexHigh s =
    { s with X := if s.P.X then zext (lowByte s.X) else s.X, Y := if s.P.X then zext (lowByte s.Y) else s.Y } := by
  unfold clearIndexHigh
  cases h : s.P.X <;> rfl

/-- Pulling P: P, X and Y alone change (48_stack_transfer R273). -/
theorem pullP_eq (v : Byte) (s : State) :
    let p := if s.E then { unpackP v with M := true, X := true } else unpackP v
    pullP v s =
      { s with P := p, X := if p.X then zext (lowByte s.X) else s.X, Y := if p.X then zext (lowByte s.Y) else s.Y } := by
  unfold pullP
  rw [clearIndexHigh_eq]

end Sys2Proof.Machine
end

