-- ==== Sys2Proof/Laws/Decimal.lean ====
section
/-! SUPPORT. The decimal digit loops of ADC and SBC. -/

namespace Sys2Proof.Machine

/-- Decimal digits, one digit at a time. -/
theorem decimalDigits_succ (k v : Nat) :
    decimalDigits (k + 1) v = true ↔ v % 16 ≤ 9 ∧ decimalDigits k (v / 16) = true := by simp [decimalDigits]

/-- A number of k decimal digits is below 10^k. -/
theorem decimalValue_lt (k v : Nat) (h : decimalDigits k v = true) : decimalValue k v < 10 ^ k := by
  induction k generalizing v with
  | zero => simp [decimalValue]
  | succ k ih =>
    simp [decimalDigits] at h
    have := ih _ h.2
    simp only [decimalValue, pow_succ]; omega

/-- The digits of a width have all its bits. -/
theorem pow_digits (w : Width) : 16 ^ digits w = 2 ^ w.bits := by cases w <;> rfl

/-- The digit loop of AdcDec on decimal digits: sum and carry of the decimal numbers (40_arith R142, R143). -/
theorem adcDigits_spec (k a b c : Nat) (ha : decimalDigits k a = true) (hb : decimalDigits k b = true) (hc : c ≤ 1) :
   let r := adcDigits k a b c
   decimalDigits k r.1 = true ∧ decimalValue k r.1 + 10 ^ k * r.2 = decimalValue k a + decimalValue k b + c ∧ r.2 ≤ 1 ∧
     r.1 < 16 ^ k := by
  induction k generalizing a b c with
  | zero => simpa [adcDigits, decimalDigits, decimalValue] using hc
  | succ k ih =>
    simp [decimalDigits] at ha hb
    have hc' : (if a % 16 + b % 16 + c > 9 then 1 else 0) ≤ 1 := by split <;> omega
    obtain ⟨h1, h2, h3, h4⟩ := ih (a / 16) (b / 16) (if a % 16 + b % 16 + c > 9 then 1 else 0) ha.2 hb.2 hc'
    dsimp only; rw [decimalDigits_succ]; simp only [adcDigits, decimalValue, pow_succ]
    generalize hr : adcDigits k (a / 16) (b / 16) (if a % 16 + b % 16 + c > 9 then 1 else 0) = r at *
    generalize hd : (if a % 16 + b % 16 + c > 9 then a % 16 + b % 16 + c - 10 else a % 16 + b % 16 + c) = d
    have hd9 : d ≤ 9 := by rw [← hd]; split <;> omega
    have e1 : (d % 16 + 16 * r.1) % 16 = d := by omega
    have e2 : (d % 16 + 16 * r.1) / 16 = r.1 := by omega
    rw [e1, e2]
    refine ⟨⟨hd9, h1⟩, ?_, h3, by omega⟩
    have : 10 ^ k * 10 * r.2 = 10 * (10 ^ k * r.2) := by ring
    rw [this]
    split at h2 <;> split at hd <;> omega

/-- The digit loop of SbcDec on decimal digits: difference and borrow of the decimal numbers (40_arith R147, R148). -/
theorem sbcDigits_spec (k a b c : Nat) (ha : decimalDigits k a = true) (hb : decimalDigits k b = true) (hc : c ≤ 1) :
   let r := sbcDigits k a b c
   decimalDigits k r.1 = true ∧
     (decimalValue k r.1 : Int) - 10 ^ k * r.2 = (decimalValue k a : Int) - decimalValue k b - c ∧ r.2 ≤ 1 ∧ r.1 < 16 ^ k := by
  induction k generalizing a b c with
  | zero => simpa [sbcDigits, decimalDigits, decimalValue] using hc
  | succ k ih =>
    simp [decimalDigits] at ha hb
    generalize hcc : (if ((a % 16 : Nat) - (b % 16 : Nat) - (c:Int)) < 0 then 1 else 0) = c'
    have hc' : c' ≤ 1 := by rw [← hcc]; split <;> omega
    obtain ⟨h1, h2, h3, h4⟩ := ih (a / 16) (b / 16) c' ha.2 hb.2 hc'
    dsimp only; rw [decimalDigits_succ]; simp only [sbcDigits, decimalValue, pow_succ]
    rw [hcc]
    generalize hr : sbcDigits k (a / 16) (b / 16) c' = r at *
    generalize hd : (if ((a % 16 : Nat) - (b % 16 : Nat) - (c:Int)) < 0 then ((a % 16 : Nat) - (b % 16 : Nat) - (c:Int)) + 10 else ((a % 16 : Nat) - (b % 16 : Nat) - (c:Int))) = d
    have hd0 : 0 ≤ d ∧ d ≤ 9 := by rw [← hd]; split <;> omega
    have e0 : (d % 16).toNat = d.toNat := by omega
    rw [e0]
    have e1 : (d.toNat + 16 * r.1) % 16 = d.toNat := by omega
    have e2 : (d.toNat + 16 * r.1) / 16 = r.1 := by omega
    rw [e1, e2]
    refine ⟨⟨by omega, h1⟩, ?_, h3, by omega⟩
    push_cast
    have : (10:Int) ^ k * 10 * r.2 = 10 * (10 ^ k * r.2) := by ring
    rw [this]
    have e3 : (d.toNat : Int) = d := by omega
    split at hcc <;> split at hd <;> omega

end Sys2Proof.Machine
end

