-- ==== Sys2Proof/Laws/Record.lean ====
section
/-! SUPPORT. The record of bus events: which accesses each shared operation makes, at which addresses and in which order. -/

namespace Sys2Proof.Machine

/-! ### Sequences of accesses -/

/-- `t` has the memory, the answers and the record of `s`: what a change of registers leaves alone. -/
def SameBus (s t : State) : Prop := t.mem = s.mem ∧ t.answers = s.answers ∧ t.events = s.events

theorem SameBus.refl (s : State) : SameBus s s := ⟨rfl, rfl, rfl⟩

theorem SameBus.trans {s t u : State} (h : SameBus s t) (h' : SameBus t u) : SameBus s u :=
  ⟨h'.1.trans h.1, h'.2.1.trans h.2.1, h'.2.2.trans h.2.2⟩

theorem busValue_congr (a : Addr) {s t : State} (hm : t.mem = s.mem) (ha : t.answers = s.answers) :
    busValue a t = busValue a s := by
  unfold busValue; rw [hm, ha]

/-- What follows from a state depends on its memory and answers alone. -/
theorem Follows.congr {new : List BusEvent} {s s' t t' : State} (h : Follows new s t) (hs : SameMemory s s')
    (hs' : s'.answers = s.answers) (ht : SameMemory t t') (ht' : t'.answers = t.answers) : Follows new s' t' := by
  induction new generalizing t t' with
  | nil => exact ⟨fun a => by rw [ht a, h.1 a, hs a], by rw [ht', h.2, hs']⟩
  | cons e older ih =>
    obtain ⟨u, hu, he⟩ := h
    refine ⟨u, ih hu (fun _ => rfl) rfl, ?_⟩
    cases ha : e.access <;> simp only [ha] at he ⊢
    · exact ⟨he.1, fun a => by rw [ht a, he.2.1 a], ht'.trans he.2.2⟩
    · exact ⟨fun a => by rw [ht a, he.1 a], ht'.trans he.2⟩

theorem Follows.trans {new new' : List BusEvent} {s t u : State} (h : Follows new s t) (h' : Follows new' t u) :
    Follows (new' ++ new) s u := by
  induction new' generalizing u with
  | nil => exact h.congr (fun _ => rfl) rfl h'.1 h'.2
  | cons e older ih =>
    obtain ⟨v, hv, he⟩ := h'
    exact ⟨v, ih hv, he⟩

theorem Accesses.refl (s : State) : Accesses [] s s := ⟨[], rfl, rfl, fun _ => rfl, rfl⟩

theorem Accesses.trans {k k' : List (Access × Addr)} {s t u : State} (h : Accesses k s t) (h' : Accesses k' t u) :
    Accesses (k ++ k') s u := by
  obtain ⟨new, e, hk, hf⟩ := h
  obtain ⟨new', e', hk', hf'⟩ := h'
  exact ⟨new' ++ new, by rw [e', e, List.append_assoc], by rw [List.map_append, hk, hk', List.reverse_append], hf.trans hf'⟩

/-- A change of registers before and after the accesses is none of them. -/
theorem Accesses.of_bus {k : List (Access × Addr)} {s s' t t' : State} (h : Accesses k s' t') (hs : SameBus s s')
    (ht : SameBus t' t) : Accesses k s t := by
  obtain ⟨new, e, hk, hf⟩ := h
  exact ⟨new, by rw [ht.2.2, e, hs.2.2], hk, hf.congr (fun a => byteAt_congr hs.1.symm a) hs.2.1.symm
    (fun a => byteAt_congr ht.1 a) ht.2.1⟩

/-- Accesses that end in a change of registers. -/
theorem Accesses.after {k : List (Access × Addr)} {s t u : State} (h : Accesses k s t) (ht : SameBus t u) : Accesses k s u :=
  h.of_bus (.refl s) ht

/-- Accesses that begin with a change of registers. -/
theorem Accesses.before {k : List (Access × Addr)} {s t u : State} (h : Accesses k t u) (hs : SameBus s t) : Accesses k s u :=
  h.of_bus hs (.refl u)

theorem readsAt_append (l l' : List Addr) : readsAt (l ++ l') = readsAt l ++ readsAt l' := List.map_append

theorem writesAt_append (l l' : List Addr) : writesAt (l ++ l') = writesAt l ++ writesAt l' := List.map_append

/-! ### Memory -/

theorem busRead_accesses (a : Addr) (s : State) : Accesses (readsAt [a]) s (busRead a s).2 :=
  ⟨[_], rfl, rfl, s, ⟨fun _ => rfl, rfl⟩, rfl, fun _ => rfl, rfl⟩

theorem byteAt_poke (a b : Addr) (v : Byte) (s : State) : byteAt (poke a v s) b = if b = a then v else byteAt s b := by
  show (s.mem.write a.toNat v).read b.toNat = _
  simp only [Memory.read_write, BitVec.toNat_inj]; rfl

theorem busWrite_accesses (a : Addr) (v : Byte) (s : State) : Accesses (writesAt [a]) s (busWrite a v s) :=
  ⟨[_], rfl, rfl, s, ⟨fun _ => rfl, rfl⟩, fun b => byteAt_poke a b v s, rfl⟩

/-- Answers for two addresses can be used in either order. -/
theorem dropAnswer_comm (l : List Host.Cell) (a b : Nat) (h : b ≠ a) :
    dropAnswer (dropAnswer l a) b = dropAnswer (dropAnswer l b) a := by
  induction l with
  | nil => rfl
  | cons c rest ih =>
    by_cases ha : c.1 = a
    · have hb : ¬ a = b := fun e => h e.symm
      simp [dropAnswer, ha, hb]
    · by_cases hb : c.1 = b
      · simp [dropAnswer, hb, h]
      · simp [dropAnswer, ha, hb, ih]

/-- The record of a read is one event for each byte (20_memory R65). -/
theorem memRead_events (w : Width) (ea : Ea) (s : State) : (memRead w ea s).2.events = readEvents w ea s ++ s.events := by
  cases w
  · rfl
  · have h : (sense (nextEa ea).addr (sense ea.addr s).2).1 = busValue (nextEa ea).addr s := busValue_sense _ _ s (nextEa_ne ea)
    simp only [memRead, memRead16, recordWord, readEvents, wordEvents, h]
    cases Config.wordByteOrder <;> rfl

/-- The record of a write is one event for each byte (20_memory R66). -/
theorem memWrite_events (w : Width) (ea : Ea) (v : Word) (s : State) :
    (memWrite w ea v s).events = writeEvents w ea (memWrite w ea v s) ++ s.events := by
  have hl := memWrite_low w ea v s
  cases w
  · simp only [writeEvents, byteAt, hl]; rfl
  · have hh := memWrite16_high ea v s
    simp only [writeEvents, wordEvents, byteAt, hl, hh]
    simp only [memWrite, memWrite16, recordWord]
    cases Config.wordByteOrder <;> rfl

/-- The events of a write depend on memory alone. -/
theorem writeEvents_congr (w : Width) (ea : Ea) {s t : State} (h : t.mem = s.mem) : writeEvents w ea t = writeEvents w ea s := by
  cases w <;> simp [writeEvents, byteAt, h]

theorem memRead_accesses (w : Width) (ea : Ea) (s : State) : Accesses (readsAt (dataAddrs w ea)) s (memRead w ea s).2 := by
  refine ⟨_, memRead_events w ea s, ?_, ?_⟩
  · cases w
    · rfl
    · simp only [readEvents, wordEvents, dataAddrs, wordAddrs]; cases Config.wordByteOrder <;> rfl
  · cases w
    · exact ⟨s, ⟨fun _ => rfl, rfl⟩, rfl, fun _ => rfl, rfl⟩
    · simp only [readEvents, wordEvents]
      have hn := nextEa_ne ea
      cases Config.wordByteOrder
      · exact ⟨(sense ea.addr s).2, ⟨s, ⟨fun _ => rfl, rfl⟩, rfl, fun _ => rfl, rfl⟩, (busValue_sense _ _ s hn).symm,
          fun _ => rfl, rfl⟩
      · exact ⟨(sense (nextEa ea).addr s).2, ⟨s, ⟨fun _ => rfl, rfl⟩, rfl, fun _ => rfl, rfl⟩,
          (busValue_sense _ _ s hn.symm).symm, fun _ => rfl,
          dropAnswer_comm _ _ _ fun e => hn (BitVec.eq_of_toNat_eq e)⟩

theorem memWrite_accesses (w : Width) (ea : Ea) (v : Word) (s : State) :
    Accesses (writesAt (dataAddrs w ea)) s (memWrite w ea v s) := by
  cases w
  · exact busWrite_accesses ea.addr (lowByte v) s
  · refine ⟨_, memWrite_events .w16 ea v s, ?_, ?_⟩
    · simp only [writeEvents, wordEvents, dataAddrs, wordAddrs]; cases Config.wordByteOrder <;> rfl
    · have hn := nextEa_ne ea
      have hl : byteAt (memWrite .w16 ea v s) ea.addr = lowByte v := memWrite_low _ _ _ _
      have hh : byteAt (memWrite .w16 ea v s) (nextEa ea).addr = highByte v := memWrite16_high _ _ _
      have hm : ∀ a, byteAt (memWrite .w16 ea v s) a =
          if a = (nextEa ea).addr then highByte v else if a = ea.addr then lowByte v else byteAt s a :=
        fun a => (byteAt_poke _ a _ _).trans (by rw [byteAt_poke])
      simp only [writeEvents, wordEvents, hl, hh]
      cases Config.wordByteOrder
      · exact ⟨poke ea.addr (lowByte v) s, ⟨s, ⟨fun _ => rfl, rfl⟩, fun b => byteAt_poke _ b _ s, rfl⟩,
          fun a => by rw [hm, byteAt_poke], rfl⟩
      · refine ⟨poke (nextEa ea).addr (highByte v) s, ⟨s, ⟨fun _ => rfl, rfl⟩, fun b => byteAt_poke _ b _ s, rfl⟩, fun a => ?_, rfl⟩
        rw [hm, byteAt_poke]
        by_cases h : a = ea.addr
        · subst h; simp [hn.symm]
        · simp [h]

/-! ### Operands -/

theorem readPointer16_accesses (lo hi : Ea) (s : State) : Accesses (readsAt [lo.addr, hi.addr]) s (readPointer16 lo hi s).2 :=
  (busRead_accesses lo.addr s).trans (busRead_accesses hi.addr _)

theorem readPointer24_accesses (b0 b1 b2 : Ea) (s : State) :
    Accesses (readsAt [b0.addr, b1.addr, b2.addr]) s (readPointer24 b0 b1 b2 s).2 :=
  (readPointer16_accesses b0 b1 s).trans (busRead_accesses b2.addr _)

theorem absPointer_accesses (a : Word) (s : State) :
    Accesses (readsAt [mkAddr 0x00 a, mkAddr 0x00 (a + 1)]) s (absPointer a s).2 :=
  readPointer16_accesses _ _ s

theorem absPointerX_accesses (a : Word) (s : State) :
    Accesses (readsAt [mkAddr s.PBR (a + s.X), mkAddr s.PBR (a + s.X + 1)]) s (absPointerX a s).2 :=
  readPointer16_accesses _ _ s

theorem absPointerLong_accesses (a : Word) (s : State) :
    Accesses (readsAt [mkAddr 0x00 a, mkAddr 0x00 (a + 1), mkAddr 0x00 (a + 2)]) s (absPointerLong a s).2 :=
  readPointer24_accesses _ _ _ s

/-- Forming an effective address reads its pointer and nothing else (30_encoding R99 to R109). -/
theorem effectiveAddr_accesses (m : Mode) (s : State) : Accesses (readsAt (pointerAddrs m s)) s (effectiveAddr m s).2 := by
  cases m with
  | abs | absX | absY | dp | dpX | dpY | long | longX | sr => exact Accesses.refl s
  | dpInd | dpXInd | dpIndY => exact readPointer16_accesses _ _ s
  | dpIndLong | dpIndLongY => exact readPointer24_accesses _ _ _ s
  | srIndY k =>
    have h := readPointer16_accesses (stackAddr k s) (nextEa (stackAddr k s)) s
    have e : nextEa (stackAddr k s) = bank0 (s.S + zext k + 1) := nextEa_bank0 _
    rw [show readsAt [(stackAddr k s).addr, (nextEa (stackAddr k s)).addr] = readsAt (pointerAddrs (.srIndY k) s) by
      rw [e]; rfl] at h
    exact h

theorem readMem_accesses (m : Mode) (w : Width) (s : State) : Accesses (memReads m w s) s (readMem m w s).2 :=
  (effectiveAddr_accesses m s).trans (memRead_accesses w _ _)

theorem readOperand_accesses (o : Operand) (w : Width) (s : State) :
    Accesses (operandReads o w s) s (readOperand o w s).2 := by
  cases o
  · exact Accesses.refl s
  · exact readMem_accesses _ w s

/-- The record of a store (44_load_store R193). -/
theorem writeMem_record (m : Mode) (w : Width) (v : Word) (s : State) : StoreRecord w m s (writeMem m w v s) :=
  memWrite_events w _ v _

theorem writeMem_accesses (m : Mode) (w : Width) (v : Word) (s : State) :
    Accesses (storeAccesses m w s) s (writeMem m w v s) :=
  (effectiveAddr_accesses m s).trans (memWrite_accesses w _ v _)

/-! ### Changes of registers -/

theorem setAcc_sameBus (w : Width) (v : Word) (s : State) : SameBus s (setAcc w v s) := ⟨by simp, by simp, by simp⟩

theorem setZN_sameBus (w : Width) (v : Word) (s : State) : SameBus s (setZN w v s) := ⟨rfl, rfl, rfl⟩

theorem writeAlu_sameBus (w : Width) (out : AluOut) (s : State) : SameBus s (writeAlu w out s) :=
  ⟨by simp [writeAlu], by simp [writeAlu], by simp [writeAlu]⟩

theorem compare_sameBus (w : Width) (g b : Word) (s : State) : SameBus s (compare w g b s) := ⟨rfl, rfl, rfl⟩

theorem clearIndexHigh_sameBus (s : State) : SameBus s (clearIndexHigh s) := by
  rw [clearIndexHigh_eq]; exact ⟨rfl, rfl, rfl⟩

theorem pullP_sameBus (v : Byte) (s : State) : SameBus s (pullP v s) := by
  rw [pullP_eq]; exact ⟨rfl, rfl, rfl⟩

/-- The end of an instruction of the wide stack rule makes no access. -/
theorem settleStack_sameBus (s : State) : SameBus s (settleStack s) := ⟨rfl, rfl, rfl⟩

/-- A change of PC makes no access. -/
theorem jump_sameBus (s : State) (pc : Word) : SameBus s { s with PC := pc } := ⟨rfl, rfl, rfl⟩

/-- A change of PBR and PC makes no access. -/
theorem jumpLong_sameBus (s : State) (bank : Byte) (pc : Word) : SameBus s { s with PBR := bank, PC := pc } := ⟨rfl, rfl, rfl⟩

/-! ### Read-modify-write -/

/-- A read-modify-write of a place: whatever follows the write leaves the bus as the write left it, and whatever comes between
read and write leaves it as the read left it. -/
theorem modify_of (w : Width) (m : Mode) (r : Word) (s u t : State) (hu : SameBus (readMem m w s).2 u)
    (ht : SameBus (memWrite w (effectiveAddr m s).1 r u) t) :
    ModifyRecord w m s t ∧ Accesses (modifyAccesses (.mem m) w s) s t := by
  refine ⟨?_, (((readMem_accesses m w s).after hu).trans (memWrite_accesses w _ r u)).after ht⟩
  show t.events = _
  rw [ht.2.2, memWrite_events, hu.2.2, readMem_eq, memRead_events, ← writeEvents_congr w _ ht.1]

theorem modifyMem_bus (f : Width → Word → Bool → Word × Bool) (m : Mode) (s : State) :
    let t := modifyWithCarry f (.mem m) s
    ModifyRecord (mW s) m s t ∧ Accesses (modifyAccesses (.mem m) (mW s) s) s t :=
  modify_of _ _ (f (mW s) (readMem m (mW s) s).1 s.P.C).1 s
    (setC (f (mW s) (readMem m (mW s) s).1 s.P.C).2 (readMem m (mW s) s).2) _ ⟨rfl, rfl, rfl⟩ ⟨rfl, rfl, rfl⟩

theorem modifyStepMem_bus (f : Width → Word → Word) (m : Mode) (s : State) :
    let t := modifyStep f (.mem m) s
    ModifyRecord (mW s) m s t ∧ Accesses (modifyAccesses (.mem m) (mW s) s) s t :=
  modify_of _ _ (f (mW s) (readMem m (mW s) s).1) s (readMem m (mW s) s).2 _ ⟨rfl, rfl, rfl⟩ ⟨rfl, rfl, rfl⟩

theorem testModify_bus (f : Word → Word → Word) (m : Mode) (s : State) :
    let t := testModify f m s
    ModifyRecord (mW s) m s t ∧ Accesses (modifyAccesses (.mem m) (mW s) s) s t :=
  modify_of _ _ (f (readMem m (mW s) s).1 (acc (mW s) s)) s
    (setZ (acc (mW s) s &&& (readMem m (mW s) s).1 == 0) (readMem m (mW s) s).2) _ ⟨rfl, rfl, rfl⟩ ⟨rfl, rfl, rfl⟩

theorem modifyWithCarry_accesses (f : Width → Word → Bool → Word × Bool) (t : Target) (s : State) :
    Accesses (modifyAccesses t (mW s) s) s (modifyWithCarry f t s) := by
  cases t
  · exact (Accesses.refl s).after ⟨by simp [modifyWithCarry], by simp [modifyWithCarry], by simp [modifyWithCarry]⟩
  · exact (modifyMem_bus f _ s).2

theorem modifyStep_accesses (f : Width → Word → Word) (t : Target) (s : State) :
    Accesses (modifyAccesses t (mW s) s) s (modifyStep f t s) := by
  cases t
  · exact (Accesses.refl s).after ⟨by simp [modifyStep], by simp [modifyStep], by simp [modifyStep]⟩
  · exact (modifyStepMem_bus f _ s).2

/-! ### The stack -/

theorem push8_accesses (r : StackRule) (v : Byte) (s : State) : Accesses (writesAt (pushSlots r 1 s)) s (push8 r v s) :=
  (busWrite_accesses (mkAddr 0x00 s.S) v s).after ⟨rfl, rfl, rfl⟩

theorem pull8_accesses (r : StackRule) (s : State) : Accesses (readsAt (pullSlots r 1 s)) s (pull8 r s).2 :=
  (busRead_accesses (mkAddr 0x00 (incS r s)) _).before ⟨rfl, rfl, rfl⟩

end Sys2Proof.Machine
end

