-- ==== Sys2Proof/Laws/Effects.lean ====
section
/-! SUPPORT. One lemma for each shared operation of the instructions: everything it does. -/

namespace Sys2Proof.Machine

/-- Everything that the end of ADC and SBC does (40_arith R140, R145). -/
theorem writeAlu_spec (w : Width) (out : AluOut) (s u : State) (h : BusOnly s u) :
   let t := writeAlu w out u
   acc w t = truncTo w out.result ∧ KeepsHigh w s t ∧ t.P.C = out.carry ∧ t.P.V = out.overflow ∧
     FollowsZN w out.result.toNat t.P ∧ t.draws = s.draws + out.drawn ∧ SameMemory s t ∧
   Reads { s with A := t.A, P := { s.P with N := t.P.N, V := t.P.V, Z := t.P.Z, C := t.P.C }, draws := t.draws } t := by
  intro t
  refine ⟨?_, ?_, ?_, ?_, setZN_follows _ _ _, ?_, ?_, writeAlu_reads w out s u h⟩
  · show acc w (writeAlu w out u) = _
    cases w <;> simp [writeAlu, acc, truncTo]
  · obtain ⟨an, ev, rfl⟩ := busOnly_fields h
    rintro rfl; show highByte (writeAlu _ out _).A = _; simp [writeAlu]
  · show (writeAlu w out u).P.C = _; cases w <;> rfl
  · show (writeAlu w out u).P.V = _; cases w <;> rfl
  · obtain ⟨an, ev, rfl⟩ := busOnly_fields h
    show (writeAlu w out _).draws = _; cases w <;> rfl
  · obtain ⟨an, ev, rfl⟩ := busOnly_fields h
    intro a; show (writeAlu w out _).mem.read _ = _; cases w <;> rfl

/-- A result of width w that goes to the accumulator, with Z and N, after a read. -/
theorem accResult_spec (w : Width) (r : Word) (s u : State) (h : BusOnly s u) (hr : r.toNat < 2 ^ w.bits) :
    let t := setZN w r (setAcc w r u)
    acc w t = r ∧ KeepsHigh w s t ∧ FollowsZN w r.toNat t.P ∧ SameMemory s t ∧
      Reads { s with A := t.A, P := { s.P with N := t.P.N, Z := t.P.Z } } t := by
  refine ⟨(acc_setAcc w r u).trans (truncTo_of_lt w r hr), ?_, setZN_follows w r _, ?_, setZN_setAcc_reads w r s u h⟩
  · obtain ⟨an, ev, rfl⟩ := busOnly_fields h
    rintro rfl; exact setAcc_keepsHigh .w8 r s rfl
  · obtain ⟨an, ev, rfl⟩ := busOnly_fields h
    intro a; cases w <;> rfl

/-- A result of width w that goes to X, with Z and N, after a read. -/
theorem xResult_spec (w : Width) (r : Word) (s u : State) (h : BusOnly s u) (hr : r.toNat < 2 ^ w.bits) :
    let t := setZN w r (setX w r u)
    t.X = r ∧ FollowsZN w r.toNat t.P ∧ SameMemory s t ∧
      Reads { s with X := t.X, P := { s.P with N := t.P.N, Z := t.P.Z } } t := by
  obtain ⟨an, ev, rfl⟩ := busOnly_fields h
  exact ⟨truncTo_of_lt w r hr, setZN_follows w r _, fun a => rfl, rfl⟩

/-- A result of width w that goes to Y, with Z and N, after a read. -/
theorem yResult_spec (w : Width) (r : Word) (s u : State) (h : BusOnly s u) (hr : r.toNat < 2 ^ w.bits) :
    let t := setZN w r (setY w r u)
    t.Y = r ∧ FollowsZN w r.toNat t.P ∧ SameMemory s t ∧
      Reads { s with Y := t.Y, P := { s.P with N := t.P.N, Z := t.P.Z } } t := by
  obtain ⟨an, ev, rfl⟩ := busOnly_fields h
  exact ⟨truncTo_of_lt w r hr, setZN_follows w r _, fun a => rfl, rfl⟩

/-- Everything that a logical instruction does (41_logical R160 to R163). -/
theorem logical_spec (f : Word → Word → Word) (o : Operand) (s : State)
    (hf : (f (acc (mW s) s) (readOperand o (mW s) s).1).toNat < 2 ^ (mW s).bits) :
    let r := f (acc (mW s) s) (readOperand o (mW s) s).1
    let t := logical f o s
    acc (mW s) t = r ∧ KeepsHigh (mW s) s t ∧ FollowsZN (mW s) r.toNat t.P ∧ SameMemory s t ∧
      Reads { s with A := t.A, P := { s.P with N := t.P.N, Z := t.P.Z } } t :=
  accResult_spec _ _ _ _ (readOperand_busOnly o _ s) hf

/-- Everything that a shift or rotate of the accumulator does (42_shift_rotate frame). -/
theorem modifyAcc_spec (f : Width → Word → Bool → Word × Bool) (s : State) :
    let w := mW s
    let r := f w (acc w s) s.P.C
    let t := modifyWithCarry f .acc s
    acc w t = truncTo w r.1 ∧ KeepsHigh w s t ∧ t.P.C = r.2 ∧ FollowsZN w r.1.toNat t.P ∧ SameMemory s t ∧
      t.cycles = s.cycles + oneUnit ∧
      Reads { s with A := t.A, P := { s.P with N := t.P.N, Z := t.P.Z, C := t.P.C }, cycles := t.cycles } t := by
  dsimp only
  unfold modifyWithCarry
  dsimp only
  refine ⟨?_, ?_, ?_, ?_, ?_, ?_, ?_⟩
  · generalize (mW s) = w
    cases w <;> simp [acc, truncTo]
  · intro hw; rw [hw]; simp
  · generalize (mW s) = w; cases w <;> rfl
  · exact setZN_follows _ _ _
  · intro a; simp [byteAt]
  · simp [oneUnit]
  · generalize (mW s) = w; cases w <;> rfl

/-- Everything that a shift or rotate of memory does (42_shift_rotate frame). -/
theorem modifyMem_spec (f : Width → Word → Bool → Word × Bool) (m : Mode) (s : State) :
    let w := mW s
    let ea := (effectiveAddr m s).1
    let r := f w (readMem m w s).1 s.P.C
    let t := modifyWithCarry f (.mem m) s
    ModifyRecord w m s t ∧ memoryValue w t ea = r.1.toNat % 2 ^ w.bits ∧ t.P.C = r.2 ∧ FollowsZN w r.1.toNat t.P ∧
      t.cycles = s.cycles + oneUnit ∧
      Stores (storedAt w ea) { s with P := { s.P with N := t.P.N, Z := t.P.Z, C := t.P.C }, cycles := t.cycles } t := by
  refine ⟨(modifyMem_bus f m s).1, ?_⟩
  dsimp only
  unfold modifyWithCarry
  dsimp only
  rw [← readMem_eq]
  obtain ⟨an, ev, e⟩ := busOnly_fields (readMem_busOnly m (mW s) s)
  generalize hr : f (mW s) (readMem m (mW s) s).1 s.P.C = r
  rw [e]
  generalize (mW s) = w at *
  generalize (effectiveAddr m s).1 = ea
  refine ⟨?_, ?_, ?_, ?_, ?_, ?_⟩
  · rw [← memoryValue_memWrite w ea r.1 (setC r.2 { s with answers := an, events := ev })]
    exact memoryValue_congr _ _ _ _ rfl
  · cases w <;> rfl
  · exact setZN_follows _ _ _
  · cases w <;> rfl
  · cases w <;> rfl
  · intro a ha
    exact memWrite_other w ea r.1 _ a ha

theorem busStore_fields {s t : State} (h : BusStore s t) : ∃ mem events, t = { s with mem := mem, events := events } :=
  ⟨_, _, h⟩

/-- Everything that INC and DEC of the accumulator do (43_incdec frame). -/
theorem modifyStepAcc_spec (f : Width → Word → Word) (s : State) (hf : (f (mW s) (acc (mW s) s)).toNat < 2 ^ (mW s).bits) :
    let w := mW s
    let r := f w (acc w s)
    let t := modifyStep f .acc s
    acc w t = r ∧ KeepsHigh w s t ∧ FollowsZN w r.toNat t.P ∧ t.cycles = s.cycles + oneUnit ∧
    t.waitAddress = (if Config.cpuShutdown then none else s.waitAddress) ∧ SameMemory s t ∧ 
      Reads { s with A := t.A, P := { s.P with N := t.P.N, Z := t.P.Z }, cycles := t.cycles, waitAddress := t.waitAddress } t := by
  dsimp only
  obtain ⟨h1, h2, h3, h4, h5⟩ := accResult_spec (mW s) _ s s (BusOnly.refl s) hf
  refine ⟨h1, h2, h3, ?_, ?_, h4, ?_⟩ <;> (unfold modifyStep; dsimp only; generalize mW s = w; cases w <;> rfl)

/-- Everything that INC and DEC of memory do (43_incdec frame). -/
theorem modifyStepMem_spec (f : Width → Word → Word) (m : Mode) (s : State) :
    let w := mW s
    let ea := (effectiveAddr m s).1
    let r := f w (readMem m w s).1
    let t := modifyStep f (.mem m) s
    ModifyRecord w m s t ∧ memoryValue w t ea = r.toNat % 2 ^ w.bits ∧ FollowsZN w r.toNat t.P ∧ t.cycles = s.cycles + oneUnit ∧
    t.waitAddress = (if Config.cpuShutdown then none else s.waitAddress) ∧
      Stores (storedAt w ea) { s with P := { s.P with N := t.P.N, Z := t.P.Z }, cycles := t.cycles, waitAddress := t.waitAddress } t := by
  refine ⟨(modifyStepMem_bus f m s).1, ?_⟩
  dsimp only
  unfold modifyStep
  dsimp only
  rw [← readMem_eq]
  obtain ⟨an, ev, e⟩ := busOnly_fields (readMem_busOnly m (mW s) s)
  generalize hr : f (mW s) (readMem m (mW s) s).1 = r
  rw [e]
  generalize (mW s) = w at *
  generalize (effectiveAddr m s).1 = ea
  have hm := memoryValue_memWrite w ea r { s with answers := an, events := ev }
  have ho := memWrite_other w ea r { s with answers := an, events := ev }
  obtain ⟨mm, ev', e'⟩ := busStore_fields (memWrite_busStore w ea r { s with answers := an, events := ev })
  rw [e'] at hm ho ⊢
  refine ⟨?_, setZN_follows _ _ _, rfl, rfl, rfl, fun a ha => ho a ha⟩
  rw [← hm]
  exact memoryValue_congr _ _ _ _ rfl

/-- Everything that a store does (44_load_store R193). -/
theorem writeMem_spec (m : Mode) (w : Width) (v : Word) (s : State) :
    StoreRecord w m s (writeMem m w v s) ∧ memoryValue w (writeMem m w v s) (effectiveAddr m s).1 = v.toNat % 2 ^ w.bits ∧
    Stores (storedAt w (effectiveAddr m s).1) s (writeMem m w v s) :=
  ⟨writeMem_record m w v s, memoryValue_memWrite _ _ _ _, writeMem_frame m w v s, fun a ha => writeMem_other m w v s a ha⟩

/-- Everything that TSB and TRB do (46_bit_test R222, R223). -/
theorem testModify_spec (f : Word → Word → Word) (m : Mode) (s : State) :
    let w := mW s
    let ea := (effectiveAddr m s).1
    let v := (readMem m w s).1
    let t := testModify f m s
    ModifyRecord w m s t ∧ t.P.Z = decide (acc w s &&& v = 0) ∧ memoryValue w t ea = (f v (acc w s)).toNat % 2 ^ w.bits ∧
    t.cycles = s.cycles + oneUnit ∧
      Stores (storedAt w ea) { s with P := { s.P with Z := t.P.Z }, cycles := t.cycles } t := by
  refine ⟨(testModify_bus f m s).1, ?_⟩
  dsimp only
  unfold testModify
  dsimp only
  rw [← readMem_eq]
  obtain ⟨an, ev, e⟩ := busOnly_fields (readMem_busOnly m (mW s) s)
  generalize (readMem m (mW s) s).1 = v 
  rw [e]
  generalize (mW s) = w at *
  generalize (effectiveAddr m s).1 = ea
  refine ⟨?_, ?_, ?_, ?_, ?_⟩
  · refine Eq.trans ?_ (Bool.beq_eq_decide_eq _ _); cases w <;> rfl
  · rw [← memoryValue_memWrite w ea _ (setZ (acc w s &&& v == 0) { s with answers := an, events := ev })]
    exact memoryValue_congr _ _ _ _ rfl
  · cases w <;> rfl
  · cases w <;> rfl
  · intro a ha
    exact memWrite_other w ea _ _ a ha

end Sys2Proof.Machine
end

