-- ==== Sys2Proof/Laws/Numbers.lean ====
section
/-! SUPPORT. The operations in numbers: what each computes, as a number. -/

namespace Sys2Proof.Machine

/-- A number reduced modulo 2^w is itself as a word. -/
theorem ofNat_mod_toNat (w : Width) (n : Nat) : (BitVec.ofNat 16 (n % 2 ^ w.bits)).toNat = n % 2 ^ w.bits := by
  have := width_le w
  have : n % 2 ^ w.bits < 2 ^ w.bits := Nat.mod_lt _ (by positivity)
  simp; omega

/-- `wrapInt` is the value modulo 2^w. -/
theorem wrapInt_toNat (w : Width) (i : Int) : ((wrapInt w i).toNat : Int) = i % (2 ^ w.bits : Nat) := by
  have := width_le w
  have h1 := Int.emod_nonneg i (show ((2 ^ w.bits : Nat) : Int) ≠ 0 by positivity)
  have h2 := Int.emod_lt_of_pos i (show (0:Int) < (2 ^ w.bits : Nat) by positivity)
  unfold wrapInt
  rw [BitVec.toNat_ofNat]
  omega

theorem and_lt (w : Width) (a b : Word) (h : a.toNat < 2 ^ w.bits) : (a &&& b).toNat < 2 ^ w.bits :=
  lt_of_le_of_lt (by rw [BitVec.toNat_and]; exact Nat.and_le_left) h

theorem or_lt (w : Width) (a b : Word) (h : a.toNat < 2 ^ w.bits) (h' : b.toNat < 2 ^ w.bits) :
    (a ||| b).toNat < 2 ^ w.bits := by
  rw [BitVec.toNat_or]; exact Nat.or_lt_two_pow h h'

theorem xor_lt (w : Width) (a b : Word) (h : a.toNat < 2 ^ w.bits) (h' : b.toNat < 2 ^ w.bits) :
    (a ^^^ b).toNat < 2 ^ w.bits := by
  rw [BitVec.toNat_xor]; exact Nat.xor_lt_two_pow h h'

/-- The overflow of ADC is the sign rule (40_arith R144). -/
theorem adcOverflow_sign (w : Width) (a b r : Word) :
    adcOverflow w a b r = (signOf w a.toNat == signOf w b.toNat && signOf w b.toNat != signOf w r.toNat) := by
  rw [← topBit_eq_sign, ← topBit_eq_sign, ← topBit_eq_sign]
  cases w <;> simp only [adcOverflow, topBit, BitVec.getLsbD_and, BitVec.getLsbD_not, BitVec.getLsbD_xor] <;>
   (generalize a.getLsbD _ = x; generalize b.getLsbD _ = y; generalize r.getLsbD _ = z; revert x y z; decide)

/-- The overflow of SBC is the sign rule with the accumulator against the operand (40_arith R149). -/
theorem sbcOverflow_sign (w : Width) (a b r : Word) :
    sbcOverflow w a b r = (signOf w a.toNat != signOf w b.toNat && signOf w a.toNat != signOf w r.toNat) := by
  rw [← topBit_eq_sign, ← topBit_eq_sign, ← topBit_eq_sign]
  cases w <;> simp only [sbcOverflow, topBit, BitVec.getLsbD_and, BitVec.getLsbD_xor]

theorem aslOut_toNat (w : Width) (v : Word) (c : Bool) (h : v.toNat < 2 ^ w.bits) :
    (aslOut w v c).1.toNat = 2 * v.toNat % 2 ^ w.bits := by
  simp only [aslOut, truncTo_toNat, BitVec.toNat_shiftLeft, Nat.shiftLeft_eq]
  cases w <;> simp only [Width.bits] <;> omega

theorem lsrOut_toNat (w : Width) (v : Word) (c : Bool) (h : v.toNat < 2 ^ w.bits) :
    (lsrOut w v c).1.toNat = v.toNat / 2 := by
  simp only [lsrOut, BitVec.toNat_ushiftRight, truncTo_toNat, Nat.shiftRight_eq_div_pow, Nat.mod_eq_of_lt h]

theorem bit_zero (v : Word) : v.getLsbD 0 = decide (v.toNat % 2 = 1) := by
  simp [BitVec.getLsbD, Nat.testBit_zero]

theorem two_mul_or (n k : Nat) (hc : k ≤ 1) : (2 * n ||| k) = 2 * n + k := by
  have := Nat.shiftLeft_add_eq_or_of_lt (i := 1) (b := k) (by omega) n
  rw [Nat.shiftLeft_eq] at this
  rw [show 2 * n = n * 2 ^ 1 by ring, ← this]

theorem rolOut_toNat (w : Width) (v : Word) (c : Bool) (h : v.toNat < 2 ^ w.bits) :
    (rolOut w v c).1.toNat = (2 * v.toNat + c.toNat) % 2 ^ w.bits := by
  have hc : c.toNat ≤ 1 := by cases c <;> simp
  have e : (v <<< 1 ||| BitVec.ofNat 16 c.toNat).toNat = (2 * v.toNat + c.toNat) % 65536 := by
    rw [BitVec.toNat_or, BitVec.toNat_shiftLeft, BitVec.toNat_ofNat, Nat.shiftLeft_eq]
    have : v.toNat * 2 ^ 1 % 2 ^ 16 = 2 * (v.toNat % 32768) := by omega
    rw [this, Nat.mod_eq_of_lt (by omega : c.toNat < 2 ^ 16), two_mul_or _ _ hc]; omega
  simp only [rolOut, truncTo_toNat, e]
  cases w <;> simp only [Width.bits] <;> omega

theorem rorOut_toNat (w : Width) (v : Word) (c : Bool) (h : v.toNat < 2 ^ w.bits) :
    (rorOut w v c).1.toNat = v.toNat / 2 + c.toNat * 2 ^ (w.bits - 1) := by
  have key : ∀ n, v.toNat / 2 < 2 ^ n → n < 16 → (v.toNat / 2 ||| c.toNat * 2 ^ n) = v.toNat / 2 + c.toNat * 2 ^ n := by
    intro n hn _
    have := Nat.shiftLeft_add_eq_or_of_lt hn c.toNat
    rw [Nat.shiftLeft_eq] at this
    rw [Nat.or_comm, ← this, Nat.add_comm]
  simp only [rorOut, BitVec.toNat_or, BitVec.toNat_ushiftRight, truncTo_toNat, Nat.shiftRight_eq_div_pow, Nat.mod_eq_of_lt h, BitVec.toNat_ofNat]
  have hm : c.toNat * 2 ^ (w.bits - 1) % 2 ^ 16 = c.toNat * 2 ^ (w.bits - 1) := by
    cases c <;> cases w <;> simp [Width.bits]
  rw [hm, pow_one, key _ (by cases w <;> simp only [Width.bits] at * <;> omega) (by cases w <;> simp [Width.bits])]

theorem incOut_toNat (w : Width) (v : Word) : (incOut w v).toNat = (v.toNat + 1) % 2 ^ w.bits := by
  simp only [incOut, truncTo_toNat, BitVec.toNat_add]
  cases w <;> simp [Width.bits]

theorem decOut_toNat (w : Width) (v : Word) : (decOut w v).toNat = (v.toNat + (2 ^ w.bits - 1)) % 2 ^ w.bits := by
  simp only [decOut, truncTo_toNat, BitVec.toNat_sub]
  cases w <;> simp [Width.bits] <;> omega

/-- `Target8`, in numbers (30_encoding R110). -/
theorem target8_toInt (r8 : Byte) (s : State) : ((target8 r8 s).toNat : Int) = ((s.PC.toNat : Int) + r8.toInt) % 65536 := by
  have h := r8.isLt
  have e : (r8.signExtend 16).toInt = r8.toInt := BitVec.toInt_signExtend_of_le (by omega)
  have e2 : (((r8.signExtend 16).toNat : Int)) % 65536 = r8.toInt % 65536 := by
    rw [← e, BitVec.toInt_eq_toNat_bmod]; exact (Int.bmod_emod ..).symm
  unfold target8
  rw [BitVec.toNat_add]
  omega

/-- `Target16`, in numbers (30_encoding R110). -/
theorem target16_toInt (r16 : Word) (s : State) :
    ((target16 r16 s).toNat : Int) = ((s.PC.toNat : Int) + r16.toInt) % 65536 := by
  have h := r16.isLt
  unfold target16
  rw [BitVec.toNat_add, BitVec.toInt_eq_msb_cond]
  cases r16.msb <;> simp <;> omega

theorem bank0_ofNat (o : Word) (n : Nat) (h : o.toNat = n % 65536) : mkAddr 0x00 o = BitVec.ofNat 24 (n % 65536) := by
  apply BitVec.eq_of_toNat_eq; rw [mkAddr_toNat, BitVec.toNat_ofNat, h]; simp; omega

theorem bank_ofNat (b : Byte) (o : Word) (n : Nat) (h : o.toNat = n % 65536) :
    mkAddr b o = BitVec.ofNat 24 (b.toNat * 65536 + n % 65536) := by
  have := b.isLt
  apply BitVec.eq_of_toNat_eq; rw [mkAddr_toNat, BitVec.toNat_ofNat, h]; omega

theorem word_add_two_ne (o : Word) : o + 2 ≠ o := by
  intro h; have h' := congrArg BitVec.toNat h; rw [BitVec.toNat_add] at h'; have := o.isLt; have : (2 : Word).toNat =
    2 := rfl; omega

theorem word_add_two_ne_add_one (o : Word) : o + 2 ≠ o + 1 := by
  intro h; have h' := congrArg BitVec.toNat h; rw [BitVec.toNat_add, BitVec.toNat_add] at h'; have := o.isLt; have : (2 : Word).toNat = 2 := rfl; have : (1 : Word).toNat = 1 := rfl; omega

/-- An indexed address, in numbers (30_encoding R100). -/
theorem indexed_toNat (b : Addr) (x : Word) : (indexed b x).addr.toNat = (b.toNat + x.toNat) % 2 ^ 24 := by
  have := x.isLt
  simp only [indexed, linear_addr, BitVec.toNat_add, BitVec.toNat_setWidth]
  omega

theorem setS_toNat (v : Word) (s : State) : (setS v s).S.toNat = if s.E then 256 + v.toNat % 256 else v.toNat := by
  unfold setS
  cases s.E
  · rfl
  · simp [mkWord_toNat, lowByte_toNat]

theorem moveIndex_toNat (w : Width) (v d : Word) : (moveIndex w v d).toNat = (v.toNat + d.toNat) % 2 ^ w.bits := by
  unfold moveIndex
  rw [truncTo_toNat, BitVec.toNat_add]
  cases w <;> simp only [Width.bits] <;> omega

end Sys2Proof.Machine
end

