-- ==== Sys2Proof/Laws/PerInstr.lean ====
section
/-! SUPPORT. Statements for all instructions, one lemma for each constructor. -/

namespace Sys2Proof.Laws.FormatLength

/-- A well-formed instruction has an opcode byte, the byte's row of the opcode map has a format, and the instruction has as many
operand bytes as that format asks for at these widths (30_encoding R91, R93, R95). -/
def Statement (i : Instr) : Prop :=
  ∀ m8 x8 : Bool, i.wellFormed m8 x8 = true →
    ∃ op sh, i.opcode = some op ∧ shapeOf op = some sh ∧ sh.operandCount m8 x8 = i.operandBytes.length

theorem imm_length (v : Imm) (e : Bool) (h : v.fits e = true) : immCount e = v.bytes.length := by
  cases v <;> cases e <;> first | rfl | cases h

theorem adc (o : Operand) : Statement (.adc o) := by
  intro m8 x8 h
  cases o with
  | imm v => exact ⟨_, _, rfl, rfl, imm_length v _ h⟩
  | mem m => cases m <;> first | exact ⟨_, _, rfl, rfl, rfl⟩ | cases h

theorem sbc (o : Operand) : Statement (.sbc o) := by
  intro m8 x8 h
  cases o with
  | imm v => exact ⟨_, _, rfl, rfl, imm_length v _ h⟩
  | mem m => cases m <;> first | exact ⟨_, _, rfl, rfl, rfl⟩ | cases h

theorem and (o : Operand) : Statement (.and o) := by
  intro m8 x8 h
  cases o with
  | imm v => exact ⟨_, _, rfl, rfl, imm_length v _ h⟩
  | mem m => cases m <;> first | exact ⟨_, _, rfl, rfl, rfl⟩ | cases h

theorem ora (o : Operand) : Statement (.ora o) := by
  intro m8 x8 h
  cases o with
  | imm v => exact ⟨_, _, rfl, rfl, imm_length v _ h⟩
  | mem m => cases m <;> first | exact ⟨_, _, rfl, rfl, rfl⟩ | cases h

theorem eor (o : Operand) : Statement (.eor o) := by
  intro m8 x8 h
  cases o with
  | imm v => exact ⟨_, _, rfl, rfl, imm_length v _ h⟩
  | mem m => cases m <;> first | exact ⟨_, _, rfl, rfl, rfl⟩ | cases h

theorem asl (t : Target) : Statement (.asl t) := by
  intro m8 x8 h
  cases t with
  | acc => exact ⟨_, _, rfl, rfl, rfl⟩
  | mem m => cases m <;> first | exact ⟨_, _, rfl, rfl, rfl⟩ | cases h

theorem lsr (t : Target) : Statement (.lsr t) := by
  intro m8 x8 h
  cases t with
  | acc => exact ⟨_, _, rfl, rfl, rfl⟩
  | mem m => cases m <;> first | exact ⟨_, _, rfl, rfl, rfl⟩ | cases h

theorem rol (t : Target) : Statement (.rol t) := by
  intro m8 x8 h
  cases t with
  | acc => exact ⟨_, _, rfl, rfl, rfl⟩
  | mem m => cases m <;> first | exact ⟨_, _, rfl, rfl, rfl⟩ | cases h

theorem ror (t : Target) : Statement (.ror t) := by
  intro m8 x8 h
  cases t with
  | acc => exact ⟨_, _, rfl, rfl, rfl⟩
  | mem m => cases m <;> first | exact ⟨_, _, rfl, rfl, rfl⟩ | cases h

theorem inc (t : Target) : Statement (.inc t) := by
  intro m8 x8 h
  cases t with
  | acc => exact ⟨_, _, rfl, rfl, rfl⟩
  | mem m => cases m <;> first | exact ⟨_, _, rfl, rfl, rfl⟩ | cases h

theorem dec (t : Target) : Statement (.dec t) := by
  intro m8 x8 h
  cases t with
  | acc => exact ⟨_, _, rfl, rfl, rfl⟩
  | mem m => cases m <;> first | exact ⟨_, _, rfl, rfl, rfl⟩ | cases h

theorem inx : Statement (.inx) :=
  fun _ _ _ => ⟨_, _, rfl, rfl, rfl⟩

theorem iny : Statement (.iny) :=
  fun _ _ _ => ⟨_, _, rfl, rfl, rfl⟩

theorem dex : Statement (.dex) :=
  fun _ _ _ => ⟨_, _, rfl, rfl, rfl⟩

theorem dey : Statement (.dey) :=
  fun _ _ _ => ⟨_, _, rfl, rfl, rfl⟩

theorem lda (o : Operand) : Statement (.lda o) := by
  intro m8 x8 h
  cases o with
  | imm v => exact ⟨_, _, rfl, rfl, imm_length v _ h⟩
  | mem m => cases m <;> first | exact ⟨_, _, rfl, rfl, rfl⟩ | cases h

theorem ldx (o : Operand) : Statement (.ldx o) := by
  intro m8 x8 h
  cases o with
  | imm v => exact ⟨_, _, rfl, rfl, imm_length v _ h⟩
  | mem m => cases m <;> first | exact ⟨_, _, rfl, rfl, rfl⟩ | cases h

theorem ldy (o : Operand) : Statement (.ldy o) := by
  intro m8 x8 h
  cases o with
  | imm v => exact ⟨_, _, rfl, rfl, imm_length v _ h⟩
  | mem m => cases m <;> first | exact ⟨_, _, rfl, rfl, rfl⟩ | cases h

theorem sta (m : Mode) : Statement (.sta m) := by
  intro m8 x8 h
  cases m <;> first | exact ⟨_, _, rfl, rfl, rfl⟩ | cases h

theorem stx (m : Mode) : Statement (.stx m) := by
  intro m8 x8 h
  cases m <;> first | exact ⟨_, _, rfl, rfl, rfl⟩ | cases h

theorem sty (m : Mode) : Statement (.sty m) := by
  intro m8 x8 h
  cases m <;> first | exact ⟨_, _, rfl, rfl, rfl⟩ | cases h

theorem stz (m : Mode) : Statement (.stz m) := by
  intro m8 x8 h
  cases m <;> first | exact ⟨_, _, rfl, rfl, rfl⟩ | cases h

theorem cmp (o : Operand) : Statement (.cmp o) := by
  intro m8 x8 h
  cases o with
  | imm v => exact ⟨_, _, rfl, rfl, imm_length v _ h⟩
  | mem m => cases m <;> first | exact ⟨_, _, rfl, rfl, rfl⟩ | cases h

theorem cpx (o : Operand) : Statement (.cpx o) := by
  intro m8 x8 h
  cases o with
  | imm v => exact ⟨_, _, rfl, rfl, imm_length v _ h⟩
  | mem m => cases m <;> first | exact ⟨_, _, rfl, rfl, rfl⟩ | cases h

theorem cpy (o : Operand) : Statement (.cpy o) := by
  intro m8 x8 h
  cases o with
  | imm v => exact ⟨_, _, rfl, rfl, imm_length v _ h⟩
  | mem m => cases m <;> first | exact ⟨_, _, rfl, rfl, rfl⟩ | cases h

theorem bit (m : Mode) : Statement (.bit m) := by
  intro m8 x8 h
  cases m <;> first | exact ⟨_, _, rfl, rfl, rfl⟩ | cases h

theorem bitImm (v : Imm) : Statement (.bitImm v) := by
  intro m8 x8 h
  exact ⟨_, _, rfl, rfl, imm_length v _ h⟩

theorem tsb (m : Mode) : Statement (.tsb m) := by
  intro m8 x8 h
  cases m <;> first | exact ⟨_, _, rfl, rfl, rfl⟩ | cases h

theorem trb (m : Mode) : Statement (.trb m) := by
  intro m8 x8 h
  cases m <;> first | exact ⟨_, _, rfl, rfl, rfl⟩ | cases h

theorem bpl (r8 : Byte) : Statement (.bpl r8) :=
  fun _ _ _ => ⟨_, _, rfl, rfl, rfl⟩

theorem bmi (r8 : Byte) : Statement (.bmi r8) :=
  fun _ _ _ => ⟨_, _, rfl, rfl, rfl⟩

theorem bvc (r8 : Byte) : Statement (.bvc r8) :=
  fun _ _ _ => ⟨_, _, rfl, rfl, rfl⟩

theorem bvs (r8 : Byte) : Statement (.bvs r8) :=
  fun _ _ _ => ⟨_, _, rfl, rfl, rfl⟩

theorem bcc (r8 : Byte) : Statement (.bcc r8) :=
  fun _ _ _ => ⟨_, _, rfl, rfl, rfl⟩

theorem bcs (r8 : Byte) : Statement (.bcs r8) :=
  fun _ _ _ => ⟨_, _, rfl, rfl, rfl⟩

theorem bne (r8 : Byte) : Statement (.bne r8) :=
  fun _ _ _ => ⟨_, _, rfl, rfl, rfl⟩

theorem beq (r8 : Byte) : Statement (.beq r8) :=
  fun _ _ _ => ⟨_, _, rfl, rfl, rfl⟩

theorem bra (r8 : Byte) : Statement (.bra r8) :=
  fun _ _ _ => ⟨_, _, rfl, rfl, rfl⟩

theorem brl (r16 : Word) : Statement (.brl r16) :=
  fun _ _ _ => ⟨_, _, rfl, rfl, rfl⟩

theorem jmpAbs (a : Word) : Statement (.jmpAbs a) :=
  fun _ _ _ => ⟨_, _, rfl, rfl, rfl⟩

theorem jmpInd (a : Word) : Statement (.jmpInd a) :=
  fun _ _ _ => ⟨_, _, rfl, rfl, rfl⟩

theorem jmpIndX (a : Word) : Statement (.jmpIndX a) :=
  fun _ _ _ => ⟨_, _, rfl, rfl, rfl⟩

theorem jmlLong (al : Addr) : Statement (.jmlLong al) :=
  fun _ _ _ => ⟨_, _, rfl, rfl, rfl⟩

theorem jmlInd (a : Word) : Statement (.jmlInd a) :=
  fun _ _ _ => ⟨_, _, rfl, rfl, rfl⟩

theorem jsrAbs (a : Word) : Statement (.jsrAbs a) :=
  fun _ _ _ => ⟨_, _, rfl, rfl, rfl⟩

theorem jsrIndX (a : Word) : Statement (.jsrIndX a) :=
  fun _ _ _ => ⟨_, _, rfl, rfl, rfl⟩

theorem jsl (al : Addr) : Statement (.jsl al) :=
  fun _ _ _ => ⟨_, _, rfl, rfl, rfl⟩

theorem rts : Statement (.rts) :=
  fun _ _ _ => ⟨_, _, rfl, rfl, rfl⟩

theorem rtl : Statement (.rtl) :=
  fun _ _ _ => ⟨_, _, rfl, rfl, rfl⟩

theorem pha : Statement (.pha) :=
  fun _ _ _ => ⟨_, _, rfl, rfl, rfl⟩

theorem phx : Statement (.phx) :=
  fun _ _ _ => ⟨_, _, rfl, rfl, rfl⟩

theorem phy : Statement (.phy) :=
  fun _ _ _ => ⟨_, _, rfl, rfl, rfl⟩

theorem php : Statement (.php) :=
  fun _ _ _ => ⟨_, _, rfl, rfl, rfl⟩

theorem phb : Statement (.phb) :=
  fun _ _ _ => ⟨_, _, rfl, rfl, rfl⟩

theorem phk : Statement (.phk) :=
  fun _ _ _ => ⟨_, _, rfl, rfl, rfl⟩

theorem phd : Statement (.phd) :=
  fun _ _ _ => ⟨_, _, rfl, rfl, rfl⟩

theorem pea (v : Word) : Statement (.pea v) :=
  fun _ _ _ => ⟨_, _, rfl, rfl, rfl⟩

theorem pei (d : Byte) : Statement (.pei d) :=
  fun _ _ _ => ⟨_, _, rfl, rfl, rfl⟩

theorem per (r16 : Word) : Statement (.per r16) :=
  fun _ _ _ => ⟨_, _, rfl, rfl, rfl⟩

theorem pla : Statement (.pla) :=
  fun _ _ _ => ⟨_, _, rfl, rfl, rfl⟩

theorem plx : Statement (.plx) :=
  fun _ _ _ => ⟨_, _, rfl, rfl, rfl⟩

theorem ply : Statement (.ply) :=
  fun _ _ _ => ⟨_, _, rfl, rfl, rfl⟩

theorem plp : Statement (.plp) :=
  fun _ _ _ => ⟨_, _, rfl, rfl, rfl⟩

theorem plb : Statement (.plb) :=
  fun _ _ _ => ⟨_, _, rfl, rfl, rfl⟩

theorem pld : Statement (.pld) :=
  fun _ _ _ => ⟨_, _, rfl, rfl, rfl⟩

theorem tax : Statement (.tax) :=
  fun _ _ _ => ⟨_, _, rfl, rfl, rfl⟩

theorem tay : Statement (.tay) :=
  fun _ _ _ => ⟨_, _, rfl, rfl, rfl⟩

theorem txa : Statement (.txa) :=
  fun _ _ _ => ⟨_, _, rfl, rfl, rfl⟩

theorem tya : Statement (.tya) :=
  fun _ _ _ => ⟨_, _, rfl, rfl, rfl⟩

theorem txy : Statement (.txy) :=
  fun _ _ _ => ⟨_, _, rfl, rfl, rfl⟩

theorem tyx : Statement (.tyx) :=
  fun _ _ _ => ⟨_, _, rfl, rfl, rfl⟩

theorem tsx : Statement (.tsx) :=
  fun _ _ _ => ⟨_, _, rfl, rfl, rfl⟩

theorem txs : Statement (.txs) :=
  fun _ _ _ => ⟨_, _, rfl, rfl, rfl⟩

theorem tcs : Statement (.tcs) :=
  fun _ _ _ => ⟨_, _, rfl, rfl, rfl⟩

theorem tsc : Statement (.tsc) :=
  fun _ _ _ => ⟨_, _, rfl, rfl, rfl⟩

theorem tcd : Statement (.tcd) :=
  fun _ _ _ => ⟨_, _, rfl, rfl, rfl⟩

theorem tdc : Statement (.tdc) :=
  fun _ _ _ => ⟨_, _, rfl, rfl, rfl⟩

theorem xba : Statement (.xba) :=
  fun _ _ _ => ⟨_, _, rfl, rfl, rfl⟩

theorem clc : Statement (.clc) :=
  fun _ _ _ => ⟨_, _, rfl, rfl, rfl⟩

theorem sec : Statement (.sec) :=
  fun _ _ _ => ⟨_, _, rfl, rfl, rfl⟩

theorem cli : Statement (.cli) :=
  fun _ _ _ => ⟨_, _, rfl, rfl, rfl⟩

theorem sei : Statement (.sei) :=
  fun _ _ _ => ⟨_, _, rfl, rfl, rfl⟩

theorem cld : Statement (.cld) :=
  fun _ _ _ => ⟨_, _, rfl, rfl, rfl⟩

theorem sed : Statement (.sed) :=
  fun _ _ _ => ⟨_, _, rfl, rfl, rfl⟩

theorem clv : Statement (.clv) :=
  fun _ _ _ => ⟨_, _, rfl, rfl, rfl⟩

theorem rep (k : Byte) : Statement (.rep k) :=
  fun _ _ _ => ⟨_, _, rfl, rfl, rfl⟩

theorem sep (k : Byte) : Statement (.sep k) :=
  fun _ _ _ => ⟨_, _, rfl, rfl, rfl⟩

theorem xce : Statement (.xce) :=
  fun _ _ _ => ⟨_, _, rfl, rfl, rfl⟩

theorem nop : Statement (.nop) :=
  fun _ _ _ => ⟨_, _, rfl, rfl, rfl⟩

theorem wdm (sig : Byte) : Statement (.wdm sig) :=
  fun _ _ _ => ⟨_, _, rfl, rfl, rfl⟩

theorem mvn (dst src : Byte) : Statement (.mvn dst src) :=
  fun _ _ _ => ⟨_, _, rfl, rfl, rfl⟩

theorem mvp (dst src : Byte) : Statement (.mvp dst src) :=
  fun _ _ _ => ⟨_, _, rfl, rfl, rfl⟩

theorem wai : Statement (.wai) :=
  fun _ _ _ => ⟨_, _, rfl, rfl, rfl⟩

theorem stp : Statement (.stp) :=
  fun _ _ _ => ⟨_, _, rfl, rfl, rfl⟩

theorem brk (sig : Byte) : Statement (.brk sig) :=
  fun _ _ _ => ⟨_, _, rfl, rfl, rfl⟩

theorem cop (sig : Byte) : Statement (.cop sig) :=
  fun _ _ _ => ⟨_, _, rfl, rfl, rfl⟩

theorem rti : Statement (.rti) :=
  fun _ _ _ => ⟨_, _, rfl, rfl, rfl⟩

end Sys2Proof.Laws.FormatLength
end

