-- ==== Sys2Proof/Laws/Pushes.lean ====
section
/-! SUPPORT. Sequences of pushes and pulls, and the entry sequence of an exception. -/

namespace Sys2Proof.Machine

/-- A stack step moves the low byte of S by one, in every mode and for both rules. -/
theorem lowByte_sub_one (v : Word) : lowByte (v - 1) = lowByte v - 1 := by
  apply BitVec.eq_of_toNat_eq
  rw [lowByte_toNat, BitVec.toNat_sub, BitVec.toNat_sub, lowByte_toNat]
  have := v.isLt
  simp; omega

theorem lowByte_add_one (v : Word) : lowByte (v + 1) = lowByte v + 1 := by
  apply BitVec.eq_of_toNat_eq
  rw [lowByte_toNat, BitVec.toNat_add, BitVec.toNat_add, lowByte_toNat]
  simp

theorem decS_low (r : StackRule) (s : State) : lowByte (decS r s) = lowByte s.S - 1 := by
  unfold decS
  cases s.E
  · exact lowByte_sub_one s.S
  · cases r
    · simp
    · simp only [if_true, emuStackChoice_eq]; split
      · exact lowByte_sub_one _
      · exact lowByte_mkWord _ _

theorem incS_low (r : StackRule) (s : State) : lowByte (incS r s) = lowByte s.S + 1 := by
  unfold incS
  cases s.E
  · exact lowByte_add_one s.S
  · cases r
    · simp
    · simp only [if_true, emuStackChoice_eq]; split
      · exact lowByte_add_one _
      · exact lowByte_mkWord _ _

theorem decS_congr (r : StackRule) {s t : State} (hS : t.S = s.S) (hE : t.E = s.E) : decS r t = decS r s := by
  unfold decS; rw [hS, hE]

theorem incS_congr (r : StackRule) {s t : State} (hS : t.S = s.S) (hE : t.E = s.E) : incS r t = incS r s := by
  unfold incS; rw [hS, hE]

theorem pushSlots_congr (r : StackRule) (n : Nat) {s t : State} (hS : t.S = s.S) (hE : t.E = s.E) :
    pushSlots r n t = pushSlots r n s := by
  induction n generalizing s t with
  | zero => rfl
  | succ n ih => 
    simp only [pushSlots]; rw [hS]; congr 1; exact ih (decS_congr r hS hE) hE

theorem pushEnd_congr (r : StackRule) (n : Nat) {s t : State} (hS : t.S = s.S) (hE : t.E = s.E) :
    pushEnd r n t = pushEnd r n s := by
  induction n generalizing s t with
  | zero => exact hS
  | succ n ih => exact ih (decS_congr r hS hE) hE

theorem pullSlots_congr (r : StackRule) (n : Nat) {s t : State} (hS : t.S = s.S) (hE : t.E = s.E) :
    pullSlots r n t = pullSlots r n s := by
  induction n generalizing s t with
  | zero => rfl
  | succ n ih => 
    simp only [pullSlots]; rw [incS_congr r hS hE]; congr 1; exact ih rfl hE

theorem pullEnd_congr (r : StackRule) (n : Nat) {s t : State} (hS : t.S = s.S) (hE : t.E = s.E) :
    pullEnd r n t = pullEnd r n s := by
  induction n generalizing s t with
  | zero => exact hS
  | succ n ih => exact ih (incS_congr r hS hE) hE

/-- The low bytes of the pushed offsets count down from SL. -/
theorem pushSlots_low (r : StackRule) (n : Nat) (s : State) :
    ∀ a ∈ pushSlots r n s, ∃ j < n, (lowByte (offsetOf a)).toNat + j ≡ (lowByte s.S).toNat [MOD 256] := by
  induction n generalizing s with
  | zero => intro a h; cases h
  | succ n ih =>
    intro a h
    rcases List.mem_cons.1 h with rfl | h
    · exact ⟨0, by omega, by rw [offsetOf_mkAddr]; exact Nat.ModEq.refl _⟩
    · obtain ⟨j, hj, e⟩ := ih _ a h
      refine ⟨j + 1, by omega, ?_⟩
      have e' := e
      simp only [decS_low, BitVec.toNat_sub] at e'
      unfold Nat.ModEq at *
      have : (1 : Byte).toNat = 1 := rfl
      omega

/-- The low bytes of the pulled offsets count up from SL. -/
theorem pullSlots_low (r : StackRule) (n : Nat) (s : State) :
    ∀ a ∈ pullSlots r n s, ∃ j < n, (lowByte (offsetOf a)).toNat ≡ (lowByte s.S).toNat + 1 + j [MOD 256] := by
  induction n generalizing s with
  | zero => intro a h; cases h
  | succ n ih =>
    intro a h
    rcases List.mem_cons.1 h with rfl | h
    · refine ⟨0, by omega, ?_⟩
      rw [offsetOf_mkAddr, incS_low, BitVec.toNat_add]; exact Nat.mod_modEq _ _
    · obtain ⟨j, hj, e⟩ := ih _ a h
      refine ⟨j + 1, by omega, ?_⟩
      have e' := e
      simp only [incS_low, BitVec.toNat_add] at e'
      unfold Nat.ModEq at *
      have : (1 : Byte).toNat = 1 := rfl
      omega

/-- Several bytes pushed, the first first. -/
def pushBytes (r : StackRule) (bytes : List Byte) (s : State) : State :=
  match bytes with
  | [] => s
  | b :: rest => pushBytes r rest (push8 r b s)

theorem pushBytes_stackOnly (r : StackRule) (bytes : List Byte) (s : State) : StackOnly s (pushBytes r bytes s) := by
  induction bytes generalizing s with
  | nil => exact StackOnly.refl s
  | cons b rest ih => exact (push8_stackOnly r b s).trans (ih _)

theorem pushBytes_answers (r : StackRule) (bytes : List Byte) (s : State) : (pushBytes r bytes s).answers = s.answers := by
  induction bytes generalizing s with
  | nil => rfl
  | cons b rest ih => exact ih _

theorem pushBytes_S (r : StackRule) (bytes : List Byte) (s : State) :
    (pushBytes r bytes s).S = pushEnd r bytes.length s := by
  induction bytes generalizing s with
  | nil => rfl
  | cons b rest ih => exact (ih _).trans (pushEnd_congr r _ rfl rfl)

theorem pushBytes_other (r : StackRule) (bytes : List Byte) (s : State) (a : Addr) (h : a ∉ pushSlots r bytes.length s) :
    byteAt (pushBytes r bytes s) a = byteAt s a := by
  induction bytes generalizing s with
  | nil => rfl
  | cons b rest ih =>
    simp only [List.length_cons, pushSlots, List.mem_cons, not_or] at h
    refine (ih (push8 r b s) ?_).trans ?_
    · rw [pushSlots_congr r _ (t := push8 r b s) (s := { s with S := decS r s }) rfl rfl]; exact h.2
    · exact Memory.read_write_other _ _ _ _ fun e => h.1 (BitVec.eq_of_toNat_eq e)

theorem pushBytes_pushed (r : StackRule) (bytes : List Byte) (s : State) (h : bytes.length ≤ 256) :
    Pushed r bytes s (pushBytes r bytes s) := by
  refine ⟨?_, fun a ha => pushBytes_other r bytes s a ha⟩
  induction bytes generalizing s with
  | nil => rfl
  | cons b rest ih =>
    simp only [List.length_cons] at h
    simp only [List.length_cons, pushSlots, List.map_cons]
    congr 1
    · refine (pushBytes_other r rest _ _ ?_).trans ?_
      · intro hm
        obtain ⟨j, hj, e⟩ := pushSlots_low _ _ _ _ hm
        rw [offsetOf_mkAddr, push8_S, decS_low, BitVec.toNat_sub] at e
        unfold Nat.ModEq at e
        have : (1 : Byte).toNat = 1 := rfl
        have := (lowByte s.S).isLt
        omega
      · exact Memory.read_write_same _ _ _
    · exact (congrArg _ (pushSlots_congr r _ (t := { s with S := decS r s }) (s := push8 r b s) rfl rfl)).trans (ih (push8 r b s) (by omega))

/-- Pushes keep the form of memory. -/
theorem pushBytes_wf (r : StackRule) (bs : List Byte) (s : State) (h : s.mem.wf) : (pushBytes r bs s).mem.wf := by
  induction bs generalizing s with
  | nil => exact h
  | cons b bs ih => exact ih _ (push8_wf _ _ _ h)

/-- Several bytes pulled. -/
def pullBytes (r : StackRule) (n : Nat) (s : State) : List Byte × State :=
  match n with
  | 0 => ([], s)
  | n + 1 => ((pull8 r s).1 :: (pullBytes r n (pull8 r s).2).1, (pullBytes r n (pull8 r s).2).2)

theorem pullBytes_stackOnly (r : StackRule) (n : Nat) (s : State) : StackOnly s (pullBytes r n s).2 := by
  induction n generalizing s with
  | zero => exact StackOnly.refl s
  | succ n ih => exact (pull8_stackOnly r s).trans (ih _)

theorem pullBytes_mem (r : StackRule) (n : Nat) (s : State) : (pullBytes r n s).2.mem = s.mem := by
  induction n generalizing s with
  | zero => rfl
  | succ n ih => exact ih _

theorem pullBytes_S (r : StackRule) (n : Nat) (s : State) : (pullBytes r n s).2.S = pullEnd r n s := by
  induction n generalizing s with
  | zero => rfl
  | succ n ih => exact (ih _).trans (pullEnd_congr r _ rfl rfl)

theorem pullBytes_val (r : StackRule) (n : Nat) (s : State) (h : n ≤ 256) :
    (pullBytes r n s).1 = (pullSlots r n s).map (fun a => busValue a s) := by
  induction n generalizing s with
  | zero => rfl
  | succ n ih =>
    simp only [pullBytes, pullSlots, List.map_cons]
    congr 1
    rw [ih _ (by omega), pullSlots_congr r n (t := (pull8 r s).2) (s := { s with S := incS r s }) rfl rfl]
    apply List.map_congr_left
    intro a ha
    refine (busValue_busRead (mkAddr 0x00 (incS r s)) a { s with S := incS r s } ?_).trans (busValue_congr a rfl rfl)
    rintro rfl
    obtain ⟨j, hj, e⟩ := pullSlots_low _ _ _ _ ha
    rw [offsetOf_mkAddr] at e
    unfold Nat.ModEq at e
    have := (lowByte (incS r s)).isLt
    simp only at e
    omega

/-- Everything that pushes of at most 256 bytes do. -/
theorem pushBytes_spec (r : StackRule) (bytes : List Byte) (s : State) (h : bytes.length ≤ 256) :
    let t := pushBytes r bytes s
    Pushed r bytes s t ∧ t.S = pushEnd r bytes.length s ∧ Stores (pushSlots r bytes.length s) { s with S := t.S } t :=
  ⟨pushBytes_pushed r bytes s h, pushBytes_S r bytes s, pushBytes_stackOnly r bytes s, fun a ha => pushBytes_other r bytes s a ha⟩

theorem settleStack_S_eq (s : State) (h : t.E = s.E) (hS : t.S = v) : (settleStack t).S = settled s v := by
  unfold settleStack setS settled; rw [h, hS]

/-- Everything that pushes of the wide stack rule do, with the end of the instruction. -/
theorem settledPush_spec (bytes : List Byte) (s : State) (h : bytes.length ≤ 256) :
    let t := settleStack (pushBytes .wide bytes s)
    Pushed .wide bytes s t ∧ t.S = settled s (pushEnd .wide bytes.length s) ∧
    Stores (pushSlots .wide bytes.length s) { s with S := t.S } t := by
  obtain ⟨h1, h2, h3, h4⟩ := pushBytes_spec .wide bytes s h
  have hE : (pushBytes .wide bytes s).E = s.E := by rw [pushBytes_stackOnly]
  refine ⟨h1, settleStack_S_eq s hE h2, ?_, h4⟩
  unfold settleStack setS
  rw [h3]

/-- Everything that pulls of at most 256 bytes do. -/
theorem pullBytes_spec (r : StackRule) (n : Nat) (s : State) (h : n ≤ 256) :
    (pullBytes r n s).1 = (pullSlots r n s).map (fun a => busValue a s) ∧
    ∃ an ev, (pullBytes r n s).2 = { s with S := pullEnd r n s, answers := an, events := ev } := by
  refine ⟨pullBytes_val r n s h, (pullBytes r n s).2.answers, (pullBytes r n s).2.events, ?_⟩
  have e := pullBytes_stackOnly r n s
  have hS := pullBytes_S r n s
  have hm := pullBytes_mem r n s
  unfold StackOnly at e
  rw [hS, hm] at e
  exact e

theorem pushEnd_high (n : Nat) (s : State) (h : s.E = true) (hS : highByte s.S = 0x01) :
    highByte (pushEnd .legacy n s) = 0x01 := by
  induction n generalizing s with
  | zero => exact hS
  | succ n ih => exact ih { s with S := decS .legacy s } h (by simp [decS, h])

theorem pullEnd_high (n : Nat) (s : State) (h : s.E = true) (hS : highByte s.S = 0x01) :
    highByte (pullEnd .legacy n s) = 0x01 := by
  induction n generalizing s with
  | zero => exact hS
  | succ n ih => exact ih { s with S := incS .legacy s } h (by simp [incS, h])

/-! ### The accesses of pushes and pulls -/

/-- Pushes write their slots, in their order (20_memory R74). -/
theorem pushBytes_accesses (r : StackRule) (bytes : List Byte) (s : State) :
    Accesses (writesAt (pushSlots r bytes.length s)) s (pushBytes r bytes s) := by
  induction bytes generalizing s with
  | nil => exact Accesses.refl s
  | cons b rest ih =>
    have h := (push8_accesses r b s).trans (ih (push8 r b s))
    rw [pushSlots_congr r _ (t := push8 r b s) (s := { s with S := decS r s }) rfl rfl] at h
    exact h

/-- Pulls read their slots, in their order (20_memory R74). -/
theorem pullBytes_accesses (r : StackRule) (n : Nat) (s : State) :
    Accesses (readsAt (pullSlots r n s)) s (pullBytes r n s).2 := by
  induction n generalizing s with
  | zero => exact Accesses.refl s
  | succ n ih =>
    have h := (pull8_accesses r s).trans (ih (pull8 r s).2)
    rw [pullSlots_congr r _ (t := (pull8 r s).2) (s := { s with S := incS r s }) rfl rfl] at h
    exact h

theorem pushW_accesses (w : Width) (v : Word) (s : State) :
    Accesses (writesAt (pushSlots .legacy (byteCount w) s)) s (pushW w v s) := by
  cases w
  · exact pushBytes_accesses .legacy [lowByte v] s
  · exact pushBytes_accesses .legacy [highByte v, lowByte v] s

theorem push16_accesses (r : StackRule) (v : Word) (s : State) : Accesses (writesAt (pushSlots r 2 s)) s (push16 r v s) :=
  pushBytes_accesses r [highByte v, lowByte v] s

theorem pull16_accesses (r : StackRule) (s : State) : Accesses (readsAt (pullSlots r 2 s)) s (pull16 r s).2 :=
  pullBytes_accesses r 2 s

theorem pullW_accesses (w : Width) (s : State) :
    Accesses (readsAt (pullSlots .legacy (byteCount w) s)) s (pullW w s).2 := by
  cases w
  · exact pullBytes_accesses .legacy 1 s
  · exact pullBytes_accesses .legacy 2 s

/-- JSR (a,X): the push, and then the pointer read in the program bank (47_control R247). -/
theorem pushPointerX_accesses (v a : Word) (s : State) :
    Accesses (writesAt (pushSlots .wide 2 s) ++ readsAt [mkAddr s.PBR (a + s.X), mkAddr s.PBR (a + s.X + 1)]) s
      (absPointerX a (settleStack (push16 .wide v s))).2 := by
  have h := absPointerX_accesses a (settleStack (push16 .wide v s))
  have hs := push16_stackOnly .wide v s
  rw [show (settleStack (push16 .wide v s)).PBR = s.PBR by rw [settleStack_PBR, hs],
    show (settleStack (push16 .wide v s)).X = s.X by rw [settleStack_X, hs]] at h
  exact ((push16_accesses .wide v s).after (settleStack_sameBus _)).trans h

/-- PEI: the pointer read, and then the push (48_stack_transfer R268). -/
theorem readPush16_accesses (lo hi : Ea) (s : State) :
    let p := readPointer16 lo hi s
    Accesses (readsAt [lo.addr, hi.addr] ++ writesAt (pushSlots .wide 2 s)) s (settleStack (push16 .wide p.1 p.2)) := by
  intro p
  have hp : BusOnly s p.2 := readPointer16_busOnly lo hi s
  have h := (push16_accesses .wide p.1 p.2).after (settleStack_sameBus _)
  rw [pushSlots_congr .wide 2 (s := s) (by rw [hp]) (by rw [hp])] at h
  exact (readPointer16_accesses lo hi s).trans h

/-- The pushes of an entry are those of its frame. -/
theorem pushFrame_eq (kind : Exception) (ret : Word) (s : State) :
    pushFrame kind ret s = pushBytes .legacy (frameBytes (pushedB kind) ret s) s := by
  unfold pushFrame frameBytes pushedP
  cases s.E <;> rfl

theorem frameBytes_length (b : Bool) (ret : Word) (s : State) :
    (frameBytes b ret s).length = if s.E then 3 else 4 := by
  unfold frameBytes; split <;> rfl

/-- The entry writes its frame and then reads its vector (60_exceptions R318). -/
theorem takeException_accesses (kind : Exception) (ret : Word) (s : State) :
    let vec := vector kind s.E
    Accesses (writesAt (pushSlots .legacy (frameBytes (pushedB kind) ret s).length s)
      ++ readsAt (wordAddrs (mkAddr 0x00 vec) (mkAddr 0x00 (vec + 1)))) s (takeException kind ret s) := by
  have h := memRead_accesses .w16 (bank0 (vector kind s.E))
    { pushFrame kind ret s with P := { (pushFrame kind ret s).P with I := true, D := false }, PBR := 0x00 }
  simp only [dataAddrs, nextEa_bank0, bank0_addr] at h
  have hp := pushBytes_accesses .legacy (frameBytes (pushedB kind) ret s) s
  rw [← pushFrame_eq] at hp
  exact hp.trans ((h.before (s := pushFrame kind ret s) ⟨rfl, rfl, rfl⟩).after (jump_sameBus _ _))

/-- A pull reads the slot that S and the mode give. -/
theorem pull8_accesses_at (s u : State) (hS : u.S = s.S) (hE : u.E = s.E) :
    Accesses (readsAt (pullSlots .legacy 1 s)) u (pull8 .legacy u).2 := by
  rw [← pullSlots_congr .legacy 1 hS hE]; exact pull8_accesses .legacy u

/-- The return reads its frame (60_exceptions R320). -/
theorem returnFromException_accesses (s : State) :
    Accesses (readsAt (pullSlots .legacy (if s.E then 3 else 4) s)) s (returnFromException s) := by
  have hP : ∀ (v : Byte) (u : State), (pullP v u).S = u.S ∧ (pullP v u).E = u.E := fun v u => by
    rw [pullP_eq]; exact ⟨rfl, rfl⟩
  unfold returnFromException
  dsimp only
  generalize hp : pullP (pull8 .legacy s).1 (pull8 .legacy s).2 = p
  have hS : p.S = incS .legacy s := hp ▸ (hP _ _).1
  have hE : p.E = s.E := hp ▸ (hP _ _).2
  have h1 := (pull8_accesses .legacy s).after (pullP_sameBus (pull8 .legacy s).1 _)
  rw [hp] at h1
  have h2 := (pull16_accesses .legacy p).after (jump_sameBus _ (pull16 .legacy p).1)
  rw [pullSlots_congr .legacy 2 (s := { s with S := incS .legacy s }) hS hE] at h2
  have h := h1.trans h2
  have e1 : (pull8 .legacy p).2.S = incS .legacy { s with S := incS .legacy s } := incS_congr .legacy hS hE
  have e2 : (pull16 .legacy p).2.S = incS .legacy { s with S := incS .legacy { s with S := incS .legacy s } } :=
    incS_congr .legacy e1 hE
  cases he : s.E
  · have h3 := pull8_accesses_at { s with S := incS .legacy { s with S := incS .legacy { s with S := incS .legacy s } } }
      { (pull16 .legacy p).2 with PC := (pull16 .legacy p).1 } e2 hE
    exact h.trans (h3.after ⟨rfl, rfl, rfl⟩)
  · exact h

/-- The entry sequence, everything it does (60_exceptions R318). -/
theorem takeException_spec (kind : Exception) (ret : Word) (s : State) :
    EntersHandler (vector kind s.E) (pushedB kind) ret s (takeException kind ret s) := by
  have hl : (frameBytes (pushedB kind) ret s).length ≤ 256 := by rw [frameBytes_length]; split <;> omega
  have hr := takeException_accesses kind ret s
  obtain ⟨h1, h2, h3, h4⟩ := pushBytes_spec .legacy (frameBytes (pushedB kind) ret s) s hl
  have ha := pushBytes_answers .legacy (frameBytes (pushedB kind) ret s) s
  unfold takeException at hr ⊢
  dsimp only at hr ⊢
  rw [pushFrame_eq] at hr ⊢
  rw [memRead16_val] at hr ⊢
  generalize pushBytes .legacy (frameBytes (pushedB kind) ret s) s = u at *
  have hb := memRead16_busOnly (bank0 (vector kind s.E)) { u with P := { u.P with I := true, D := false }, PBR := 0x00 }
  obtain ⟨an, ev, e⟩ := busOnly_fields hb
  rw [e] at hr ⊢
  refine ⟨h1, ?_, hr, ?_⟩
  · rw [nextEa_bank0, bank0_addr, bank0_addr]
    have hb2 : ∀ a, busValue a { u with P := { u.P with I := true, D := false }, PBR := 0x00 } =
    busValue a { s with mem := u.mem } :=
      fun a => (busValue_congr a (s := u) rfl rfl).trans (busValue_congr a (s := { s with mem := u.mem }) (t := u) rfl ha)
    exact congrArg₂ mkWord (hb2 _) (hb2 _)
  · rw [h2] at h3
    rw [h3]

/-- The entry sequence keeps the form of memory. -/
theorem takeException_wf (k : Exception) (ret : Word) (s : State) (h : s.mem.wf) : (takeException k ret s).mem.wf := by
  have : (takeException k ret s).mem = (pushFrame k ret s).mem := rfl
  rw [this, pushFrame_eq]; exact pushBytes_wf _ _ _ h

end Sys2Proof.Machine
end

