-- ==== Sys2Proof/Tests/Slice0.lean ====
section
/-! SUPPORT. The model's own tests: well-formedness, decoding, one step of each instruction, and a witness for the hypotheses of
each statement. Every expected value comes from spec/95_test_vectors.md (V<n>, S<n>) or from the rule that a comment names. -/

namespace Sys2Proof.Tests

open Sys2Proof Sys2Proof.Machine

/-! ### Helpers -/

/-- A state with the emulation bit and the byte of P given, S = 0x01FF and PC = 0x8000. -/
def st (e : Bool) (p : Byte) : State := { State.reset with E := e, P := unpackP p, S := 0x01FF, PC := 0x8000 }

/-- Native mode with 8-bit and with 16-bit widths, and emulation mode, with the flags of `p`. -/
def n8 (p : Byte) : State := st false (0x30 ||| p)
def n16 (p : Byte) : State := st false p
def em (p : Byte) : State := st true (0x30 ||| p)

/-- The state with bytes in memory. -/
def put (cells : List (Nat × Byte)) (s : State) : State := { s with mem := cells.foldl (fun m c => m.write c.1 c.2) s.mem }

/-- The state after one step with the bytes at PBR:PC. -/
def go (code : List Byte) (s : State) : State :=
  match step { s with mem := placeBytes s.PBR s.PC code s.mem } with
  | .next t => t
  | _ => s

/-- The byte of memory at an address. -/
def peek (s : State) (a : Nat) : Byte := s.mem.read a

/-- The state after one step in which the pins are as given. -/
def pins (nmi irq abort reset : Bool) (s : State) : State :=
  { s with inputs := [{ nmiEdge := nmi, irqLine := irq, abortLine := abort, resetLine := reset }] }

/-! ### Well-formedness: an ill-formed term for each check, which the check refuses (30_encoding R93, R95) -/

theorem test_wf_imm_m_length : (Instr.lda (.imm (.word 0x1234))).wellFormed true true = false := by decide
theorem test_wf_imm_m_length_16 : (Instr.lda (.imm (.byte 0x12))).wellFormed false false = false := by decide
theorem test_wf_imm_x_length : (Instr.ldx (.imm (.word 0x1234))).wellFormed false true = false := by decide
theorem test_wf_bit_imm_length : (Instr.bitImm (.byte 0x12)).wellFormed false true = false := by decide
theorem test_wf_general_mode : (Instr.adc (.mem (.dpY 0x12))).wellFormed true true = false := by decide
theorem test_wf_sta_mode : (Instr.sta (.dpY 0x12)).wellFormed true true = false := by decide
theorem test_wf_shift_mode : (Instr.asl (.mem (.absY 0x1234))).wellFormed true true = false := by decide
theorem test_wf_ldx_mode : (Instr.ldx (.mem (.dpX 0x12))).wellFormed true true = false := by decide
theorem test_wf_ldy_mode : (Instr.ldy (.mem (.dpY 0x12))).wellFormed true true = false := by decide
theorem test_wf_compare_mode : (Instr.cpx (.mem (.dpX 0x12))).wellFormed true true = false := by decide
theorem test_wf_stx_mode : (Instr.stx (.absY 0x1234)).wellFormed true true = false := by decide
theorem test_wf_sty_mode : (Instr.sty (.absX 0x1234)).wellFormed true true = false := by decide
theorem test_wf_stz_mode : (Instr.stz (.dpInd 0x12)).wellFormed true true = false := by decide
theorem test_wf_tsb_mode : (Instr.tsb (.dpX 0x12)).wellFormed true true = false := by decide

/-- An ill-formed term has no encoding when its mode is not in the opcode map. -/
theorem test_wf_no_encoding : encode (.stx (.absY 0x1234)) = none := by decide

/-! ### Decoding: a word of each constructor and of each mode, written out from the opcode map (30_encoding R95, R115) -/

theorem test_decode_arith : ∀ r ∈ ([
    ([0x61, 0x12], .adc (.mem (.dpXInd 0x12))),
    ([0x63, 0x12], .adc (.mem (.sr 0x12))),
    ([0x65, 0x12], .adc (.mem (.dp 0x12))),
    ([0x67, 0x12], .adc (.mem (.dpIndLong 0x12))),
    ([0x69, 0x12], .adc (.imm (.byte 0x12))),
    ([0x6D, 0x12, 0x34], .adc (.mem (.abs 0x3412))),
    ([0x6F, 0x12, 0x34, 0x56], .adc (.mem (.long 0x563412))),
    ([0x71, 0x12], .adc (.mem (.dpIndY 0x12))),
    ([0x72, 0x12], .adc (.mem (.dpInd 0x12))),
    ([0x73, 0x12], .adc (.mem (.srIndY 0x12))),
    ([0x75, 0x12], .adc (.mem (.dpX 0x12))),
    ([0x77, 0x12], .adc (.mem (.dpIndLongY 0x12))),
    ([0x79, 0x12, 0x34], .adc (.mem (.absY 0x3412))),
    ([0x7D, 0x12, 0x34], .adc (.mem (.absX 0x3412))),
    ([0x7F, 0x12, 0x34, 0x56], .adc (.mem (.longX 0x563412))),
    ([0xF1, 0x12], .sbc (.mem (.dpIndY 0x12)))] : List (List Byte × Instr)),
    decode true true (r.1 ++ [0x77]) = .ok (r.2, [0x77]) ∧ encode r.2 = some r.1 := by decide

theorem test_decode_logical : ∀ r ∈ ([
    ([0x21, 0x12], .and (.mem (.dpXInd 0x12))),
    ([0x11, 0x12], .ora (.mem (.dpIndY 0x12))),
    ([0x51, 0x12], .eor (.mem (.dpIndY 0x12)))] : List (List Byte × Instr)),
    decode true true (r.1 ++ [0x77]) = .ok (r.2, [0x77]) ∧ encode r.2 = some r.1 := by decide

theorem test_decode_shift : ∀ r ∈ ([
    ([0x06, 0x12], .asl (.mem (.dp 0x12))),
    ([0x0A], .asl .acc),
    ([0x0E, 0x12, 0x34], .asl (.mem (.abs 0x3412))),
    ([0x16, 0x12], .asl (.mem (.dpX 0x12))),
    ([0x1E, 0x12, 0x34], .asl (.mem (.absX 0x3412))),
    ([0x4E, 0x12, 0x34], .lsr (.mem (.abs 0x3412))),
    ([0x2E, 0x12, 0x34], .rol (.mem (.abs 0x3412))),
    ([0x6E, 0x12, 0x34], .ror (.mem (.abs 0x3412)))] : List (List Byte × Instr)),
    decode true true (r.1 ++ [0x77]) = .ok (r.2, [0x77]) ∧ encode r.2 = some r.1 := by decide

theorem test_decode_incdec : ∀ r ∈ ([
    ([0xEE, 0x12, 0x34], .inc (.mem (.abs 0x3412))),
    ([0xCE, 0x12, 0x34], .dec (.mem (.abs 0x3412))),
    ([0xE8], .inx),
    ([0xC8], .iny),
    ([0xCA], .dex),
    ([0x88], .dey)] : List (List Byte × Instr)),
    decode true true (r.1 ++ [0x77]) = .ok (r.2, [0x77]) ∧ encode r.2 = some r.1 := by decide

theorem test_decode_load : ∀ r ∈ ([
    ([0xB1, 0x12], .lda (.mem (.dpIndY 0x12))),
    ([0xA2, 0x12], .ldx (.imm (.byte 0x12))),
    ([0xA6, 0x12], .ldx (.mem (.dp 0x12))),
    ([0xAE, 0x12, 0x34], .ldx (.mem (.abs 0x3412))),
    ([0xB6, 0x12], .ldx (.mem (.dpY 0x12))),
    ([0xBE, 0x12, 0x34], .ldx (.mem (.absY 0x3412))),
    ([0xA0, 0x12], .ldy (.imm (.byte 0x12))),
    ([0xA4, 0x12], .ldy (.mem (.dp 0x12))),
    ([0xAC, 0x12, 0x34], .ldy (.mem (.abs 0x3412))),
    ([0xB4, 0x12], .ldy (.mem (.dpX 0x12))),
    ([0xBC, 0x12, 0x34], .ldy (.mem (.absX 0x3412)))] : List (List Byte × Instr)),
    decode true true (r.1 ++ [0x77]) = .ok (r.2, [0x77]) ∧ encode r.2 = some r.1 := by decide

theorem test_decode_store : ∀ r ∈ ([
    ([0x92, 0x12], .sta (.dpInd 0x12)),
    ([0x86, 0x12], .stx (.dp 0x12)),
    ([0x8E, 0x12, 0x34], .stx (.abs 0x3412)),
    ([0x96, 0x12], .stx (.dpY 0x12)),
    ([0x84, 0x12], .sty (.dp 0x12)),
    ([0x8C, 0x12, 0x34], .sty (.abs 0x3412)),
    ([0x94, 0x12], .sty (.dpX 0x12)),
    ([0x64, 0x12], .stz (.dp 0x12)),
    ([0x74, 0x12], .stz (.dpX 0x12)),
    ([0x9C, 0x12, 0x34], .stz (.abs 0x3412)),
    ([0x9E, 0x12, 0x34], .stz (.absX 0x3412))] : List (List Byte × Instr)),
    decode true true (r.1 ++ [0x77]) = .ok (r.2, [0x77]) ∧ encode r.2 = some r.1 := by decide

theorem test_decode_compare : ∀ r ∈ ([
    ([0xD1, 0x12], .cmp (.mem (.dpIndY 0x12))),
    ([0xE4, 0x12], .cpx (.mem (.dp 0x12))),
    ([0xC4, 0x12], .cpy (.mem (.dp 0x12)))] : List (List Byte × Instr)),
    decode true true (r.1 ++ [0x77]) = .ok (r.2, [0x77]) ∧ encode r.2 = some r.1 := by decide

theorem test_decode_bit_test : ∀ r ∈ ([
    ([0x34, 0x12], .bit (.dpX 0x12)),
    ([0x89, 0x12], .bitImm (.byte 0x12)),
    ([0x0C, 0x12, 0x34], .tsb (.abs 0x3412)),
    ([0x1C, 0x12, 0x34], .trb (.abs 0x3412))] : List (List Byte × Instr)),
    decode true true (r.1 ++ [0x77]) = .ok (r.2, [0x77]) ∧ encode r.2 = some r.1 := by decide

theorem test_decode_branch : ∀ r ∈ ([
    ([0x10, 0x12], .bpl 0x12),
    ([0x30, 0x12], .bmi 0x12),
    ([0x50, 0x12], .bvc 0x12),
    ([0x70, 0x12], .bvs 0x12),
    ([0x90, 0x12], .bcc 0x12),
    ([0xB0, 0x12], .bcs 0x12),
    ([0xD0, 0x12], .bne 0x12),
    ([0xF0, 0x12], .beq 0x12),
    ([0x80, 0x12], .bra 0x12),
    ([0x82, 0x12, 0x34], .brl 0x3412)] : List (List Byte × Instr)),
    decode true true (r.1 ++ [0x77]) = .ok (r.2, [0x77]) ∧ encode r.2 = some r.1 := by decide

theorem test_decode_jump : ∀ r ∈ ([
    ([0x4C, 0x12, 0x34], .jmpAbs 0x3412),
    ([0x6C, 0x12, 0x34], .jmpInd 0x3412),
    ([0x7C, 0x12, 0x34], .jmpIndX 0x3412),
    ([0x5C, 0x12, 0x34, 0x56], .jmlLong 0x563412),
    ([0xDC, 0x12, 0x34], .jmlInd 0x3412),
    ([0x20, 0x12, 0x34], .jsrAbs 0x3412),
    ([0xFC, 0x12, 0x34], .jsrIndX 0x3412),
    ([0x22, 0x12, 0x34, 0x56], .jsl 0x563412),
    ([0x60], .rts),
    ([0x6B], .rtl)] : List (List Byte × Instr)),
    decode true true (r.1 ++ [0x77]) = .ok (r.2, [0x77]) ∧ encode r.2 = some r.1 := by decide

theorem test_decode_push : ∀ r ∈ ([
    ([0x48], .pha),
    ([0xDA], .phx),
    ([0x5A], .phy),
    ([0x08], .php),
    ([0x8B], .phb),
    ([0x4B], .phk),
    ([0x0B], .phd),
    ([0xF4, 0x12, 0x34], .pea 0x3412),
    ([0xD4, 0x12], .pei 0x12),
    ([0x62, 0x12, 0x34], .per 0x3412)] : List (List Byte × Instr)),
    decode true true (r.1 ++ [0x77]) = .ok (r.2, [0x77]) ∧ encode r.2 = some r.1 := by decide

theorem test_decode_pull : ∀ r ∈ ([
    ([0x68], .pla),
    ([0xFA], .plx),
    ([0x7A], .ply),
    ([0x28], .plp),
    ([0xAB], .plb),
    ([0x2B], .pld)] : List (List Byte × Instr)),
    decode true true (r.1 ++ [0x77]) = .ok (r.2, [0x77]) ∧ encode r.2 = some r.1 := by decide

theorem test_decode_transfer : ∀ r ∈ ([
    ([0xAA], .tax),
    ([0xA8], .tay),
    ([0x8A], .txa),
    ([0x98], .tya),
    ([0x9B], .txy),
    ([0xBB], .tyx),
    ([0xBA], .tsx),
    ([0x9A], .txs),
    ([0x1B], .tcs),
    ([0x3B], .tsc),
    ([0x5B], .tcd),
    ([0x7B], .tdc),
    ([0xEB], .xba)] : List (List Byte × Instr)),
    decode true true (r.1 ++ [0x77]) = .ok (r.2, [0x77]) ∧ encode r.2 = some r.1 := by decide

theorem test_decode_flag : ∀ r ∈ ([
    ([0x18], .clc),
    ([0x38], .sec),
    ([0x58], .cli),
    ([0x78], .sei),
    ([0xD8], .cld),
    ([0xF8], .sed),
    ([0xB8], .clv),
    ([0xC2, 0x12], .rep 0x12),
    ([0xE2, 0x12], .sep 0x12),
    ([0xFB], .xce),
    ([0xEA], .nop),
    ([0x42, 0x12], .wdm 0x12)] : List (List Byte × Instr)),
    decode true true (r.1 ++ [0x77]) = .ok (r.2, [0x77]) ∧ encode r.2 = some r.1 := by decide

theorem test_decode_system : ∀ r ∈ ([
    ([0x54, 0x12, 0x34], .mvn 0x12 0x34),
    ([0x44, 0x12, 0x34], .mvp 0x12 0x34),
    ([0xCB], .wai),
    ([0xDB], .stp),
    ([0x00, 0x12], .brk 0x12),
    ([0x02, 0x12], .cop 0x12),
    ([0x40], .rti)] : List (List Byte × Instr)),
    decode true true (r.1 ++ [0x77]) = .ok (r.2, [0x77]) ∧ encode r.2 = some r.1 := by decide

/-- V1 to V4, V164: the length of an immediate follows P.M and P.X (30_encoding R93). -/
theorem test_decode_widths :
    decode false true [0xA9, 0x34, 0x12] = .ok (.lda (.imm (.word 0x1234)), []) ∧
    decode true false [0xA9, 0x34, 0x12] = .ok (.lda (.imm (.byte 0x34)), [0x12]) ∧
    decode true false [0xA2, 0xFF, 0x1F] = .ok (.ldx (.imm (.word 0x1FFF)), []) ∧
    decode false true [0xA2, 0xFF, 0x1F] = .ok (.ldx (.imm (.byte 0xFF)), [0x1F]) ∧
    decode false false [0xC2, 0x30] = .ok (.rep 0x30, []) ∧
    decode false true [0x89, 0x00, 0x80] = .ok (.bitImm (.word 0x8000), []) := by decide

/-- The decoder rejects by name what is cut short. -/
theorem test_decode_short : (decode true true []).isOk = false ∧ (decode true true [0xA9]).isOk = false ∧
    (decode false true [0xA9, 0x34]).isOk = false ∧ (decode true true [0x5C, 0x00, 0x80]).isOk = false := by decide

/-! ### One step of each instruction -/

/-- V41. -/
theorem test_adc_overflow :
    let t := go [0x69, 0x00, 0x80] { n16 0x00 with A := 0x8000 }
    t.A = 0x0000 ∧ packP t.P = 0x43 := by decide

/-- V55. -/
theorem test_adc_decimal_chain :
    let t := go [0x69, 0x01, 0x00] { n16 0x08 with A := 0x0999 }
    t.A = 0x1000 ∧ packP t.P = 0x08 := by decide

/-- V58. -/
theorem test_sbc_overflow :
    let t := go [0xE9, 0x01] { n8 0x01 with A := 0x0080 }
    t.A = 0x007F ∧ packP t.P = 0x71 := by decide

/-- V63, with AH kept (R140). -/
theorem test_sbc_decimal_borrow :
    let t := go [0xE9, 0x01] { n8 0x09 with A := 0xAB00 }
    t.A = 0xAB99 ∧ packP t.P = 0xB8 := by decide

/-- V80. -/
theorem test_and_keeps_high :
    let t := go [0x29, 0x3C] { n8 0x41 with A := 0x12F0 }
    t.A = 0x1230 ∧ packP t.P = 0x71 := by decide

/-- V82. -/
theorem test_ora_negative :
    let t := go [0x09, 0x01, 0x80] { n16 0x00 with A := 0x0000 }
    t.A = 0x8001 ∧ packP t.P = 0x80 := by decide

/-- V86. -/
theorem test_eor_memory :
    let t := go [0x45, 0x10] (put [(0x10, 0x34), (0x11, 0x12)] { n16 0x00 with A := 0x1234 })
    t.A = 0x0000 ∧ packP t.P = 0x02 := by decide

/-- V91. -/
theorem test_asl_acc :
    let t := go [0x0A] { n8 0x00 with A := 0x0081 }
    t.A = 0x0002 ∧ packP t.P = 0x31 := by decide

/-- V93. -/
theorem test_asl_memory :
    let t := go [0x06, 0x40] (put [(0x40, 0x40)] (n8 0x00))
    peek t 0x40 = 0x80 ∧ packP t.P = 0xB0 := by decide

/-- V95. -/
theorem test_lsr_acc :
    let t := go [0x4A] { n16 0x00 with A := 0x8001 }
    t.A = 0x4000 ∧ packP t.P = 0x01 := by decide

/-- V96. -/
theorem test_rol_acc :
    let t := go [0x2A] { n8 0x01 with A := 0x0080 }
    t.A = 0x0001 ∧ packP t.P = 0x31 := by decide

/-- V100. -/
theorem test_rol_memory :
    let t := go [0x2E, 0x00, 0x10] (put [(0x7E1001, 0x80)] { n16 0x00 with DBR := 0x7E })
    peek t 0x7E1001 = 0x00 ∧ packP t.P = 0x03 := by decide

/-- V98. -/
theorem test_ror_acc :
    let t := go [0x6A] { n8 0x01 with A := 0x0001 }
    t.A = 0x0080 ∧ packP t.P = 0xB1 := by decide

/-- V110. -/
theorem test_inc_acc :
    let t := go [0x1A] { n8 0x41 with A := 0x12FF }
    t.A = 0x1200 ∧ packP t.P = 0x73 := by decide

/-- V122. -/
theorem test_inc_binary :
    let t := go [0x1A] { n8 0x08 with A := 0x0009 }
    t.A = 0x000A ∧ packP t.P = 0x38 := by decide

/-- V113. -/
theorem test_dec_memory :
    let t := go [0xC6, 0x10] (n16 0x00)
    peek t 0x10 = 0xFF ∧ peek t 0x11 = 0xFF ∧ packP t.P = 0x80 := by decide

/-- V116. -/
theorem test_inx_wraps :
    let t := go [0xE8] { n8 0x00 with X := 0x00FF }
    t.X = 0x0000 ∧ packP t.P = 0x32 := by decide

/-- V121. -/
theorem test_iny_negative :
    let t := go [0xC8] { n8 0x00 with Y := 0x007F }
    t.Y = 0x0080 ∧ packP t.P = 0xB0 := by decide

/-- V120. -/
theorem test_dex :
    let t := go [0xCA] { n8 0x00 with X := 0x0080 }
    t.X = 0x007F ∧ packP t.P = 0x30 := by decide

/-- V118. -/
theorem test_dey_16 :
    let t := go [0x88] { n16 0x00 with Y := 0x0000 }
    t.Y = 0xFFFF ∧ packP t.P = 0x80 := by decide

/-- V119. -/
theorem test_dey_8 :
    let t := go [0x88] { n8 0x00 with Y := 0x0000 }
    t.Y = 0x00FF ∧ packP t.P = 0xB0 := by decide

/-- V132. -/
theorem test_lda_bank :
    let t := go [0xAD, 0x00, 0x01] (put [(0x7E0100, 0x34), (0x7E0101, 0x12)] { n16 0x00 with DBR := 0x7E })
    t.A = 0x1234 ∧ packP t.P = 0x00 := by decide

/-- V131. -/
theorem test_lda_keeps_high :
    let t := go [0xA9, 0x00] { n8 0x00 with A := 0xAB12 }
    t.A = 0xAB00 ∧ packP t.P = 0x32 := by decide

/-- V133. -/
theorem test_ldx :
    let t := go [0xA2, 0x80] (n8 0x00)
    t.X = 0x0080 ∧ packP t.P = 0xB0 := by decide

/-- V134. -/
theorem test_ldy :
    let t := go [0xA0, 0x00, 0x00] { n16 0x00 with Y := 0x1234 }
    t.Y = 0x0000 ∧ packP t.P = 0x02 := by decide

/-- V136. -/
theorem test_sta_bank0 :
    let t := go [0x85, 0xFF] { n16 0x00 with A := 0xBEEF, D := 0xFF00 }
    peek t 0x00FFFF = 0xEF ∧ peek t 0x000000 = 0xBE ∧ peek t 0x010000 = 0x00 := by decide

/-- V140. -/
theorem test_sta_8 :
    let t := go [0x85, 0x30] (put [(0x30, 0xAA), (0x31, 0xAA)] { n8 0x00 with A := 0xFF55 })
    peek t 0x30 = 0x55 ∧ peek t 0x31 = 0xAA := by decide

/-- V137. -/
theorem test_stx :
    let t := go [0x86, 0x10] { n8 0x00 with X := 0x0042 }
    peek t 0x10 = 0x42 ∧ packP t.P = 0x30 := by decide

/-- V138. -/
theorem test_sty :
    let t := go [0x8C, 0x00, 0x20] { n16 0x00 with Y := 0xBEEF }
    peek t 0x2000 = 0xEF ∧ peek t 0x2001 = 0xBE := by decide

/-- V139. -/
theorem test_stz :
    let t := go [0x64, 0x20] (put [(0x120, 0xAA), (0x121, 0xAA)] { n16 0x00 with D := 0x0100 })
    peek t 0x120 = 0x00 ∧ peek t 0x121 = 0x00 := by decide

/-- V152. -/
theorem test_cmp_unsigned :
    let t := go [0xC9, 0x80] { n8 0x00 with A := 0x007F }
    t.A = 0x007F ∧ packP t.P = 0xB0 := by decide

/-- V157. -/
theorem test_cmp_keeps_v :
    let t := go [0xC9, 0x01, 0x00] { n16 0x40 with A := 0x8000 }
    packP t.P = 0x41 := by decide

/-- V155. -/
theorem test_cpx :
    let t := go [0xE0, 0x00, 0x02] { n16 0x00 with X := 0x0100 }
    t.X = 0x0100 ∧ packP t.P = 0x80 := by decide

/-- V156. -/
theorem test_cpy :
    let t := go [0xC0, 0x05] { n8 0x00 with Y := 0x0005 }
    packP t.P = 0x33 := by decide

/-- V161. -/
theorem test_bit_memory :
    let t := go [0x24, 0x10] (put [(0x11, 0xC0)] { n16 0x00 with A := 0x0001 })
    packP t.P = 0xC2 := by decide

/-- V163. -/
theorem test_bit_imm :
    let t := go [0x89, 0xF0] { n8 0x80 with A := 0x000F }
    packP t.P = 0xB2 := by decide

/-- V165. -/
theorem test_tsb :
    let t := go [0x04, 0x10] (put [(0x10, 0x01)] { n8 0x00 with A := 0x0081 })
    peek t 0x10 = 0x81 ∧ packP t.P = 0x30 := by decide

/-- 20_memory R70: after the two fetches, one read of the place and then one write of it. -/
theorem test_tsb_record :
    (go [0x04, 0x10] (put [(0x10, 0x01)] { n8 0x00 with A := 0x0081 })).events =
      [⟨.write, 0x10, 0x81⟩, ⟨.read, 0x10, 0x01⟩, ⟨.read, 0x8001, 0x10⟩, ⟨.read, 0x8000, 0x04⟩] := by decide

/-- V168. -/
theorem test_trb :
    let t := go [0x14, 0x10] (put [(0x10, 0xF0), (0x11, 0x0F)] { n16 0x00 with A := 0x00F0 })
    peek t 0x10 = 0x00 ∧ peek t 0x11 = 0x0F ∧ packP t.P = 0x00 := by decide

/-- V180. -/
theorem test_bpl :
    let t := go [0x10, 0x05] (n8 0x00)
    t.PC = 0x8007 := by decide

/-- V181. -/
theorem test_bmi :
    let t := go [0x30, 0xFC] (n8 0x80)
    t.PC = 0x7FFE := by decide

/-- V182. -/
theorem test_bvc :
    let t := go [0x50, 0x10] (n8 0x40)
    t.PC = 0x8002 := by decide

/-- 47_control R234. -/
theorem test_bvs :
    let t := go [0x70, 0x10] (n8 0x40)
    t.PC = 0x8012 := by decide

/-- 47_control R235. -/
theorem test_bcc :
    let t := go [0x90, 0x02] (n8 0x00)
    t.PC = 0x8004 := by decide

/-- V183. -/
theorem test_bcs :
    let t := go [0xB0, 0x02] (n8 0x00)
    t.PC = 0x8002 := by decide

/-- V185. -/
theorem test_beq :
    let t := go [0xF0, 0x00] (n8 0x02)
    t.PC = 0x8002 := by decide

/-- V29. -/
theorem test_bra :
    let t := go [0x80, 0x80] (n8 0x00)
    t.PC = 0x7F82 := by decide

/-- V188. -/
theorem test_brl :
    let t := go [0x82, 0xFD, 0x7F] (n8 0x00)
    t.PC = 0x0000 := by decide

/-- V184. -/
theorem test_bne :
    let t := go [0xD0, 0xF9] { n8 0x00 with PC := 0x8005 }
    t.PC = 0x8000 := by decide

/-- V186. -/
theorem test_bcs_wraps :
    let t := go [0xB0, 0x20] { n8 0x01 with PC := 0xFFEE, PBR := 0x05 }
    t.PC = 0x0010 ∧ t.PBR = 0x05 := by decide

/-- V189. -/
theorem test_jmp :
    let t := go [0x4C, 0x00, 0x90] { n8 0x00 with PBR := 0x01 }
    t.PC = 0x9000 ∧ t.PBR = 0x01 := by decide

/-- V30: the pointer wraps in bank 0. -/
theorem test_jmp_ind :
    let t := go [0x6C, 0xFF, 0xFF] (put [(0x000000, 0x90)] (n8 0x00))
    t.PC = 0x9000 := by decide

/-- V31. -/
theorem test_jmp_ind_x :
    let t := go [0x7C, 0x00, 0x80] (put [(0x028005, 0xA0)] { n16 0x00 with PBR := 0x02, X := 0x0004 })
    t.PC = 0xA000 ∧ t.PBR = 0x02 := by decide

/-- V7. -/
theorem test_jml :
    let t := go [0x5C, 0x00, 0x80, 0xC0] (n8 0x00)
    t.PC = 0x8000 ∧ t.PBR = 0xC0 := by decide

/-- V191. -/
theorem test_jml_ind :
    let t := go [0xDC, 0x10, 0x00] (put [(0x10, 0x00), (0x11, 0x80), (0x12, 0xC0)] (n8 0x00))
    t.PC = 0x8000 ∧ t.PBR = 0xC0 := by decide

/-- V192. -/
theorem test_jsr :
    let t := go [0x20, 0x00, 0x90] (em 0x00)
    peek t 0x01FF = 0x80 ∧ peek t 0x01FE = 0x02 ∧ t.S = 0x01FD ∧ t.PC = 0x9000 := by decide

/-- V197, at 0x02:9000. -/
theorem test_jsr_ind_x :
    let t := go [0xFC, 0x00, 0x80] (put [(0x028005, 0xA0)] { n16 0x00 with PBR := 0x02, X := 0x0004, S := 0x1FFF, PC := 0x9000 })
    peek t 0x1FFF = 0x90 ∧ peek t 0x1FFE = 0x02 ∧ t.S = 0x1FFD ∧ t.PC = 0xA000 := by decide

/-- V194. -/
theorem test_jsl :
    let t := go [0x22, 0x00, 0x80, 0x01] { n8 0x00 with S := 0x1FFF }
    peek t 0x1FFF = 0x00 ∧ peek t 0x1FFE = 0x80 ∧ peek t 0x1FFD = 0x03 ∧ t.S = 0x1FFC ∧ t.PBR = 0x01 := by decide

/-- V196. -/
theorem test_rts :
    let t := go [0x60] (put [(0x1FFE, 0xFF), (0x1FFF, 0xFF)] { n8 0x00 with S := 0x1FFD })
    t.PC = 0x0000 ∧ t.S = 0x1FFF ∧ t.PBR = 0x00 := by decide

/-- V195. -/
theorem test_rtl :
    let t := go [0x6B] (put [(0x1FFD, 0x03), (0x1FFE, 0x80)] { n8 0x00 with S := 0x1FFC, PBR := 0x01 })
    t.PC = 0x8004 ∧ t.PBR = 0x00 ∧ t.S = 0x1FFF := by decide

/-- V200. -/
theorem test_pha :
    let t := go [0x48] { n16 0x00 with A := 0x1234 }
    peek t 0x01FF = 0x12 ∧ peek t 0x01FE = 0x34 ∧ t.S = 0x01FD := by decide

/-- V201. -/
theorem test_pha_emulation :
    let t := go [0x48] { em 0x00 with A := 0x0055, S := 0x0100 }
    peek t 0x0100 = 0x55 ∧ t.S = 0x01FF := by decide

/-- 48_stack_transfer R261. -/
theorem test_phx :
    let t := go [0xDA] { n8 0x00 with X := 0x0042 }
    peek t 0x01FF = 0x42 ∧ t.S = 0x01FE := by decide

/-- 48_stack_transfer R262. -/
theorem test_phy :
    let t := go [0x5A] { n16 0x00 with Y := 0xABCD }
    peek t 0x01FF = 0xAB ∧ peek t 0x01FE = 0xCD := by decide

/-- V203. -/
theorem test_php_native :
    let t := go [0x08] (n8 0x00)
    peek t 0x01FF = 0x30 := by decide

/-- V204. -/
theorem test_php_emulation :
    let t := go [0x08] (em 0x80)
    peek t 0x01FF = 0xB0 := by decide

/-- 48_stack_transfer R264. -/
theorem test_phb :
    let t := go [0x8B] { n16 0x00 with DBR := 0x7E }
    peek t 0x01FF = 0x7E ∧ t.S = 0x01FE := by decide

/-- 48_stack_transfer R265. -/
theorem test_phk :
    let t := go [0x4B] { n16 0x00 with PBR := 0x80 }
    peek t 0x01FF = 0x80 ∧ t.S = 0x01FE := by decide

/-- V207. -/
theorem test_phd :
    let t := go [0x0B] { n8 0x00 with D := 0x0300 }
    peek t 0x01FF = 0x03 ∧ peek t 0x01FE = 0x00 ∧ t.S = 0x01FD := by decide

/-- 48_stack_transfer R267. -/
theorem test_pea :
    let t := go [0xF4, 0x34, 0x12] (n8 0x00)
    peek t 0x01FF = 0x12 ∧ peek t 0x01FE = 0x34 := by decide

/-- V210. -/
theorem test_pei :
    let t := go [0xD4, 0x10] (put [(0x10, 0xCD), (0x11, 0xAB)] (n8 0x00))
    peek t 0x01FF = 0xAB ∧ peek t 0x01FE = 0xCD := by decide

/-- V208. -/
theorem test_per :
    let t := go [0x62, 0x10, 0x00] (n8 0x00)
    peek t 0x01FF = 0x80 ∧ peek t 0x01FE = 0x13 := by decide

/-- V202. -/
theorem test_pla :
    let t := go [0x68] (put [(0x0100, 0x80)] { em 0x00 with A := 0x1200 })
    t.A = 0x1280 ∧ t.S = 0x0100 ∧ packP t.P = 0xB0 := by decide

/-- 48_stack_transfer R271. -/
theorem test_plx :
    let t := go [0xFA] { n16 0x00 with X := 0x1234 }
    t.X = 0x0000 ∧ packP t.P = 0x02 := by decide

/-- 48_stack_transfer R272. -/
theorem test_ply :
    let t := go [0x7A] (put [(0x0200, 0x01)] (n8 0x00))
    t.Y = 0x0001 ∧ t.S = 0x0200 := by decide

/-- V205. -/
theorem test_plp_emulation :
    let t := go [0x28] (em 0x00)
    packP t.P = 0x30 := by decide

/-- V206. -/
theorem test_plp_index :
    let t := go [0x28] (put [(0x0200, 0x10)] { n16 0x00 with X := 0x1234 })
    t.X = 0x0034 ∧ packP t.P = 0x10 := by decide

/-- V211. -/
theorem test_plb :
    let t := go [0xAB] (put [(0x0200, 0x7E)] (n16 0x00))
    t.DBR = 0x7E ∧ packP t.P = 0x00 := by decide

/-- V212. -/
theorem test_pld :
    let t := go [0x2B] (put [(0x0201, 0x80)] (n8 0x00))
    t.D = 0x8000 ∧ packP t.P = 0xB0 := by decide

/-- V213. -/
theorem test_tax :
    let t := go [0xAA] { st false 0x20 with A := 0x12F0 }
    t.X = 0x12F0 ∧ packP t.P = 0x20 := by decide

/-- 48_stack_transfer R277. -/
theorem test_tay :
    let t := go [0xA8] { n8 0x00 with A := 0x0080 }
    t.Y = 0x0080 ∧ packP t.P = 0xB0 := by decide

/-- V214. -/
theorem test_txa :
    let t := go [0x8A] { st false 0x10 with X := 0x00FF, A := 0x1234 }
    t.A = 0x00FF ∧ packP t.P = 0x10 := by decide

/-- V215. -/
theorem test_tya :
    let t := go [0x98] { n8 0x00 with A := 0x5511 }
    t.A = 0x5500 ∧ packP t.P = 0x32 := by decide

/-- 48_stack_transfer R280. -/
theorem test_txy :
    let t := go [0x9B] { n16 0x00 with X := 0x8000 }
    t.Y = 0x8000 ∧ packP t.P = 0x80 := by decide

/-- 48_stack_transfer R281. -/
theorem test_tyx :
    let t := go [0xBB] { n16 0x00 with X := 0x1234 }
    t.X = 0x0000 ∧ packP t.P = 0x02 := by decide

/-- V222. -/
theorem test_tsx :
    let t := go [0xBA] { em 0x00 with S := 0x01F0 }
    t.X = 0x00F0 ∧ packP t.P = 0xB0 := by decide

/-- V216. -/
theorem test_txs :
    let t := go [0x9A] { n8 0x00 with X := 0x0042, S := 0x1FFF }
    t.S = 0x0042 ∧ packP t.P = 0x30 := by decide

/-- V217. -/
theorem test_tcs :
    let t := go [0x1B] { em 0x00 with A := 0x1234 }
    t.S = 0x0134 ∧ packP t.P = 0x30 := by decide

/-- V218. -/
theorem test_tsc :
    let t := go [0x3B] (em 0x00)
    t.A = 0x01FF ∧ packP t.P = 0x30 := by decide

/-- 48_stack_transfer R286. -/
theorem test_tcd :
    let t := go [0x5B] { n8 0x00 with D := 0x1234 }
    t.D = 0x0000 ∧ packP t.P = 0x32 := by decide

/-- V219. -/
theorem test_tdc :
    let t := go [0x7B] { n8 0x00 with D := 0x8000 }
    t.A = 0x8000 ∧ packP t.P = 0xB0 := by decide

/-- V220. -/
theorem test_xba :
    let t := go [0xEB] { n8 0x00 with A := 0x12FF }
    t.A = 0xFF12 ∧ packP t.P = 0x30 := by decide

/-- V221. -/
theorem test_xba_flags :
    let t := go [0xEB] { n8 0x00 with A := 0x0080 }
    t.A = 0x8000 ∧ packP t.P = 0x32 := by decide

/-- V230. -/
theorem test_clc :
    let t := go [0x18] (n8 0x01)
    packP t.P = 0x30 := by decide

/-- 49_system R291. -/
theorem test_sec :
    let t := go [0x38] (n8 0x00)
    packP t.P = 0x31 := by decide

/-- 49_system R292. -/
theorem test_cli :
    let t := go [0x58] (n8 0x04)
    packP t.P = 0x30 := by decide

/-- 49_system R293. -/
theorem test_sei :
    let t := go [0x78] (n8 0x00)
    packP t.P = 0x34 := by decide

/-- 49_system R294. -/
theorem test_cld :
    let t := go [0xD8] (n8 0x08)
    packP t.P = 0x30 := by decide

/-- 49_system R295. -/
theorem test_sed :
    let t := go [0xF8] (n8 0x00)
    packP t.P = 0x38 := by decide

/-- V231. -/
theorem test_clv :
    let t := go [0xB8] (n8 0x40)
    packP t.P = 0x30 := by decide

/-- V232. -/
theorem test_rep :
    let t := go [0xC2, 0x30] (n8 0x00)
    packP t.P = 0x00 := by decide

/-- V233. -/
theorem test_rep_emulation :
    let t := go [0xC2, 0x30] (em 0x04)
    packP t.P = 0x34 := by decide

/-- V234. -/
theorem test_sep_index :
    let t := go [0xE2, 0x10] { n16 0x00 with X := 0x1234, Y := 0xABCD }
    t.X = 0x0034 ∧ t.Y = 0x00CD ∧ packP t.P = 0x10 := by decide

/-- V235. -/
theorem test_sep_acc :
    let t := go [0xE2, 0x20] { n16 0x00 with A := 0x1234 }
    t.A = 0x1234 ∧ packP t.P = 0x20 := by decide

/-- V236. -/
theorem test_xce_native :
    let t := go [0xFB] (em 0x00)
    t.E = false ∧ packP t.P = 0x31 := by decide

/-- V237. -/
theorem test_xce_emulation :
    let t := go [0xFB] { n16 0x01 with X := 0x1234, S := 0x1FFF }
    t.E = true ∧ t.X = 0x0034 ∧ t.S = 0x01FF ∧ packP t.P = 0x30 := by decide

/-- V8. -/
theorem test_nop_wraps :
    let t := go [0xEA] { n8 0x00 with PC := 0xFFFF }
    t.PC = 0x0000 ∧ t.PBR = 0x00 := by decide

/-- V238. -/
theorem test_wdm :
    let t := go [0x42, 0xFF] (n8 0x00)
    t.PC = 0x8002 ∧ packP t.P = 0x30 := by decide

/-- V240. -/
theorem test_mvn :
    let t := go [0x54, 0x7F, 0x7E] (put [(0x7E1000, 0x5A)] { n16 0x00 with X := 0x1000, Y := 0x2000, A := 0x0002 })
    peek t 0x7F2000 = 0x5A ∧ t.X = 0x1001 ∧ t.Y = 0x2001 ∧ t.A = 0x0001 ∧ t.PC = 0x8000 := by decide

/-- V242. -/
theorem test_mvn_last :
    let t := go [0x54, 0x01, 0x02] (put [(0x0200FF, 0x5A)] { n8 0x00 with X := 0x00FF, Y := 0x0010 })
    peek t 0x010010 = 0x5A ∧ t.X = 0x0000 ∧ t.Y = 0x0011 ∧ t.A = 0xFFFF ∧ t.DBR = 0x01 ∧
    t.PC = 0x8003 := by decide

/-- V241, the first byte. -/
theorem test_mvp :
    let t := go [0x44, 0x7F, 0x7E] (put [(0x7E1002, 0x5A)] { n16 0x00 with X := 0x1002, Y := 0x2002, A := 0x0002 })
    peek t 0x7F2002 = 0x5A ∧ t.X = 0x1001 ∧ t.Y = 0x2001 := by decide

/-- V247. -/
theorem test_wai :
    let t := go [0xCB] (n8 0x00)
    t.waiting = true ∧ t.PC = 0x8001 := by decide

/-- V248. -/
theorem test_stp :
    let t := go [0xDB] (n8 0x00)
    t.stopped = true := by decide

/-- V243, with the vector 0x9000. -/
theorem test_brk :
    let t := go [0x00, 0xEA] (put [(0xFFE7, 0x90)] { n8 0x00 with S := 0x1FFF })
    peek t 0x1FFF = 0x00 ∧ peek t 0x1FFE = 0x80 ∧ peek t 0x1FFD = 0x02 ∧ peek t 0x1FFC = 0x30 ∧ t.S = 0x1FFB ∧
    packP t.P = 0x34 ∧ t.PC = 0x9000 := by decide

/-- V246. -/
theorem test_brk_emulation :
    let t := go [0x00, 0xEA] (em 0x08)
    peek t 0x01FD = 0x38 ∧ packP t.P = 0x34 := by decide

/-- V245. -/
theorem test_cop :
    let t := go [0x02, 0xEA] (put [(0xFFF5, 0xA0)] { em 0x04 with PC := 0x9000 })
    peek t 0x01FF = 0x90 ∧ peek t 0x01FE = 0x02 ∧ peek t 0x01FD = 0x34 ∧ t.S = 0x01FC ∧ t.PC = 0xA000 := by decide

/-- V244. -/
theorem test_rti :
    let t := go [0x40] (put [(0x1FFC, 0x30), (0x1FFD, 0x02), (0x1FFE, 0x80)] { n8 0x04 with S := 0x1FFB, PBR := 0x00 })
    t.PC = 0x8002 ∧ t.S = 0x1FFF ∧ packP t.P = 0x30 := by decide

/-! ### Effective addresses -/

/-- V11: the sum carries into the next bank. -/
theorem test_ea_absX :
    (effectiveAddr (.absX 0xFFF8) { n16 0x00 with DBR := 0x12, X := 0x0010 }).1.addr = 0x130008 := by decide

/-- V15: wraps in bank 0. -/
theorem test_ea_dpX_bank0 :
    (effectiveAddr (.dpX 0x00) { n16 0x00 with D := 0xFFF0, X := 0x0020 }).1.addr = 0x000010 := by decide

/-- V16: wraps in the direct page. -/
theorem test_ea_dpX_page :
    (effectiveAddr (.dpX 0xF0) { em 0x00 with D := 0x0100, X := 0x0020 }).1.addr = 0x000110 := by decide

/-- V17: no page wrap. -/
theorem test_ea_dpX_no_page :
    (effectiveAddr (.dpX 0xF0) { em 0x00 with D := 0x0101, X := 0x0020 }).1.addr = 0x000211 := by decide

/-- V20. -/
theorem test_ea_dpXInd :
    (effectiveAddr (.dpXInd 0x10) (put [(0x14, 0x34), (0x15, 0x12)] { n8 0x00 with X := 0x0004 })).1.addr = 0x001234 := by decide

/-- V21: carries into the bank. -/
theorem test_ea_dpIndY :
    (effectiveAddr (.dpIndY 0x10) (put [(0x10, 0xFF), (0x11, 0xFF)] { n16 0x00 with DBR := 0x7E, Y := 0x0001 })).1.addr = 0x7F0000 := by decide

/-- V23. -/
theorem test_ea_dpIndLongY :
    (effectiveAddr (.dpIndLongY 0x10) (put [(0x11, 0x80), (0x12, 0xC0)] { n16 0x00 with Y := 0x0010 })).1.addr = 0xC08010 := by decide

/-- V24: no page wrap. -/
theorem test_ea_dpIndLong_emulation :
    (effectiveAddr (.dpIndLong 0xFF) (put [(0xFF, 0x11), (0x100, 0x22), (0x101, 0x33)] (em 0x00))).1.addr = 0x332211 := by decide

/-- V25: page wrap. -/
theorem test_ea_dpInd_emulation :
    (effectiveAddr (.dpInd 0xFF) (put [(0xFF, 0x11), (0x00, 0x22), (0x100, 0x33)] (em 0x00))).1.addr = 0x002211 := by decide

/-- V26. -/
theorem test_ea_longX :
    (effectiveAddr (.longX 0x7EFFFF) { n16 0x00 with X := 0x0001 }).1.addr = 0x7F0000 := by decide

/-- V28. -/
theorem test_ea_srIndY :
    (effectiveAddr (.srIndY 0x01) (put [(0x1F2, 0x20)] { n16 0x00 with S := 0x01F0, DBR := 0x7E, Y := 0x0005 })).1.addr = 0x7E2005 := by decide

/-- V13, V18: the byte after the last of a bank, linear and in bank 0 (20_memory R64). -/
theorem test_ea_next : (nextEa (linear 0x7EFFFF)).addr = 0x7F0000 ∧ (nextEa (bank0 0xFFFF)).addr = 0x000000 := by decide

/-! ### Interrupts and reset -/

/-- V250: NMI in native mode. -/
theorem test_nmi :
    let t := go [] (pins true false false false (put [(0xFFEB, 0xA0)]
      { st false 0x08 with PBR := 0x01, PC := 0x2345, S := 0x1FFF }))
    peek t 0x1FFF = 0x01 ∧ peek t 0x1FFE = 0x23 ∧ peek t 0x1FFD = 0x45 ∧ peek t 0x1FFC = 0x08 ∧ t.S = 0x1FFB ∧
    packP t.P = 0x04 ∧ t.PBR = 0x00 ∧ t.PC = 0xA000 := by decide

/-- V251: IRQ in emulation mode. -/
theorem test_irq :
    let t := go [] (pins false true false false (put [(0xFFFF, 0xA0)] { em 0x00 with PC := 0x8123 }))
    peek t 0x01FF = 0x81 ∧ peek t 0x01FE = 0x23 ∧ peek t 0x01FD = 0x20 ∧ t.S = 0x01FC ∧ packP t.P = 0x34 ∧
    t.PC = 0xA000 := by decide

/-- V252: a masked IRQ is not taken, and the instruction executes. -/
theorem test_irq_masked : (go [0xEA] (pins false true false false (n8 0x04))).PC = 0x8001 := by decide

/-- V253: NMI goes before IRQ. -/
theorem test_nmi_first :
    (go [] (pins true true false false (put [(0xFFEB, 0xA0), (0xFFEF, 0xB0)] (n8 0x00)))).PC = 0xA000 := by decide

/-- V254: a masked IRQ ends the wait without an entry. -/
theorem test_wait_ends :
    let t := go [] (pins false true false false { n8 0x04 with waiting := true })
    t.waiting = false ∧ t.PC = 0x8000 ∧ t.S = 0x01FF := by decide

/-- V255: ABORT is refused. -/
theorem test_abort : step (pins false false true false (n8 0x00)) = .refused .abortAsserted := rfl

/-- V260: RESET, from a stopped state. -/
theorem test_reset_input :
    let t := go [] (pins false false false true (put [(0xFFFD, 0x80)]
      { st false 0x0F with D := 0x1234, DBR := 0x7E, PBR := 0x05, S := 0x1FFF, stopped := true, cycles := 500 }))
    t.E = true ∧ t.P.M = true ∧ t.P.X = true ∧ t.P.D = false ∧ t.P.I = true ∧ t.D = 0x0000 ∧ t.DBR = 0x00 ∧
    t.PBR = 0x00 ∧ t.stopped = false ∧ t.PC = 0x8000 ∧ t.cycles = 500 := by decide

/-- V260: the high bytes of X, Y and S, whatever is drawn. -/
theorem test_reset_high :
    let t := go [] (pins false false false true (n8 0x00))
    highByte t.X = 0x00 ∧ highByte t.Y = 0x00 ∧ highByte t.S = 0x01 :=
  ⟨highByte_zext _, highByte_zext _, highByte_mkWord _ _⟩

/-! ### Witnesses: concrete states and operands that meet the hypotheses of each statement -/

/-- DecodeOfEncode: an immediate of each width, and the longest instruction. -/
theorem witness_decodeOfEncode : (Instr.lda (.imm (.byte 0xFF))).wellFormed true true = true ∧
    (Instr.lda (.imm (.word 0xFFFF))).wellFormed false false = true ∧
    (Instr.jmlLong 0xFFFFFF).wellFormed true true = true := by decide

/-- EncodeOfDecode. -/
theorem witness_encodeOfDecode : decode true true [0x54, 0x7F, 0x7E, 0xEA] = .ok (.mvn 0x7F 0x7E, [0xEA]) := by decide

/-- EveryOpcodeDecodes: three operand bytes, and none. -/
theorem witness_everyOpcodeDecodes : ([0x00, 0x80, 0xC0] : List Byte).length = 3 ∧ ([] : List Byte).length = 0 := by decide

/-- StepRunsDecodedInstruction: LDA #0x34 at 0x8000. -/
theorem witness_stepRunsDecodedInstruction :
    let s := { n8 0x00 with mem := placeBytes 0x00 0x8000 [0xA9, 0x34] [] }
    s.executes ∧ (Instr.lda (.imm (.byte 0x34))).wellFormed s.P.M s.P.X = true ∧
    encode (.lda (.imm (.byte 0x34))) = some [0xA9, 0x34] ∧ (fetchBytes 2 (samplePins s)).1 = [0xA9, 0x34] := by decide

/-- FetchReadsProgramBytes: both ends of the range, and PC at the end of its bank. -/
theorem witness_fetchReadsProgramBytes : (0 : Nat) ≤ 4 ∧ (4 : Nat) ≤ 4 ∧
    (fetchBytes 4 { n8 0x00 with PC := 0xFFFE }).2.PC = 0x0002 := by decide

/-- ResetIsLegal. -/
theorem witness_resetIsLegal : (put [(0x000000, 0x12), (0xFFFFFF, 0x34)] (n8 0x00)).mem.wf := by decide

/-- StepKeepsInvariant, in each mode. -/
theorem witness_stepKeepsInvariant : (em 0x00).Inv ∧ (n16 0x00).Inv ∧ SafeStep (em 0x00) ∧ SafeStep (n16 0x00) :=
  ⟨by decide, by decide, ⟨_, rfl⟩, ⟨_, rfl⟩⟩

/-- ResetFromAnyState: also while stopped and with every other pin asserted. -/
theorem witness_resetFromAnyState :
    (currentPins (pins true true true true { n8 0x00 with stopped := true })).resetLine = true := by decide

/-- StepNeverFaults: the condition of the refusal is met, and it is not met. -/
theorem witness_stepNeverFaults :
    (let s := pins true true true false (n8 0x00)
     (currentPins s).abortLine = true ∧ (currentPins s).resetLine = false ∧ s.stopped = false) ∧
    SafeStep (n8 0x00) := ⟨by decide, ⟨_, rfl⟩⟩

/-- InterruptsAreTaken: an NMI edge, a latched NMI with IRQ masked, and an IRQ. -/
theorem witness_interruptsAreTaken :
    (let s := pins true false false false (n8 0x00)
     (currentPins s).resetLine = false ∧ s.stopped = false ∧ (currentPins s).abortLine = false ∧
     (s.nmiPending || (currentPins s).nmiEdge) = true) ∧
    (let s := { pins false true false false (n8 0x04) with nmiPending := true }
     (currentPins s).resetLine = false ∧ s.stopped = false ∧ (currentPins s).abortLine = false ∧
     (s.nmiPending || (currentPins s).nmiEdge) = true) ∧
    (let s := pins false true false false (n8 0x00)
     (currentPins s).resetLine = false ∧ s.stopped = false ∧ (currentPins s).abortLine = false ∧
     (s.nmiPending || (currentPins s).nmiEdge) = false ∧ (currentPins s).irqLine = true ∧ s.P.I = false) := by decide

/-- StoppedAndWaiting: stopped; waiting with a masked IRQ; waiting with no IRQ. -/
theorem witness_stoppedAndWaiting :
    (let s := pins true true true false { n8 0x00 with stopped := true }
     (currentPins s).resetLine = false ∧ s.stopped = true) ∧
    (let s := pins false true false false { n8 0x04 with waiting := true }
     (currentPins s).resetLine = false ∧ s.stopped = false ∧ (currentPins s).abortLine = false ∧
     (s.nmiPending || (currentPins s).nmiEdge) = false ∧ s.waiting = true ∧ (currentPins s).irqLine = true ∧
     s.P.I = true) ∧
    (let s := { n8 0x00 with waiting := true }
     (currentPins s).resetLine = false ∧ s.stopped = false ∧ (currentPins s).abortLine = false ∧
     (s.nmiPending || (currentPins s).nmiEdge) = false ∧ s.waiting = true ∧ (currentPins s).irqLine = false) := by decide

/-- StatusByteLayout, StackSteps: both modes, with S at the ends of the stack. -/
theorem witness_modes : (n8 0x00).E = false ∧ (em 0x00).E = true ∧
    decS .legacy { em 0x00 with S := 0x0100 } = 0x01FF ∧ incS .legacy { em 0x00 with S := 0x01FF } = 0x0100 ∧
    decS .wide { n8 0x00 with S := 0x0000 } = 0xFFFF ∧ incS .wide { n8 0x00 with S := 0xFFFF } = 0x0000 := by decide

/-- MemoryAccess: a platform that holds no answer. -/
theorem witness_memoryAccess : (n8 0x00).answers = [] := by decide

/-- The indirect and listed modes of AbsoluteAddresses and IndirectAddresses, first and last. -/
theorem witness_modeLists : Mode.abs 0xFFFF ∈ [Mode.abs 0xFFFF, .absX 0xFFFF, .absY 0xFFFF, .long 0xFFFFFF, .longX 0xFFFFFF] ∧
    Mode.dpIndLongY 0xFF ∈ [Mode.dpInd 0xFF, .dpXInd 0xFF, .dpIndY 0xFF, .dpIndLong 0xFF, .dpIndLongY 0xFF] := by decide

/-- AdcBinary and SbcBinary. -/
theorem witness_binary : (n8 0x00).P.D = false ∧ (n16 0x00).P.D = false := by decide

/-- AdcDecimal and SbcDecimal, at both widths, with the largest operands. -/
theorem witness_decimal :
    (let s := { n8 0x08 with A := 0x0099 }
     s.P.D = true ∧ validBcd (mW s) (acc (mW s) s) = true ∧
     validBcd (mW s) (readOperand (.imm (.byte 0x99)) (mW s) s).1 = true) ∧
    (let s := { n16 0x08 with A := 0x9999 }
     s.P.D = true ∧ validBcd (mW s) (acc (mW s) s) = true ∧
     validBcd (mW s) (readOperand (.imm (.word 0x9999)) (mW s) s).1 = true) := by decide

/-- InvalidBcdIsDrawn: V71, and an operand that is not valid; both instructions. -/
theorem witness_invalidBcd :
    (let s := { n8 0x08 with A := 0x000A }
     s.P.D = true ∧
     (validBcd (mW s) (acc (mW s) s) && validBcd (mW s) (readOperand (.imm (.byte 0x00)) (mW s) s).1) = false) ∧
    (let s := n16 0x08
     s.P.D = true ∧
     (validBcd (mW s) (acc (mW s) s) && validBcd (mW s) (readOperand (.imm (.word 0xA000)) (mW s) s).1) = false) ∧
    Instr.adc (.imm (.byte 0x00)) ∈ [Instr.adc (.imm (.byte 0x00)), .sbc (.imm (.byte 0x00))] ∧
    Instr.sbc (.imm (.byte 0x00)) ∈ [Instr.adc (.imm (.byte 0x00)), .sbc (.imm (.byte 0x00))] := by decide

/-- BcdRoundTrip, at both widths. -/
theorem witness_bcdRoundTrip :
    ((0x0099 : Word).toNat < 2 ^ Width.w8.bits ∧ validBcd .w8 0x0099 = true) ∧
    ((0x9999 : Word).toNat < 2 ^ Width.w16.bits ∧ validBcd .w16 0x9999 = true) := by decide

/-- ReturnAfterCall, in each mode, with S at the end of the stack. -/
theorem witness_returnAfterCall :
    ((em 0x00).answers = [] ∧ (em 0x00).E = true ∧ highByte { em 0x00 with S := 0x0100 }.S = 0x01) ∧
    (∃ t, exec (.jsrAbs 0x9000) { em 0x00 with S := 0x0100 } = .next t) ∧
    (∃ t, exec (.jsrAbs 0x9000) { n8 0x00 with S := 0x0000 } = .next t) := ⟨by decide, ⟨_, rfl⟩, ⟨_, rfl⟩⟩

/-- ExchangeModeResults: both values of the carry. -/
theorem witness_exchangeMode : (em 0x00).P.C = false ∧ (n16 0x01).P.C = true := by decide

/-- ReturnUndoesEntry, in each mode. -/
theorem witness_returnUndoesEntry :
    (em 0x00).Inv ∧ (em 0x00).answers = [] ∧ (n16 0x00).Inv ∧ (n16 0x00).answers = [] := by decide

/-- RegisterWriters: for each clause an instruction that changes the register. -/
theorem witness_registerWriters :
    (∃ t, exec (.lda (.imm (.byte 0x01))) (n8 0x00) = .next t ∧ t.A ≠ State.A (n8 0x00)) ∧
    (∃ t, exec .inx (n8 0x00) = .next t ∧ t.X ≠ State.X (n8 0x00)) ∧
    (∃ t, exec .iny (n8 0x00) = .next t ∧ t.Y ≠ State.Y (n8 0x00)) ∧
    (∃ t, exec .pha (n8 0x00) = .next t ∧ t.S ≠ State.S (n8 0x00)) ∧
    (∃ t, exec .tcd ({ n8 0x00 with A := 0x0001 }) = .next t ∧ t.D ≠ State.D ({ n8 0x00 with A := 0x0001 })) ∧
    (∃ t, exec (.mvn 0x01 0x02) (n8 0x00) = .next t ∧ t.DBR ≠ State.DBR (n8 0x00)) ∧
    (∃ t, exec (.jmlLong 0x010000) (n8 0x00) = .next t ∧ t.PBR ≠ State.PBR (n8 0x00)) ∧
    (∃ t, exec (.bra 0x01) (n8 0x00) = .next t ∧ t.PC ≠ State.PC (n8 0x00)) ∧
    (∃ t, exec .xce (n8 0x01) = .next t ∧ t.E ≠ State.E (n8 0x01)) ∧
    (∃ t, exec .wai (n8 0x00) = .next t ∧ t.waiting ≠ State.waiting (n8 0x00)) ∧
    (∃ t, exec .stp (n8 0x00) = .next t ∧ t.stopped ≠ State.stopped (n8 0x00)) :=
  ⟨⟨_, rfl, by decide⟩,
    ⟨_, rfl, by decide⟩,
    ⟨_, rfl, by decide⟩,
    ⟨_, rfl, by decide⟩,
    ⟨_, rfl, by decide⟩,
    ⟨_, rfl, by decide⟩,
    ⟨_, rfl, by decide⟩,
    ⟨_, rfl, by decide⟩,
    ⟨_, rfl, by decide⟩,
    ⟨_, rfl, by decide⟩,
    ⟨_, rfl, by decide⟩⟩

/-- FlagWriters and CycleCounterRule: for each clause an instruction that changes the flag. -/
theorem witness_flagWriters :
    (∃ t, exec (.sep 0x80) (n8 0x00) = .next t ∧ t.P.N ≠ ((n8 0x00) : State).P.N) ∧
    (∃ t, exec (.sep 0x40) (n8 0x00) = .next t ∧ t.P.V ≠ ((n8 0x00) : State).P.V) ∧
    (∃ t, exec (.sep 0x20) (n16 0x00) = .next t ∧ t.P.M ≠ ((n16 0x00) : State).P.M) ∧
    (∃ t, exec (.sep 0x10) (n16 0x00) = .next t ∧ t.P.X ≠ ((n16 0x00) : State).P.X) ∧
    (∃ t, exec .sed (n8 0x00) = .next t ∧ t.P.D ≠ ((n8 0x00) : State).P.D) ∧
    (∃ t, exec .sei (n8 0x00) = .next t ∧ t.P.I ≠ ((n8 0x00) : State).P.I) ∧
    (∃ t, exec (.sep 0x02) (n8 0x00) = .next t ∧ t.P.Z ≠ ((n8 0x00) : State).P.Z) ∧
    (∃ t, exec .sec (n8 0x00) = .next t ∧ t.P.C ≠ ((n8 0x00) : State).P.C) :=
  ⟨⟨_, rfl, by decide⟩,
    ⟨_, rfl, by decide⟩,
    ⟨_, rfl, by decide⟩,
    ⟨_, rfl, by decide⟩,
    ⟨_, rfl, by decide⟩,
    ⟨_, rfl, by decide⟩,
    ⟨_, rfl, by decide⟩,
    ⟨_, rfl, by decide⟩⟩

end Sys2Proof.Tests
end

section
/-! PROOFS. The decoder is total, and it reads back what the encoder writes (spec/30_encoding.md R90 to R95). -/

namespace Sys2Proof

/-! ### Decoding is total -/

/-- Every place of the opcode map is filled: it has 16 rows of 16 formats (30_encoding R94, R95). -/
theorem exists_shapeOf (opcode : Byte) : ∃ sh, shapeOf opcode = some sh := by
  have hrows : ∀ row ∈ opcodeMap, row.length = 16 := by decide
  have hrow : opcode.toNat / 16 < opcodeMap.length := by
    have := opcode.isLt
    rw [show opcodeMap.length = 16 from rfl]; omega
  have hcol : opcode.toNat % 16 < opcodeMap[opcode.toNat / 16].length := by
    rw [hrows _ (List.getElem_mem hrow)]; omega
  exact ⟨opcodeMap[opcode.toNat / 16][opcode.toNat % 16], by
    rw [shapeOf, List.getElem?_eq_getElem hrow, Option.bind_some, List.getElem?_eq_getElem hcol]⟩

theorem exists_buildImm (eight : Bool) (f : Imm → Instr) (bs : List Byte) (h : bs.length = immCount eight) :
    ∃ i, buildImm eight f bs = some (i, []) := by
  cases eight with
  | true => obtain ⟨b, rfl⟩ := List.length_eq_one_iff.mp h; exact ⟨_, rfl⟩
  | false => obtain ⟨lo, hi, rfl⟩ := List.length_eq_two.mp h; exact ⟨_, rfl⟩

/-- A format makes an instruction of as many operand bytes as it asks for (30_encoding R91, R93). -/
theorem Shape.exists_build (m8 x8 : Bool) (sh : Shape) (bs : List Byte) (h : bs.length = sh.operandCount m8 x8) :
    ∃ i, sh.build m8 x8 bs = some (i, []) := by
  cases sh with
  | none i => obtain rfl := List.length_eq_zero_iff.mp h; exact ⟨i, rfl⟩
  | byte f => obtain ⟨b, rfl⟩ := List.length_eq_one_iff.mp h; exact ⟨_, rfl⟩
  | word f | banks f => obtain ⟨b1, b2, rfl⟩ := List.length_eq_two.mp h; exact ⟨_, rfl⟩
  | long f => obtain ⟨b1, b2, b3, rfl⟩ := List.length_eq_three.mp h; exact ⟨_, rfl⟩
  | immM f => exact exists_buildImm m8 f bs h
  | immX f => exact exists_buildImm x8 f bs h

/-- What a format makes of operand bytes is what the decoder makes of its opcode and those bytes (30_encoding R90). -/
theorem decode_of_build {m8 x8 : Bool} {opcode : Byte} {sh : Shape} {bs : List Byte} {r : Instr × List Byte}
    (hsh : shapeOf opcode = some sh) (hb : sh.build m8 x8 bs = some r) : decode m8 x8 (opcode :: bs) = .ok r := by
  simp only [decode, hsh, hb]

/-! ### What a format consumes -/

theorem length_of_buildImm {eight : Bool} {f : Imm → Instr} {bs rest : List Byte} {i : Instr}
    (h : buildImm eight f bs = some (i, rest)) : bs.length = immCount eight + rest.length := by
  match eight, bs, h with
  | true, _ :: _, rfl => exact Nat.add_comm _ 1
  | false, _ :: _ :: _, rfl => exact Nat.add_comm _ 2

/-- A format consumes exactly the operand bytes that it asks for (30_encoding R91, R93). -/
theorem Shape.length_of_build {m8 x8 : Bool} {sh : Shape} {bs rest : List Byte} {i : Instr}
    (h : sh.build m8 x8 bs = some (i, rest)) : bs.length = sh.operandCount m8 x8 + rest.length := by
  match sh, bs, h with
  | .none _, _, rfl => exact (Nat.zero_add _).symm
  | .byte _, _ :: _, rfl => exact Nat.add_comm _ 1
  | .word _, _ :: _ :: _, rfl => exact Nat.add_comm _ 2
  | .banks _, _ :: _ :: _, rfl => exact Nat.add_comm _ 2
  | .long _, _ :: _ :: _ :: _, rfl => exact Nat.add_comm _ 3
  | .immM _, _, h => exact length_of_buildImm h
  | .immX _, _, h => exact length_of_buildImm h

/-! ### The format of an instruction -/

/-- The format of a memory mode (30_encoding R91). -/
def Mode.shape (k : Mode → Instr) : Mode → Shape
  | .abs _ => onAbs k
  | .absX _ => onAbsX k
  | .absY _ => onAbsY k
  | .dp _ => onDp k
  | .dpX _ => onDpX k
  | .dpY _ => onDpY k
  | .dpInd _ => onDpInd k
  | .dpXInd _ => onDpXInd k
  | .dpIndY _ => onDpIndY k
  | .dpIndLong _ => onDpIndLong k
  | .dpIndLongY _ => onDpIndLongY k
  | .long _ => onLong k
  | .longX _ => onLongX k
  | .sr _ => onSr k
  | .srIndY _ => onSrIndY k

/-- The format of an operand; `imm` is `Shape.immM` or `Shape.immX` (30_encoding R93). -/
def Operand.shape (imm : (Imm → Instr) → Shape) (k : Operand → Instr) : Operand → Shape
  | .imm _ => imm (opImm k)
  | .mem m => m.shape (op k)

/-- The format of a target (30_encoding R97). -/
def Target.shape (k : Target → Instr) : Target → Shape
  | .acc => .none (k .acc)
  | .mem m => m.shape (tgt k)

/-- The format of an instruction: what stands at its opcode in the map of 30_encoding R95 (`Instr.shapeOf_opcode`). -/
def Instr.shape : Instr → Shape
  | .adc o => o.shape .immM .adc
  | .sbc o => o.shape .immM .sbc
  | .and o => o.shape .immM .and
  | .ora o => o.shape .immM .ora
  | .eor o => o.shape .immM .eor
  | .lda o => o.shape .immM .lda
  | .cmp o => o.shape .immM .cmp
  | .ldx o => o.shape .immX .ldx
  | .ldy o => o.shape .immX .ldy
  | .cpx o => o.shape .immX .cpx
  | .cpy o => o.shape .immX .cpy
  | .asl t => t.shape .asl
  | .lsr t => t.shape .lsr
  | .rol t => t.shape .rol
  | .ror t => t.shape .ror
  | .inc t => t.shape .inc
  | .dec t => t.shape .dec
  | .sta m => m.shape .sta
  | .stx m => m.shape .stx
  | .sty m => m.shape .sty
  | .stz m => m.shape .stz
  | .bit m => m.shape .bit
  | .tsb m => m.shape .tsb
  | .trb m => m.shape .trb
  | .bitImm _ => .immM .bitImm
  | .bpl _ => .byte .bpl
  | .bmi _ => .byte .bmi
  | .bvc _ => .byte .bvc
  | .bvs _ => .byte .bvs
  | .bcc _ => .byte .bcc
  | .bcs _ => .byte .bcs
  | .bne _ => .byte .bne
  | .beq _ => .byte .beq
  | .bra _ => .byte .bra
  | .pei _ => .byte .pei
  | .rep _ => .byte .rep
  | .sep _ => .byte .sep
  | .wdm _ => .byte .wdm
  | .brk _ => .byte .brk
  | .cop _ => .byte .cop
  | .brl _ => .word .brl
  | .jmpAbs _ => .word .jmpAbs
  | .jmpInd _ => .word .jmpInd
  | .jmpIndX _ => .word .jmpIndX
  | .jmlInd _ => .word .jmlInd
  | .jsrAbs _ => .word .jsrAbs
  | .jsrIndX _ => .word .jsrIndX
  | .pea _ => .word .pea
  | .per _ => .word .per
  | .jmlLong _ => .long .jmlLong
  | .jsl _ => .long .jsl
  | .mvn _ _ => .banks .mvn
  | .mvp _ _ => .banks .mvp
  | i => .none i

/-- The opcode map has the format of an instruction at the instruction's opcode (30_encoding R95). -/
theorem Instr.shapeOf_opcode (i : Instr) {opcode : Byte} (h : i.opcode = some opcode) : shapeOf opcode = some i.shape := by
  cases i with
  | adc o | sbc o | and o | ora o | eor o | lda o | cmp o | ldx o | ldy o | cpx o | cpy o =>
    cases o with
    | imm v => cases h; rfl
    | mem m => cases m <;> cases h <;> rfl
  | asl t | lsr t | rol t | ror t | inc t | dec t =>
    cases t with
    | acc => cases h; rfl
    | mem m => cases m <;> cases h <;> rfl
  | sta m | stx m | sty m | stz m | bit m | tsb m | trb m => cases m <;> cases h <;> rfl
  | _ => cases h; rfl

/-! ### Building an instruction from its own operand bytes -/

theorem build_word (m8 x8 : Bool) (f : Word → Instr) (v : Word) (rest : List Byte) :
    (Shape.word f).build m8 x8 (wordBytes v ++ rest) = some (f v, rest) := by
  simp [wordBytes, Shape.build]

theorem build_long (m8 x8 : Bool) (f : Addr → Instr) (v : Addr) (rest : List Byte) :
    (Shape.long f).build m8 x8 (addrBytes v ++ rest) = some (f v, rest) := by
  simp [addrBytes, Shape.build]

theorem buildImm_bytes {eight : Bool} (f : Imm → Instr) {v : Imm} (h : v.fits eight = true) (rest : List Byte) :
    buildImm eight f (v.bytes ++ rest) = some (f v, rest) := by
  cases v with
  | byte b => obtain rfl : eight = true := h; rfl
  | word x =>
    obtain rfl : eight = false := by simpa [Imm.fits] using h
    simp [Imm.bytes, wordBytes, buildImm]

theorem Mode.build_shape (m8 x8 : Bool) (k : Mode → Instr) (m : Mode) (rest : List Byte) :
    (m.shape k).build m8 x8 (m.bytes ++ rest) = some (k m, rest) := by
  cases m with
  | abs a | absX a | absY a => exact build_word m8 x8 _ a rest
  | long al | longX al => exact build_long m8 x8 _ al rest
  | dp | dpX | dpY | dpInd | dpXInd | dpIndY | dpIndLong | dpIndLongY | sr | srIndY => rfl

theorem Target.build_shape (m8 x8 : Bool) (k : Target → Instr) (t : Target) (rest : List Byte) :
    (t.shape k).build m8 x8 (t.bytes ++ rest) = some (k t, rest) := by
  cases t with
  | acc => rfl
  | mem m => exact Mode.build_shape m8 x8 (tgt k) m rest

/-- The operand's format reads its bytes back; `hsh` says which width bit gives the length of an immediate. -/
theorem Operand.build_shape {m8 x8 eight : Bool} {imm : (Imm → Instr) → Shape}
    (hsh : ∀ f bs, (imm f).build m8 x8 bs = buildImm eight f bs) (k : Operand → Instr) {ok : Mode → Bool} {o : Operand}
    (h : o.allowed eight ok = true) (rest : List Byte) :
    (o.shape imm k).build m8 x8 (o.bytes ++ rest) = some (k o, rest) := by
  cases o with
  | imm v => exact (hsh _ _).trans (buildImm_bytes (opImm k) h rest)
  | mem m => exact Mode.build_shape m8 x8 (op k) m rest

/-- The format of a well-formed instruction makes the instruction of its operand bytes (30_encoding R91 to R93). -/
theorem Instr.build_shape {m8 x8 : Bool} {i : Instr} (h : i.wellFormed m8 x8 = true) (rest : List Byte) :
    i.shape.build m8 x8 (i.operandBytes ++ rest) = some (i, rest) := by
  cases i with
  | adc o | sbc o | and o | ora o | eor o | lda o | cmp o | ldx o | ldy o | cpx o | cpy o =>
    exact Operand.build_shape (fun _ _ => rfl) _ h rest
  | asl t | lsr t | rol t | ror t | inc t | dec t => exact Target.build_shape m8 x8 _ t rest
  | sta m | stx m | sty m | stz m | bit m | tsb m | trb m => exact Mode.build_shape m8 x8 _ m rest
  | bitImm v => exact buildImm_bytes _ h rest
  | brl a | jmpAbs a | jmpInd a | jmpIndX a | jmlInd a | jsrAbs a | jsrIndX a | pea a | per a =>
    exact build_word m8 x8 _ a rest
  | jmlLong al | jsl al => exact build_long m8 x8 _ al rest
  | _ => rfl

/-! ### Decoding an encoding -/

/-- The encoding of an instruction is its opcode, at which the map has its format, and its operand bytes (30_encoding R91). -/
theorem encode_eq_some {i : Instr} {bytes : List Byte} (h : encode i = some bytes) :
    ∃ opcode, shapeOf opcode = some i.shape ∧ bytes = opcode :: i.operandBytes := by
  obtain ⟨opcode, hop, rfl⟩ := Option.map_eq_some_iff.mp h
  exact ⟨opcode, i.shapeOf_opcode hop, rfl⟩

/-- The decoder reads back what the encoder writes for a well-formed instruction, whatever follows (30_encoding R90 to R95). -/
theorem decode_encode {m8 x8 : Bool} {i : Instr} {bytes : List Byte} (hwf : i.wellFormed m8 x8 = true)
    (he : encode i = some bytes) (rest : List Byte) : decode m8 x8 (bytes ++ rest) = .ok (i, rest) := by
  obtain ⟨opcode, hsh, rfl⟩ := encode_eq_some he
  exact decode_of_build hsh (Instr.build_shape hwf rest)

/-- The format of a well-formed instruction asks for as many bytes as the instruction has (30_encoding R91, R93). -/
theorem Instr.operandCount_shape {m8 x8 : Bool} {i : Instr} (hwf : i.wellFormed m8 x8 = true) :
    i.shape.operandCount m8 x8 = i.operandBytes.length := by
  simpa using (Shape.length_of_build (Instr.build_shape hwf [])).symm

end Sys2Proof
end

section
/-! PROOFS. The step: fetching, the decision at the boundary, and the meaning that follows (spec/00_scope.md R16, R17,
spec/60_exceptions.md R316). -/

namespace Sys2Proof.Machine

/-! ### The fetch -/

@[simp] theorem length_fetchBytes (n : Nat) (s : State) : (fetchBytes n s).1.length = n := by
  induction n generalizing s with
  | zero => rfl
  | succ n ih => simp [fetchBytes, ih]

/-- The fetch always gives an instruction, and no byte is left over (30_encoding R90, R94). -/
theorem exists_fetchInstr (s : State) : ∃ i, (fetchInstr s).1 = .ok (i, []) := by
  obtain ⟨sh, hsh⟩ := exists_shapeOf (fetch8 s).1
  have hlen : (fetchBytes (operandCount (fetch8 s).1 s) (fetch8 s).2).1.length = sh.operandCount s.P.M s.P.X := by
    simp [operandCount, hsh]
  obtain ⟨i, hi⟩ := Shape.exists_build s.P.M s.P.X sh _ hlen
  exact ⟨i, decode_of_build hsh hi⟩

/-- When the bytes at PBR:PC are those of a well-formed instruction, the fetch gives that instruction and ends after its bytes
(30_encoding R90). -/
theorem fetchInstr_of_encode {s : State} {i : Instr} {bytes : List Byte} (hwf : i.wellFormed s.P.M s.P.X = true)
    (he : encode i = some bytes) (hb : (fetchBytes bytes.length s).1 = bytes) :
    fetchInstr s = (.ok (i, []), (fetchBytes bytes.length s).2) := by
  obtain ⟨opcode, hsh, rfl⟩ := encode_eq_some he
  obtain ⟨rfl, hrest⟩ : (fetch8 s).1 = opcode ∧ (fetchBytes i.operandBytes.length (fetch8 s).2).1 = i.operandBytes :=
    List.cons_eq_cons.mp hb
  have hcount : operandCount (fetch8 s).1 s = i.operandBytes.length := by
    simp only [operandCount, hsh, Instr.operandCount_shape hwf]
  have hdecode : decode s.P.M s.P.X ((fetch8 s).1 :: i.operandBytes) = .ok (i, []) := by
    simpa using decode_encode hwf he []
  simp only [fetchInstr, hcount, hrest, hdecode]
  rfl

/-! ### The meaning of an instruction -/

/-- Every instruction answers a next state: no arm of `exec` ends in a fault or a refusal (00_scope R17). -/
theorem exists_exec (i : Instr) (s : State) : ∃ t, exec i s = .next t := by
  cases i <;> exact ⟨_, rfl⟩

theorem runInstr_of_fetch {s : State} {i : Instr} {rest : List Byte} (h : (fetchInstr s).1 = .ok (i, rest)) :
    runInstr s = exec i (fetchInstr s).2 := by
  unfold runInstr; rw [h]

theorem exists_runInstr (s : State) : ∃ t, runInstr s = .next t := by
  obtain ⟨i, hi⟩ := exists_fetchInstr s
  rw [runInstr_of_fetch hi]
  exact exists_exec i _

/-! ### The boundary -/

@[simp] theorem samplePins_stopped (s : State) : (samplePins s).stopped = s.stopped := rfl

/-- The core refuses at a boundary exactly when ABORT is asserted, RESET is not, and the core is not stopped
(60_exceptions R315, R316). -/
theorem boundary_eq_refuse_iff (s : State) :
    boundary s = .refuse ↔
      (currentPins s).abortLine = true ∧ (currentPins s).resetLine = false ∧ s.stopped = false := by
  unfold boundary decideBoundary
  rw [samplePins_stopped]
  split_ifs <;> simp [*]

/-- When no event is due, the core executes at the sampled state (60_exceptions R316). -/
theorem boundary_of_executes {s : State} (h : s.executes) : boundary s = .execute (samplePins s) := by
  obtain ⟨hreset, hstopped, habort, hnmi, hirq, hwaiting⟩ := h
  simp [boundary, decideBoundary, samplePins, *]

theorem step_of_settled {s t : State} (h : boundary s = .settled t) : step s = .next t := by
  unfold step; rw [h]

theorem step_of_refuse {s : State} (h : boundary s = .refuse) : step s = .refused .abortAsserted := by
  unfold step; rw [h]

theorem step_of_execute {s t : State} (h : boundary s = .execute t) : step s = runInstr t := by
  unfold step; rw [h]

/-- A step whose boundary does not refuse answers a next state (00_scope R17). -/
theorem safeStep_of_ne_refuse {s : State} (h : boundary s ≠ .refuse) : SafeStep s := by
  cases hb : boundary s with
  | settled t => exact ⟨t, step_of_settled hb⟩
  | refuse => exact absurd hb h
  | execute t =>
    obtain ⟨t', ht'⟩ := exists_runInstr t
    exact ⟨t', (step_of_execute hb).trans ht'⟩

/-- A step is refused exactly when its boundary refuses. -/
theorem step_eq_refused_iff (s : State) : step s = .refused .abortAsserted ↔ boundary s = .refuse := by
  refine ⟨fun h => ?_, step_of_refuse⟩
  by_contra hb
  obtain ⟨t, ht⟩ := safeStep_of_ne_refuse hb
  rw [ht] at h
  cases h

/-! ### The obligations on the step -/

/-- Settles O7: the boundary alone can refuse, and every settled or executed step answers a next state. -/
theorem stepNeverFaults : Obligations.StepNeverFaults := by
  intro s
  refine ⟨?_, (step_eq_refused_iff s).trans (boundary_eq_refuse_iff s)⟩
  by_cases hb : boundary s = .refuse
  · exact .inr (step_of_refuse hb)
  · exact .inl (safeStep_of_ne_refuse hb)

/-- Settles O5: the boundary executes, the fetch ends after the bytes, and the decoder reads the encoding back. -/
theorem stepRunsDecodedInstruction : Obligations.StepRunsDecodedInstruction := by
  intro s i bytes hexec hwf he hbytes
  have hfetch := fetchInstr_of_encode (s := samplePins s) hwf he hbytes
  calc step s
      _ = runInstr (samplePins s) := step_of_execute (boundary_of_executes hexec)
      _ = exec i (fetchInstr (samplePins s)).2 := runInstr_of_fetch (by rw [hfetch])
      _ = exec i (fetchBytes bytes.length (samplePins s)).2 := by rw [hfetch]

end Sys2Proof.Machine
end

section
/-! PROOFS. What widths and operands are, and the loads (spec/00_scope.md R10, spec/30_encoding.md R96, R98,
spec/44_load_store.md R190 to R192). -/

namespace Sys2Proof.Machine

theorem widthOf_bits (eight : Bool) : (widthOf eight).bits = if eight then 8 else 16 := by cases eight <;> rfl

theorem readOperand_immByte (b : Byte) (s : State) : (readOperand (.imm (.byte b)) .w8 s).1.toNat = b.toNat := by
  simp [readOperand, immValue, truncTo]

theorem readOperand_immWord (v : Word) (s : State) : (readOperand (.imm (.word v)) .w16 s).1 = v := rfl

/-- The value of a read of width w: the byte, or the little-endian word, that the bus gives (20_memory R63, R65). -/
theorem memRead_toNat (w : Width) (ea : Ea) (s : State) :
    (memRead w ea s).1.toNat = match w with
      | .w8 => (busValue ea.addr s).toNat
      | .w16 => (busValue ea.addr s).toNat + 256 * (busValue (nextEa ea).addr s).toNat := by
  cases w with
  | w8 => simp [memRead]
  | w16 => simp only [memRead, memRead16_val, mkWord_toNat]; omega

/-- Settles O34: the operand's value is below 2^w, so the register holds it whole; reading it changed nothing but the bus. -/
theorem loadResults : Obligations.LoadResults := by
  intro o s vm vx
  refine ⟨widthOf_bits _, widthOf_bits _, ?registers, ?immediates, ?memory, ?lda, ?ldx, ?ldy⟩
  case registers => exact fun w => ⟨truncTo_toNat w s.A, truncTo_toNat w s.X, truncTo_toNat w s.Y⟩
  case immediates => exact fun b v => ⟨readOperand_immByte b s, readOperand_immWord v s⟩
  case memory => exact fun m w => ⟨rfl, memRead_toNat w _ _⟩
  case lda => exact ⟨_, rfl, accResult_spec _ vm s _ (readOperand_busOnly o _ s) (readOperand_lt o _ s)⟩
  case ldx => exact ⟨_, rfl, xResult_spec _ vx s _ (readOperand_busOnly o _ s) (readOperand_lt o _ s)⟩
  case ldy => exact ⟨_, rfl, yResult_spec _ vx s _ (readOperand_busOnly o _ s) (readOperand_lt o _ s)⟩

end Sys2Proof.Machine
end

section
/-! PROOFS. The status register as a byte (spec/10_state.md R29, R38). -/

namespace Sys2Proof.Machine

theorem toNat_packBits (n v m x d i z c : Bool) :
    (packBits n v m x d i z c).toNat = 128 * n.toNat + 64 * v.toNat + 32 * m.toNat + 16 * x.toNat + 8 * d.toNat
      + 4 * i.toNat + 2 * z.toNat + c.toNat := by
  have := n.toNat_lt; have := v.toNat_lt; have := m.toNat_lt; have := x.toNat_lt
  have := d.toNat_lt; have := i.toNat_lt; have := z.toNat_lt; have := c.toNat_lt
  rw [packBits, BitVec.toNat_ofNat]
  omega

/-- Bit `k` of a byte, in numbers. -/
theorem toNat_getLsbD (v : Byte) (k : Nat) : (v.getLsbD k).toNat = v.toNat / 2 ^ k % 2 := Nat.toNat_testBit v.toNat k

theorem getLsbD_eq_iff {v : Byte} {k : Nat} {b : Bool} : v.getLsbD k = b ↔ v.toNat / 2 ^ k % 2 = b.toNat := by
  rw [← toNat_getLsbD]
  cases v.getLsbD k <;> cases b <;> decide

/-- Reading a packed byte back gives the eight flags (10_state R29). -/
theorem unpackP_packP (p : Status) : unpackP (packP p) = p := by
  obtain ⟨n, v, m, x, d, i, z, c⟩ := p
  have := n.toNat_lt; have := v.toNat_lt; have := m.toNat_lt; have := x.toNat_lt
  have := d.toNat_lt; have := i.toNat_lt; have := z.toNat_lt; have := c.toNat_lt
  simp only [unpackP, packP, Status.mk.injEq]
  refine ⟨?_, ?_, ?_, ?_, ?_, ?_, ?_, ?_⟩ <;> (rw [getLsbD_eq_iff, toNat_packBits]; omega)

/-- Packing the flags of a byte gives the byte (10_state R29). -/
theorem packP_unpackP (v : Byte) : packP (unpackP v) = v := by
  apply BitVec.eq_of_toNat_eq
  have := v.isLt
  simp only [packP, unpackP, toNat_packBits, toNat_getLsbD]
  omega

/-- An AND with a byte keeps the flags whose bit in the byte is 1 (49_system R297). -/
theorem unpackP_and (p : Status) (k : Byte) :
    unpackP (packP p &&& k) =
      { N := p.N && k.getLsbD 7, V := p.V && k.getLsbD 6, M := p.M && k.getLsbD 5, X := p.X && k.getLsbD 4,
        D := p.D && k.getLsbD 3, I := p.I && k.getLsbD 2, Z := p.Z && k.getLsbD 1, C := p.C && k.getLsbD 0 } := by
  conv_rhs => rw [← unpackP_packP p]
  simp only [unpackP, BitVec.getLsbD_and]

/-- An OR with a byte sets the flags whose bit in the byte is 1 (49_system R298). -/
theorem unpackP_or (p : Status) (k : Byte) :
    unpackP (packP p ||| k) =
      { N := p.N || k.getLsbD 7, V := p.V || k.getLsbD 6, M := p.M || k.getLsbD 5, X := p.X || k.getLsbD 4,
        D := p.D || k.getLsbD 3, I := p.I || k.getLsbD 2, Z := p.Z || k.getLsbD 1, C := p.C || k.getLsbD 0 } := by
  conv_rhs => rw [← unpackP_packP p]
  simp only [unpackP, BitVec.getLsbD_or]

theorem pushedP_native (b : Bool) {s : State} (h : s.E = false) : pushedP b s = packP s.P := by
  rw [pushedP, h]; rfl

theorem pushedP_emulation (b : Bool) {s : State} (h : s.E = true) :
    pushedP b s = packP { s.P with M := true, X := b } := by
  rw [pushedP, h]; rfl

/-- Settles O14: the flags are the binary digits of the byte. -/
theorem statusByteLayout : Obligations.StatusByteLayout :=
  ⟨fun p => ⟨unpackP_packP p, toNat_packBits ..⟩, packP_unpackP, fun b _ => pushedP_native b,
    fun b _ => pushedP_emulation b⟩

end Sys2Proof.Machine
end

section
/-! PROOFS. What each instruction may write, as one equation of states, and the writer tables that follow from it
(spec/10_state.md R23, R28, R30 to R37, R42, R44). -/

namespace Sys2Proof.Machine

/-! ### The frame of an instruction -/

/-- What stores to memory: the stores, the read-modify-writes of memory, the pushes, the block moves and the traps. -/
def mayStore (i : Instr) : Bool :=
  match i with
  | .sta _ | .stx _ | .sty _ | .stz _ | .tsb _ | .trb _
  | .asl (.mem _) | .lsr (.mem _) | .rol (.mem _) | .ror (.mem _) | .inc (.mem _) | .dec (.mem _)
  | .pha | .phx | .phy | .php | .phb | .phk | .phd | .pea _ | .pei _ | .per _
  | .jsrAbs _ | .jsrIndX _ | .jsl _ | .mvn _ _ | .mvp _ _ | .brk _ | .cop _ => true
  | _ => false

/-- What adds to the cycle counter (70_reset_and_hazards R352). -/
def mayWriteCycles (i : Instr) : Bool :=
  match i with
  | .asl _ | .lsr _ | .rol _ | .ror _ | .inc _ | .dec _ | .tsb _ | .trb _ => true
  | _ => false

/-- What clears the wait address (43_incdec R182, R186). -/
def mayWriteWaitAddress (i : Instr) : Bool :=
  match i with
  | .inc _ | .dec _ | .inx | .iny | .dex | .dey => true
  | _ => false

/-- What draws: ADC and SBC on operands that are not valid BCD (40_arith R150). -/
def mayDraw (i : Instr) : Bool :=
  match i with
  | .adc _ | .sbc _ => true
  | _ => false

/-- `t` in the fields that `i` may write, and `s` in all others; every instruction may add to the record and use up answers. -/
def writtenBy (i : Instr) (s t : State) : State where
  A := bif mayWriteA i then t.A else s.A
  X := bif mayWriteX i then t.X else s.X
  Y := bif mayWriteY i then t.Y else s.Y
  S := bif mayWriteS i then t.S else s.S
  D := bif mayWriteD i then t.D else s.D
  DBR := bif mayWriteDBR i then t.DBR else s.DBR
  PBR := bif mayWritePBR i then t.PBR else s.PBR
  PC := bif mayWritePC i then t.PC else s.PC
  P :=
    { N := bif mayWriteN i then t.P.N else s.P.N
      V := bif mayWriteV i then t.P.V else s.P.V
      M := bif mayWriteWidth i then t.P.M else s.P.M
      X := bif mayWriteWidth i then t.P.X else s.P.X
      D := bif mayWriteDecimal i then t.P.D else s.P.D
      I := bif mayWriteI i then t.P.I else s.P.I
      Z := bif mayWriteZ i then t.P.Z else s.P.Z
      C := bif mayWriteC i then t.P.C else s.P.C }
  E := bif decide (i = .xce) then t.E else s.E
  cycles := bif mayWriteCycles i then t.cycles else s.cycles
  waitAddress := bif mayWriteWaitAddress i then t.waitAddress else s.waitAddress
  nmiPending := s.nmiPending
  waiting := bif decide (i = .wai) then t.waiting else s.waiting
  stopped := bif decide (i = .stp) then t.stopped else s.stopped
  mem := bif mayStore i then t.mem else s.mem
  events := t.events
  answers := t.answers
  inputs := s.inputs
  draws := bif mayDraw i then t.draws else s.draws

/-! ### Shared operations -/

/-- What a shift or rotate of the accumulator can change (42_shift_rotate frame). -/
theorem modifyAcc_reads (f : Width → Word → Bool → Word × Bool) (s : State) :
    let t := modifyWithCarry f .acc s
    Reads { s with A := t.A, P := { s.P with N := t.P.N, Z := t.P.Z, C := t.P.C }, cycles := t.cycles } t := by
  obtain ⟨-, -, -, -, -, -, h⟩ := modifyAcc_spec f s
  exact h

/-- What a shift or rotate of memory can change (42_shift_rotate frame). -/
theorem modifyMem_stores (f : Width → Word → Bool → Word × Bool) (m : Mode) (s : State) :
    let t := modifyWithCarry f (.mem m) s
    Stores (storedAt (mW s) (effectiveAddr m s).1)
      { s with P := { s.P with N := t.P.N, Z := t.P.Z, C := t.P.C }, cycles := t.cycles } t := by
  obtain ⟨-, -, -, -, -, h⟩ := modifyMem_spec f m s
  exact h

/-- What INC and DEC of the accumulator can change (43_incdec frame). -/
theorem modifyStepAcc_reads (f : Width → Word → Word) (s : State) :
    let t := modifyStep f .acc s
    Reads { s with A := t.A, P := { s.P with N := t.P.N, Z := t.P.Z }, cycles := t.cycles, waitAddress := t.waitAddress }
      t := by
  dsimp only [modifyStep]
  cases mW s <;> rfl

/-- What INC and DEC of memory can change (43_incdec frame). -/
theorem modifyStepMem_stores (f : Width → Word → Word) (m : Mode) (s : State) :
    let t := modifyStep f (.mem m) s
    Stores (storedAt (mW s) (effectiveAddr m s).1)
      { s with P := { s.P with N := t.P.N, Z := t.P.Z }, cycles := t.cycles, waitAddress := t.waitAddress } t := by
  obtain ⟨-, -, -, -, -, h⟩ := modifyStepMem_spec f m s
  exact h

/-- What TSB and TRB can change (46_bit_test R222, R223). -/
theorem testModify_stores (f : Word → Word → Word) (m : Mode) (s : State) :
    let t := testModify f m s
    Stores (storedAt (mW s) (effectiveAddr m s).1) { s with P := { s.P with Z := t.P.Z }, cycles := t.cycles } t := by
  obtain ⟨-, -, -, -, h⟩ := testModify_spec f m s
  exact h

/-- `t` differs from `s` at most in S, the answers and the record: what pulls can do. -/
def PullOnly (s t : State) : Prop := t = { s with S := t.S, answers := t.answers, events := t.events }

theorem PullOnly.trans {s t u : State} (h : PullOnly s t) (h' : PullOnly t u) : PullOnly s u := by
  unfold PullOnly at *; rw [h', h]

theorem pull8_pullOnly (r : StackRule) (s : State) : PullOnly s (pull8 r s).2 := rfl

theorem pull16_pullOnly (r : StackRule) (s : State) : PullOnly s (pull16 r s).2 :=
  (pull8_pullOnly r s).trans (pull8_pullOnly r _)

theorem pullW_pullOnly (w : Width) (s : State) : PullOnly s (pullW w s).2 := by
  cases w with
  | w8 => exact pull8_pullOnly _ s
  | w16 => exact pull16_pullOnly _ s

theorem settleStack_pullOnly (s : State) : PullOnly s (settleStack s) := rfl

theorem pullOnly_fields {s t : State} (h : PullOnly s t) :
    ∃ sp answers events, t = { s with S := sp, answers := answers, events := events } := ⟨_, _, _, h⟩

theorem StackOnly.of_busOnly {s t : State} (h : BusOnly s t) : StackOnly s t := by
  obtain ⟨an, ev, rfl⟩ := busOnly_fields h
  rfl

/-- What a block move can change (49_system R302). -/
theorem blockMove_writes (delta : Word) (dst src : Byte) (s : State) :
    let t := blockMove delta dst src s
    t = { s with A := t.A, X := t.X, Y := t.Y, DBR := t.DBR, PC := t.PC, mem := t.mem, answers := t.answers,
                 events := t.events } := by
  unfold blockMove
  dsimp only
  generalize hu : memWrite8 _ _ _ = u
  have h : u = { s with mem := u.mem, answers := u.answers, events := u.events } := by rw [← hu]; rfl
  rw [h]

/-- What the return from an exception can change (49_system R309, 60_exceptions R320). -/
theorem returnFromException_pulls (s : State) :
    let t := returnFromException s
    PullOnly { s with X := t.X, Y := t.Y, P := t.P, PBR := t.PBR, PC := t.PC } t := by
  unfold returnFromException
  dsimp only
  generalize hp : pullP (pull8 .legacy s).1 (pull8 .legacy s).2 = p
  have hpull : PullOnly { s with X := p.X, Y := p.Y, P := p.P } p := by rw [← hp, pullP_eq]; rfl
  obtain ⟨sp, an, ev, e⟩ := pullOnly_fields (hpull.trans (pull16_pullOnly .legacy p))
  rw [e]
  cases s.E <;> rfl

/-- Everything that an instruction changes lies in the fields that the writer tables give it (10_state R44, R30 to R37). -/
theorem exec_writtenBy {i : Instr} {s t : State} (h : exec i s = .next t) : t = writtenBy i s t := by
  cases i with
  | adc o | sbc o => cases h; exact writeAlu_reads _ _ s _ (readOperand_busOnly o (mW s) s)
  | and o | ora o | eor o => cases h; exact logical_reads _ o s
  | cmp o => cases h; exact compare_reads _ _ _ s _ (readOperand_busOnly o (mW s) s)
  | cpx o | cpy o => cases h; exact compare_reads _ _ _ s _ (readOperand_busOnly o (xW s) s)
  | lda o => cases h; exact setZN_setAcc_reads _ _ s _ (readOperand_busOnly o (mW s) s)
  | ldx o | ldy o =>
    cases h
    obtain ⟨an, ev, e⟩ := busOnly_fields (readOperand_busOnly o (xW s) s)
    rw [e]; rfl
  | bit m =>
    cases h
    obtain ⟨an, ev, e⟩ := busOnly_fields (readMem_busOnly m (mW s) s)
    rw [e]; rfl
  | asl r | lsr r | rol r | ror r =>
    cases r with
    | acc => cases h; exact modifyAcc_reads _ s
    | mem m => cases h; exact (modifyMem_stores _ m s).1
  | inc r | dec r =>
    cases r with
    | acc => cases h; exact modifyStepAcc_reads _ s
    | mem m => cases h; exact (modifyStepMem_stores _ m s).1
  | tsb m | trb m => cases h; exact (testModify_stores _ m s).1
  | sta m | stx m | sty m | stz m => cases h; exact writeMem_frame m _ _ s
  | jmpInd a =>
    cases h
    obtain ⟨an, ev, e⟩ := busOnly_fields (absPointer_busOnly a s)
    rw [e]; rfl
  | jmpIndX a =>
    cases h
    obtain ⟨an, ev, e⟩ := busOnly_fields (absPointerX_busOnly a s)
    rw [e]; rfl
  | jmlInd a =>
    cases h
    obtain ⟨an, ev, e⟩ := busOnly_fields (absPointerLong_busOnly a s)
    rw [e]; rfl
  | jsrAbs a =>
    cases h
    obtain ⟨sp, mem, an, ev, e⟩ := stackOnly_fields (push16_stackOnly .legacy (s.PC - 1) s)
    rw [e]; rfl
  | jsrIndX a =>
    cases h
    have hpush := (push16_stackOnly .wide (s.PC - 1) s).trans (settleStack_stackOnly _)
    obtain ⟨sp, mem, an, ev, e⟩ := stackOnly_fields (hpush.trans (.of_busOnly (absPointerX_busOnly a _)))
    rw [e]; rfl
  | jsl al =>
    cases h
    have hpush := (push8_stackOnly .wide s.PBR s).trans (push16_stackOnly .wide (s.PC - 1) _)
    obtain ⟨sp, mem, an, ev, e⟩ := stackOnly_fields (hpush.trans (settleStack_stackOnly _))
    rw [e]; rfl
  | rts =>
    cases h
    obtain ⟨sp, an, ev, e⟩ := pullOnly_fields (pull16_pullOnly .legacy s)
    rw [e]; rfl
  | rtl =>
    cases h
    have hpull := (pull16_pullOnly .wide s).trans (pull8_pullOnly .wide _)
    obtain ⟨sp, an, ev, e⟩ := pullOnly_fields (hpull.trans (settleStack_pullOnly _))
    rw [e]; rfl
  | pha | phx | phy => cases h; exact pushW_stackOnly _ _ s
  | phd | pea v | per r16 => cases h; exact (push16_stackOnly .wide _ s).trans (settleStack_stackOnly _)
  | pei d =>
    cases h
    have hread := StackOnly.of_busOnly
      (readPointer16_busOnly (directAddr d.toNat false s) (directAddr (d.toNat + 1) false s) s)
    exact (hread.trans (push16_stackOnly .wide _ _)).trans (settleStack_stackOnly _)
  | pla =>
    cases h
    obtain ⟨sp, an, ev, e⟩ := pullOnly_fields (pullW_pullOnly (mW s) s)
    rw [e]
    cases mW s <;> rfl
  | plx | ply =>
    cases h
    obtain ⟨sp, an, ev, e⟩ := pullOnly_fields (pullW_pullOnly (xW s) s)
    rw [e]; rfl
  | pld =>
    cases h
    obtain ⟨sp, an, ev, e⟩ := pullOnly_fields (pull16_pullOnly .wide s)
    rw [e]; rfl
  | plp => cases h; rw [pullP_eq]; rfl
  | txa | tya => cases h; exact setZN_setAcc_reads _ _ s s (.refl s)
  | sep k => cases h; rw [clearIndexHigh_eq]; rfl
  | xce => cases h; cases s.P.C <;> rfl
  | mvn dst src | mvp dst src => cases h; exact blockMove_writes _ dst src s
  | brk sig | cop sig =>
    cases h
    obtain ⟨-, -, -, hframe⟩ := takeException_spec _ s.PC s
    rw [hframe]; rfl
  | rti => cases h; exact returnFromException_pulls s
  | _ => cases h; rfl

/-! ### The writer tables -/

/-- A field of `writtenBy` that has changed is one that the instruction may write. -/
theorem mayWrite_of_ne {α : Type} {may : Bool} {new old : α} (h : new = bif may then new else old) (hne : new ≠ old) :
    may = true := by
  cases may with
  | true => rfl
  | false => exact absurd h hne

/-- A field of `writtenBy` that the instruction may not write is as it was. -/
theorem eq_of_mayWrite_false {α : Type} {may : Bool} {new old : α} (h : new = bif may then new else old)
    (hmay : may = false) : new = old := by
  rw [hmay] at h
  exact h

/-- Settles O58: each field that has changed is one that `writtenBy` takes from the new state. -/
theorem registerWriters : Obligations.RegisterWriters := by
  intro i s t hexec
  have h := exec_writtenBy hexec
  refine ⟨?A, ?X, ?Y, ?S, ?D, ?DBR, ?PBR, ?PC, ?E, ?waiting, ?stopped, (congrArg State.nmiPending h :),
    (congrArg State.inputs h :)⟩
  case A => exact mayWrite_of_ne (congrArg State.A h)
  case X => exact mayWrite_of_ne (congrArg State.X h)
  case Y => exact mayWrite_of_ne (congrArg State.Y h)
  case S => exact mayWrite_of_ne (congrArg State.S h)
  case D => exact mayWrite_of_ne (congrArg State.D h)
  case DBR => exact mayWrite_of_ne (congrArg State.DBR h)
  case PBR => exact mayWrite_of_ne (congrArg State.PBR h)
  case PC => exact mayWrite_of_ne (congrArg State.PC h)
  case E => exact fun hne => of_decide_eq_true (mayWrite_of_ne (congrArg State.E h) hne)
  case waiting => exact fun hne => of_decide_eq_true (mayWrite_of_ne (congrArg State.waiting h) hne)
  case stopped => exact fun hne => of_decide_eq_true (mayWrite_of_ne (congrArg State.stopped h) hne)

/-- Settles O59: each flag that has changed is one that `writtenBy` takes from the new state. -/
theorem flagWriters : Obligations.FlagWriters := by
  intro i s t hexec
  have h : t.P = (writtenBy i s t).P := congrArg State.P (exec_writtenBy hexec)
  refine ⟨?N, ?V, ?M, ?X, ?D, ?I, ?Z, ?C⟩
  case N => exact mayWrite_of_ne (congrArg Status.N h)
  case V => exact mayWrite_of_ne (congrArg Status.V h)
  case M => exact mayWrite_of_ne (congrArg Status.M h)
  case X => exact mayWrite_of_ne (congrArg Status.X h)
  case D => exact mayWrite_of_ne (congrArg Status.D h)
  case I => exact mayWrite_of_ne (congrArg Status.I h)
  case Z => exact mayWrite_of_ne (congrArg Status.Z h)
  case C => exact mayWrite_of_ne (congrArg Status.C h)

end Sys2Proof.Machine
end

section
/-! PROOFS. Every step keeps the invariants of a launch state: the high bytes of the index registers, what emulation mode
forces, and the canonical form of memory (spec/10_state.md R23, R24, R28, spec/70_reset_and_hazards.md R344). -/

namespace Sys2Proof.Machine

/-! ### The high bytes of X and Y (10_state R23) -/

/-- A value of the index width has the high byte 0x00 while P.X = 1. -/
theorem highByte_truncTo_xW {s : State} (h : s.P.X = true) (v : Word) : highByte (truncTo (xW s) v) = 0x00 := by
  rw [xW, h]
  exact highByte_zext _

/-- An instruction that leaves P.X alone and writes X and Y at the index width, if it writes them, keeps their legality. -/
theorem indexLegal_of_writtenBy {i : Instr} {s t : State} (h : t = writtenBy i s t) (hwidth : mayWriteWidth i = false)
    (hX : mayWriteX i = false ∨ ∃ v, t.X = truncTo (xW s) v) (hY : mayWriteY i = false ∨ ∃ v, t.Y = truncTo (xW s) v)
    (hs : s.indexLegal) : t.indexLegal := by
  intro hx
  rw [show t.P.X = s.P.X from eq_of_mayWrite_false (congrArg (·.P.X) h) hwidth] at hx
  constructor
  · rcases hX with hX | ⟨v, hX⟩
    · rw [eq_of_mayWrite_false (congrArg State.X h) hX]; exact (hs hx).1
    · rw [hX]; exact highByte_truncTo_xW hx v
  · rcases hY with hY | ⟨v, hY⟩
    · rw [eq_of_mayWrite_false (congrArg State.Y h) hY]; exact (hs hx).2
    · rw [hY]; exact highByte_truncTo_xW hx v

theorem clearIndexHigh_indexLegal (s : State) : (clearIndexHigh s).indexLegal := by
  rw [clearIndexHigh_eq]
  intro (h : s.P.X = true)
  simp [h]

theorem enterEmulation_indexLegal (s : State) : (enterEmulation s).indexLegal :=
  fun _ => ⟨highByte_zext _, highByte_zext _⟩

/-- The return takes P, X, Y and E as pulling P leaves them (60_exceptions R320). -/
theorem returnFromException_pullP (s : State) :
    let p := pullP (pull8 .legacy s).1 (pull8 .legacy s).2
    let t := returnFromException s
    t.P = p.P ∧ t.X = p.X ∧ t.Y = p.Y ∧ t.E = p.E := by
  unfold returnFromException
  dsimp only
  generalize pullP (pull8 .legacy s).1 (pull8 .legacy s).2 = p
  obtain ⟨sp, an, ev, e⟩ := pullOnly_fields (pull16_pullOnly .legacy p)
  rw [e]
  cases s.E <;> exact ⟨rfl, rfl, rfl, rfl⟩

theorem returnFromException_indexLegal (s : State) : (returnFromException s).indexLegal := by
  obtain ⟨hP, hX, hY, -⟩ := returnFromException_pullP s
  unfold State.indexLegal
  rw [hP, hX, hY]
  exact clearIndexHigh_indexLegal _

/-! ### What emulation mode forces (10_state R24, R28) -/

theorem pushW_high (w : Width) (v : Word) (s : State) (h : s.E = true) : highByte (pushW w v s).S = 0x01 := by
  cases w with
  | w8 => exact decS_legacy_high s h
  | w16 => exact decS_legacy_high (push8 .legacy (highByte v) s) h

theorem pullW_high (w : Width) (s : State) (h : s.E = true) : highByte (pullW w s).2.S = 0x01 := by
  cases w with
  | w8 => exact incS_legacy_high s h
  | w16 => exact incS_legacy_high (pull8 .legacy s).2 h

/-- The end of an instruction of the wide stack rule that began in emulation mode (20_memory R75). -/
theorem settleStack_high_of {s u : State} (h : StackOnly s u) (hE : s.E = true) : highByte (settleStack u).S = 0x01 :=
  settleStack_high u (by rw [h]; exact hE)

/-- Pulling P in emulation mode leaves both width bits 1 (48_stack_transfer R273). -/
theorem pullP_widths (v : Byte) {s : State} (h : s.E = true) : (pullP v s).P.M = true ∧ (pullP v s).P.X = true := by
  rw [pullP_eq, h]
  exact ⟨rfl, rfl⟩

theorem enterEmulation_emulationLegal (s : State) : (enterEmulation s).emulationLegal :=
  fun _ => ⟨rfl, rfl, highByte_mkWord _ _⟩

theorem returnFromException_high (s : State) (h : s.E = true) : highByte (returnFromException s).S = 0x01 := by
  unfold returnFromException
  rw [if_pos h]
  exact incS_legacy_high (pull8 .legacy _).2 (by rw [pull8_E, pullP_eq]; exact h)

/-! ### The canonical form of memory -/

/-- An instruction that stores nothing keeps the form of memory. -/
theorem wf_of_writtenBy {i : Instr} {s t : State} (h : t = writtenBy i s t) (hmay : mayStore i = false) (hs : s.mem.wf) :
    t.mem.wf := by
  rw [eq_of_mayWrite_false (congrArg State.mem h) hmay]
  exact hs

theorem readMem_mem (m : Mode) (w : Width) (s : State) : (readMem m w s).2.mem = s.mem := by
  rw [readMem_busOnly m w s]

theorem modifyWithCarry_wf (f : Width → Word → Bool → Word × Bool) (m : Mode) (s : State) (h : s.mem.wf) :
    (modifyWithCarry f (.mem m) s).mem.wf :=
  memWrite_wf _ _ _ (setC _ (readMem m (mW s) s).2) (by rw [setC_mem, readMem_mem]; exact h)

theorem modifyStep_wf (f : Width → Word → Word) (m : Mode) (s : State) (h : s.mem.wf) :
    (modifyStep f (.mem m) s).mem.wf :=
  memWrite_wf _ _ _ (readMem m (mW s) s).2 (by rw [readMem_mem]; exact h)

theorem testModify_wf (f : Word → Word → Word) (m : Mode) (s : State) (h : s.mem.wf) : (testModify f m s).mem.wf :=
  memWrite_wf _ _ _ (setZ _ (readMem m (mW s) s).2) (by rw [setZ_mem, readMem_mem]; exact h)

theorem settledPush16_wf (v : Word) (s : State) (h : s.mem.wf) : (settleStack (push16 .wide v s)).mem.wf := by
  rw [settleStack_mem]
  exact push16_wf .wide v s h

theorem blockMove_wf (delta : Word) (dst src : Byte) (s : State) (h : s.mem.wf) : (blockMove delta dst src s).mem.wf :=
  Memory.write_wf _ _ _ (mkAddr dst s.Y).isLt h

/-! ### Exceptions and reset -/

/-- The entry sequence keeps the invariants (60_exceptions R318). -/
theorem takeException_inv (kind : Exception) (ret : Word) {s : State} (h : s.Inv) : (takeException kind ret s).Inv := by
  obtain ⟨hindex, hemulation, hmem⟩ := h
  obtain ⟨-, -, -, hframe⟩ := takeException_spec kind ret s
  refine ⟨?_, ?_, takeException_wf kind ret s hmem⟩
  · rw [hframe]; exact hindex
  · rw [hframe]
    intro hE
    obtain ⟨hM, hX, hS⟩ := hemulation hE
    exact ⟨hM, hX, pushEnd_high _ s hE hS⟩

/-- The state after a reset sequence is legal (70_reset_and_hazards R340, R344). -/
theorem resetSequence_inv (s : State) (h : s.mem.wf) : (resetSequence s).Inv :=
  ⟨fun _ => ⟨highByte_zext _, highByte_zext _⟩, fun _ => ⟨rfl, rfl, highByte_mkWord _ _⟩, h⟩

/-! ### Instructions -/

/-- Where P.X is 1 after REP it was 1 before: REP clears flags, and emulation mode has X = 1 on both sides (49_system R297). -/
theorem execRep_indexLegal {k : Byte} {s t : State} (h : execRep k s = .next t) (hs : s.Inv) : t.indexLegal := by
  obtain ⟨hindex, hemulation, -⟩ := hs
  cases h
  intro hx
  refine hindex ?_
  cases hE : s.E with
  | true => exact (hemulation hE).2.1
  | false =>
    simp only [hE, unpackP_and] at hx
    exact (Bool.and_eq_true_iff.mp hx).1

/-- Every write of X or Y is at the index width, or clears its high byte (10_state R23). -/
theorem exec_indexLegal {i : Instr} {s t : State} (h : exec i s = .next t) (hs : s.Inv) : t.indexLegal := by
  have hw := exec_writtenBy h
  have ⟨hindex, _⟩ := hs
  cases i with
  | ldx | inx | dex | plx | tax | tsx | tyx =>
    cases h; exact indexLegal_of_writtenBy hw rfl (.inr ⟨_, rfl⟩) (.inl rfl) hindex
  | ldy | iny | dey | ply | tay | txy =>
    cases h; exact indexLegal_of_writtenBy hw rfl (.inl rfl) (.inr ⟨_, rfl⟩) hindex
  | mvn | mvp => cases h; exact indexLegal_of_writtenBy hw rfl (.inr ⟨_, rfl⟩) (.inr ⟨_, rfl⟩) hindex
  | rep k => exact execRep_indexLegal h hs
  | sep | plp => cases h; exact clearIndexHigh_indexLegal _
  | rti => cases h; exact returnFromException_indexLegal s
  | xce =>
    cases h
    cases s.P.C with
    | true => exact enterEmulation_indexLegal _
    | false => exact hindex
  | _ => exact indexLegal_of_writtenBy hw rfl (.inl rfl) (.inl rfl) hindex

/-- An instruction that begins in emulation mode ends with SH at 0x01 (10_state R24). Where a call or return sets PC or PBR
last, `dsimp only` projects S out of that update first: comparing whole states there is costly. -/
theorem exec_high {i : Instr} {s t : State} (h : exec i s = .next t) (hE : s.E = true) (hS : highByte s.S = 0x01) :
    highByte t.S = 0x01 := by
  have hw := exec_writtenBy h
  cases i with
  | pha | phx | phy => cases h; exact pushW_high _ _ s hE
  | php | phb | phk => cases h; exact decS_legacy_high s hE
  | jsrAbs => cases h; exact decS_legacy_high (push8 .legacy _ s) hE
  | phd | pea | per => cases h; exact settleStack_high_of (push16_stackOnly .wide _ s) hE
  | pei =>
    cases h
    exact settleStack_high_of ((StackOnly.of_busOnly (readPointer16_busOnly _ _ s)).trans (push16_stackOnly .wide _ _)) hE
  | jsl =>
    cases h
    dsimp only
    exact settleStack_high_of ((push8_stackOnly .wide _ s).trans (push16_stackOnly .wide _ _)) hE
  | jsrIndX a =>
    cases h
    rw [absPointerX_busOnly]
    dsimp only
    exact settleStack_high_of (push16_stackOnly .wide _ s) hE
  | pld => cases h; exact settleStack_high_of (pull16_stackOnly .wide s) hE
  | rtl =>
    cases h
    dsimp only
    exact settleStack_high_of ((pull16_stackOnly .wide s).trans (pull8_stackOnly .wide _)) hE
  | pla => cases h; rw [setZN_S, setAcc_S]; exact pullW_high _ s hE
  | plx | ply => cases h; exact pullW_high _ s hE
  | plp => cases h; rw [pullP_eq]; exact incS_legacy_high s hE
  | plb => cases h; exact incS_legacy_high s hE
  | rts => cases h; exact incS_legacy_high (pull8 .legacy s).2 hE
  | tcs | txs => cases h; rw [setS_S, if_pos hE]; exact highByte_mkWord _ _
  | brk | cop =>
    cases h
    obtain ⟨-, -, -, hframe⟩ := takeException_spec _ s.PC s
    rw [hframe]
    exact pushEnd_high _ s hE hS
  | rti => cases h; exact returnFromException_high s hE
  | xce =>
    cases h
    cases s.P.C with
    | true => exact highByte_mkWord _ _
    | false => exact hS
  | _ => rw [eq_of_mayWrite_false (congrArg State.S hw) rfl]; exact hS

/-- An instruction that begins in emulation mode leaves both width bits 1 (10_state R28). -/
theorem exec_widths {i : Instr} {s t : State} (h : exec i s = .next t) (hE : s.E = true) (hM : s.P.M = true)
    (hX : s.P.X = true) : t.P.M = true ∧ t.P.X = true := by
  have hw := exec_writtenBy h
  cases i with
  | rep k => cases h; rw [if_pos hE]; exact ⟨rfl, rfl⟩
  | sep k => cases h; rw [clearIndexHigh_eq, unpackP_or, hM, hX]; exact ⟨rfl, rfl⟩
  | plp => cases h; exact pullP_widths _ hE
  | rti =>
    cases h
    obtain ⟨hP, -, -, -⟩ := returnFromException_pullP s
    rw [hP]
    exact pullP_widths _ hE
  | xce =>
    cases h
    cases s.P.C with
    | true => exact ⟨rfl, rfl⟩
    | false => exact ⟨hM, hX⟩
  | _ =>
    exact ⟨(eq_of_mayWrite_false (congrArg (·.P.M) hw) rfl).trans hM,
      (eq_of_mayWrite_false (congrArg (·.P.X) hw) rfl).trans hX⟩

/-- XCE alone changes the mode, and it forces what emulation mode asks for (10_state R28, 49_system R299). -/
theorem exec_emulationLegal {i : Instr} {s t : State} (h : exec i s = .next t) (hs : s.emulationLegal) :
    t.emulationLegal := by
  intro hE
  by_cases hsE : s.E = true
  · obtain ⟨hM, hX, hS⟩ := hs hsE
    obtain ⟨hM', hX'⟩ := exec_widths h hsE hM hX
    exact ⟨hM', hX', exec_high h hsE hS⟩
  · have hne : t.E ≠ s.E := fun e => hsE (e ▸ hE)
    obtain rfl : i = .xce := of_decide_eq_true (mayWrite_of_ne (congrArg State.E (exec_writtenBy h)) hne)
    cases h
    cases hC : s.P.C with
    | true => exact enterEmulation_emulationLegal _ rfl
    | false => rw [hC] at hE; cases hE

/-- What an instruction stores, it stores by the bus at addresses of 24 bits, which keeps the form of memory. -/
theorem exec_wf {i : Instr} {s t : State} (h : exec i s = .next t) (hs : s.mem.wf) : t.mem.wf := by
  have hw := exec_writtenBy h
  cases i with
  | sta m | stx m | sty m | stz m => cases h; exact writeMem_wf m _ _ s hs
  | asl r | lsr r | rol r | ror r =>
    cases r with
    | acc => exact wf_of_writtenBy hw rfl hs
    | mem m => cases h; exact modifyWithCarry_wf _ m s hs
  | inc r | dec r =>
    cases r with
    | acc => exact wf_of_writtenBy hw rfl hs
    | mem m => cases h; exact modifyStep_wf _ m s hs
  | tsb m | trb m => cases h; exact testModify_wf _ m s hs
  | pha | phx | phy => cases h; exact pushW_wf _ _ s hs
  | php | phb | phk => cases h; exact push8_wf .legacy _ s hs
  | phd | pea | per => cases h; exact settledPush16_wf _ s hs
  | pei => cases h; exact settledPush16_wf _ _ (by rw [readPointer16_busOnly]; exact hs)
  | jsrAbs => cases h; dsimp only; exact push16_wf .legacy _ s hs
  | jsrIndX =>
    cases h
    rw [absPointerX_busOnly]
    dsimp only
    exact settledPush16_wf _ s hs
  | jsl => cases h; dsimp only; exact settledPush16_wf _ _ (push8_wf .wide _ s hs)
  | mvn dst src | mvp dst src => cases h; exact blockMove_wf _ dst src s hs
  | brk | cop => cases h; exact takeException_wf _ _ s hs
  | _ => exact wf_of_writtenBy hw rfl hs

/-- Every instruction keeps the invariants (70_reset_and_hazards R344). -/
theorem exec_inv {i : Instr} {s t : State} (h : exec i s = .next t) (hs : s.Inv) : t.Inv := by
  have ⟨_, hemulation, hmem⟩ := hs
  exact ⟨exec_indexLegal h hs, exec_emulationLegal h hemulation, exec_wf h hmem⟩

/-! ### The step -/

/-- A fetch moves PC alone, of the fields that the invariants speak of. -/
theorem fetchBytes_inv (n : Nat) {s : State} (h : s.Inv) : (fetchBytes n s).2.Inv := by
  induction n generalizing s with
  | zero => exact h
  | succ n ih => exact ih (s := (fetch8 s).2) h

theorem fetchInstr_inv {s : State} (h : s.Inv) : (fetchInstr s).2.Inv := fetchBytes_inv _ (s := (fetch8 s).2) h

theorem runInstr_inv {s t : State} (h : runInstr s = .next t) (hs : s.Inv) : t.Inv := by
  obtain ⟨i, hi⟩ := exists_fetchInstr s
  rw [runInstr_of_fetch hi] at h
  exact exec_inv h (fetchInstr_inv hs)

/-- What the core settles at a boundary is a reset, an exception entry, or a change of latch and waiting state
(60_exceptions R316). -/
theorem boundary_settled_inv {s t : State} (h : boundary s = .settled t) (hs : s.Inv) : t.Inv := by
  have hsample : (samplePins s).Inv := hs
  have ⟨_, _, hmem⟩ := hsample
  unfold boundary decideBoundary at h
  split_ifs at h with hreset hstopped habort hnmi hirq hwaiting hend
  · cases h; exact resetSequence_inv _ hmem
  · cases h; exact hsample
  · cases h; exact takeException_inv .nmi _ hsample
  · cases h; exact takeException_inv .irq _ hsample
  · cases h; exact hsample
  · cases h; exact hsample

/-- The instruction is executed at the sampled state. -/
theorem boundary_execute_inv {s t : State} (h : boundary s = .execute t) (hs : s.Inv) : t.Inv := by
  unfold boundary decideBoundary at h
  split_ifs at h
  cases h
  exact hs

/-- Settles O9: the boundary, the fetch and each instruction keep the three invariants. -/
theorem stepKeepsInvariant : Obligations.StepKeepsInvariant := by
  intro s t hs hstep
  cases hb : boundary s with
  | settled u =>
    rw [step_of_settled hb] at hstep
    cases hstep
    exact boundary_settled_inv hb hs
  | refuse =>
    rw [step_of_refuse hb] at hstep
    cases hstep
  | execute u =>
    rw [step_of_execute hb] at hstep
    exact runInstr_inv hstep (boundary_execute_inv hb hs)

end Sys2Proof.Machine
end

section
/-! PROOFS. The steps of S, the byte after an effective address, and reads and writes of memory (spec/20_memory.md R63 to R66,
R74, R75, R78). -/

namespace Sys2Proof.Machine

/-! ### The steps of S -/

theorem toNat_sub_one (v : Word) : (v - 1).toNat = (v.toNat + 65535) % 65536 := by
  rw [BitVec.toNat_sub, Nat.add_comm]; rfl

theorem toNat_add_one (v : Word) : (v + 1).toNat = (v.toNat + 1) % 65536 := BitVec.toNat_add v 1

/-- An offset in page 0x01, in numbers. -/
theorem toNat_page1 (b : Byte) : (mkWord 0x01 b).toNat = 256 + b.toNat := mkWord_toNat 0x01 b

theorem toNat_page1_sub_one (v : Word) : (mkWord 0x01 (lowByte v - 1)).toNat = 256 + (v.toNat + 255) % 256 := by
  rw [toNat_page1, ← lowByte_sub_one, lowByte_toNat, toNat_sub_one]
  omega

theorem toNat_page1_add_one (v : Word) : (mkWord 0x01 (lowByte v + 1)).toNat = 256 + (v.toNat + 1) % 256 := by
  rw [toNat_page1, ← lowByte_add_one, lowByte_toNat, toNat_add_one]
  omega

theorem decS_legacy {s : State} (h : s.E = true) : decS .legacy s = mkWord 0x01 (lowByte s.S - 1) := by simp [decS, h]

theorem incS_legacy {s : State} (h : s.E = true) : incS .legacy s = mkWord 0x01 (lowByte s.S + 1) := by simp [incS, h]

/-- In emulation mode `EMU_STACK_LINEAR` selects the step of the wide rule (20_memory R75). -/
theorem decS_wide {s : State} (h : s.E = true) :
    decS .wide s = if Config.emuStackLinear then s.S - 1 else mkWord 0x01 (lowByte s.S - 1) := by
  simp [decS, h, emuStackChoice_eq]

theorem incS_wide {s : State} (h : s.E = true) :
    incS .wide s = if Config.emuStackLinear then s.S + 1 else mkWord 0x01 (lowByte s.S + 1) := by
  simp [incS, h, emuStackChoice_eq]

/-- Settles O15: a step is one of S, or one of SL in page 0x01. -/
theorem stackSteps : Obligations.StackSteps := by
  intro rule s dec inc Linear InPage
  have hlinear (hd : decS rule s = s.S - 1) (hi : incS rule s = s.S + 1) : Linear :=
    ⟨by rw [← toNat_sub_one, ← hd], by rw [← toNat_add_one, ← hi]⟩
  have hinPage (hd : decS rule s = mkWord 0x01 (lowByte s.S - 1)) (hi : incS rule s = mkWord 0x01 (lowByte s.S + 1)) :
      InPage := ⟨by rw [← toNat_page1_sub_one, ← hd], by rw [← toNat_page1_add_one, ← hi]⟩
  refine ⟨fun h => hlinear (decS_native rule s h) (incS_native rule s h), fun h => ?_⟩
  cases rule with
  | legacy => exact hinPage (decS_legacy h) (incS_legacy h)
  | wide =>
    have hd := decS_wide h
    have hi := incS_wide h
    dsimp only
    split_ifs at hd hi ⊢
    · exact hlinear hd hi
    · exact hinPage hd hi

/-! ### The byte after an effective address -/

/-- Settles O16: the address steps through all 24 bits, or its offset steps in bank 0. -/
theorem nextByteAddress : Obligations.NextByteAddress := by
  intro a
  refine ⟨BitVec.toNat_add a 1, rfl, ?_, rfl⟩
  calc (nextEa ⟨a, .bank0⟩).addr.toNat
      _ = (mkAddr 0x00 (offsetOf a + 1)).toNat := rfl
      _ = (offsetOf a + 1).toNat := by simp [mkAddr_toNat]
      _ = (a.toNat % 65536 + 1) % 65536 := by rw [toNat_add_one, offsetOf_toNat]

/-! ### Reads and writes of memory -/

@[simp] theorem memWrite_answers (w : Width) (ea : Ea) (v : Word) (s : State) : (memWrite w ea v s).answers = s.answers := by
  rw [memWrite_busStore w ea v s]

/-- Where the platform holds no answer, a read gives what memory holds (20_memory R62, R78). -/
theorem busValue_eq_byteAt {s : State} (h : s.answers = []) (a : Addr) : busValue a s = byteAt s a := by
  unfold busValue; rw [h]; rfl

theorem memRead_eq_memoryValue (w : Width) (ea : Ea) {s : State} (h : s.answers = []) :
    (memRead w ea s).1.toNat = memoryValue w s ea := by
  rw [memRead_toNat, busValue_eq_byteAt h, busValue_eq_byteAt h]
  rfl

/-- Settles O17: a read gives the bytes of the bus, a write stores the bytes of its value, and a read after it gives them back. -/
theorem memoryAccess : Obligations.MemoryAccess := by
  intro w ea v s
  refine ⟨memRead_toNat .w16 ea s, memRead_toNat .w8 ea s, memRead_busOnly w ea s, memoryValue_memWrite w ea v s,
    memWrite_stores w ea v s, fun h => ?_⟩
  have hempty : (memWrite w ea v s).answers = [] := by rw [memWrite_answers, h]
  rw [memRead_eq_memoryValue w ea hempty, memoryValue_memWrite]

end Sys2Proof.Machine
end

section
/-! PROOFS. The fetch: the program bytes, the record and the frame (spec/20_memory.md R70, R72, spec/10_state.md R27). -/

namespace Sys2Proof.Machine

/-- The address `k` bytes after PC, in the program bank. -/
def fetchAddr (s : State) (k : Nat) : Addr := mkAddr s.PBR (s.PC + BitVec.ofNat 16 k)

/-- The read that fetches the byte at `fetchAddr s k`, by what the bus gives in `s`. -/
def fetchEvent (s : State) (k : Nat) : BusEvent := ⟨.read, fetchAddr s k, busValue (fetchAddr s k) s⟩

theorem add_one_add_ofNat (v : Word) (k : Nat) : v + 1 + BitVec.ofNat 16 k = v + BitVec.ofNat 16 (k + 1) := by
  rw [BitVec.ofNat_add, BitVec.add_comm (BitVec.ofNat 16 k), BitVec.add_assoc]
  rfl

theorem fetchAddr_zero (s : State) : fetchAddr s 0 = mkAddr s.PBR s.PC := by simp [fetchAddr]

theorem fetchAddr_fetch8 (s : State) (k : Nat) : fetchAddr (fetch8 s).2 k = fetchAddr s (k + 1) :=
  congrArg (mkAddr s.PBR) (add_one_add_ofNat s.PC k)

theorem fetchAddr_succ_ne {k : Nat} (hk : k < 65535) (s : State) : fetchAddr s (k + 1) ≠ mkAddr s.PBR s.PC := by
  refine mkAddr_ne _ _ _ fun h => ?_
  have hnat := congrArg BitVec.toNat h
  rw [BitVec.toNat_add, BitVec.toNat_ofNat] at hnat
  have := s.PC.isLt
  omega

theorem fetchEvent_fetch8 {k : Nat} (hk : k < 65535) (s : State) : fetchEvent (fetch8 s).2 k = fetchEvent s (k + 1) := by
  have hvalue : busValue (fetchAddr s (k + 1)) (fetch8 s).2 = busValue (fetchAddr s (k + 1)) s :=
    busValue_busRead _ _ s (fetchAddr_succ_ne hk s)
  unfold fetchEvent
  rw [fetchAddr_fetch8, hvalue]

/-- The reads of a fetch: the first, and those of the rest in the state after it. -/
theorem map_fetchEvent_succ {n : Nat} (hn : n < 65536) (s : State) :
    (List.range (n + 1)).map (fetchEvent s) = fetchEvent s 0 :: (List.range n).map (fetchEvent (fetch8 s).2) := by
  rw [List.range_succ_eq_map, List.map_cons, List.map_map]
  congr 1
  refine List.map_congr_left fun k hk => (fetchEvent_fetch8 ?_ s).symm
  have := List.mem_range.mp hk
  omega

theorem fetch8_val (s : State) : (fetch8 s).1 = (fetchEvent s 0).value := by
  simp only [fetchEvent, fetchAddr_zero]; rfl

theorem fetch8_events (s : State) : (fetch8 s).2.events = fetchEvent s 0 :: s.events := by
  simp only [fetchEvent, fetchAddr_zero]; rfl

theorem fetchBytes_val {n : Nat} (hn : n ≤ 65536) (s : State) :
    (fetchBytes n s).1 = ((List.range n).map (fetchEvent s)).map BusEvent.value := by
  induction n generalizing s with
  | zero => rfl
  | succ n ih =>
    rw [map_fetchEvent_succ hn, List.map_cons, ← ih (by omega), ← fetch8_val]
    rfl

theorem fetchBytes_events {n : Nat} (hn : n ≤ 65536) (s : State) :
    (fetchBytes n s).2.events = ((List.range n).map (fetchEvent s)).reverse ++ s.events := by
  induction n generalizing s with
  | zero => rfl
  | succ n ih =>
    rw [map_fetchEvent_succ hn, List.reverse_cons, List.append_assoc, List.singleton_append, ← fetch8_events]
    exact ih (by omega) (fetch8 s).2

/-- A fetch moves PC, in its bank, and changes nothing else but the answers and the record (10_state R27). -/
theorem fetchBytes_reads (n : Nat) (s : State) :
    Reads { s with PC := s.PC + BitVec.ofNat 16 n } (fetchBytes n s).2 := by
  induction n generalizing s with
  | zero => simp [Reads, fetchBytes]
  | succ n ih =>
    rw [← add_one_add_ofNat]
    exact ih (fetch8 s).2

/-- Settles O6: the addresses of at most 2^16 fetched bytes differ, so each read gives what the bus held at the start. -/
theorem fetchReadsProgramBytes : Obligations.FetchReadsProgramBytes := by
  intro s n hn
  refine ⟨?_, fetchBytes_reads n s, fetchBytes_events (by omega) s⟩
  rw [fetchBytes_val (by omega), List.map_map]
  rfl

end Sys2Proof.Machine
end

section
/-! PROOFS. The stores (spec/44_load_store.md R193 to R197). -/

namespace Sys2Proof.Machine

/-- A store of a value of width w through a mode. -/
theorem writeMem_spec_of_lt (m : Mode) {w : Width} {v : Word} (hv : v.toNat < 2 ^ w.bits) (s : State) :
    memoryValue w (writeMem m w v s) (effectiveAddr m s).1 = v.toNat ∧ StoreRecord w m s (writeMem m w v s) ∧
      Stores (storedAt w (effectiveAddr m s).1) s (writeMem m w v s) := by
  obtain ⟨hrecord, hvalue, hstores⟩ := writeMem_spec m w v s
  exact ⟨hvalue.trans (Nat.mod_eq_of_lt hv), hrecord, hstores⟩

/-- Settles O35: each stores a value of its width, and a store does nothing else. -/
theorem storeResults : Obligations.StoreResults := fun m s =>
  ⟨⟨_, rfl, writeMem_spec_of_lt m (acc_lt _ s) s⟩, ⟨_, rfl, writeMem_spec_of_lt m (truncTo_lt _ s.X) s⟩,
    ⟨_, rfl, writeMem_spec_of_lt m (truncTo_lt _ s.Y) s⟩, ⟨_, rfl, writeMem_spec_of_lt m (Nat.two_pow_pos _) s⟩⟩

end Sys2Proof.Machine
end

section
/-! PROOFS. The record of bus events: the accesses of words, and those of every instruction (spec/20_memory.md R62, R65 to R67,
R70, spec/00_scope.md R19). -/

namespace Sys2Proof.Machine

/-! ### The accesses of a byte and of a word -/

/-- The events of a write are those of the value's bytes (20_memory R66). -/
theorem memWrite8_events (ea : Ea) (v : Word) (s : State) :
    (memWrite .w8 ea v s).events = ⟨.write, ea.addr, lowByte v⟩ :: s.events := rfl

theorem memWrite16_events (ea : Ea) (v : Word) (s : State) :
    (memWrite .w16 ea v s).events =
      wordEvents ⟨.write, ea.addr, lowByte v⟩ ⟨.write, (nextEa ea).addr, highByte v⟩ ++ s.events := by
  simp only [memWrite, memWrite16, recordWord, wordEvents]
  cases Config.wordByteOrder <;> rfl

/-! ### Operations that make no access -/

theorem Accesses.of_sameBus {s t : State} (h : SameBus s t) : Accesses [] s t := (Accesses.refl s).after h

theorem accResult_sameBus (w : Width) (v : Word) (s : State) : SameBus s (setZN w v (setAcc w v s)) :=
  (setAcc_sameBus w v s).trans (setZN_sameBus w v _)

theorem xResult_sameBus (w : Width) (v : Word) (s : State) : SameBus s (setZN w v (setX w v s)) := ⟨rfl, rfl, rfl⟩

theorem yResult_sameBus (w : Width) (v : Word) (s : State) : SameBus s (setZN w v (setY w v s)) := ⟨rfl, rfl, rfl⟩

theorem execXce_accesses (s : State) : Completes .xce s (Accesses [] s) := by
  refine ⟨_, rfl, .of_sameBus ?_⟩
  dsimp only
  split_ifs <;> exact ⟨rfl, rfl, rfl⟩

/-! ### Shared operations -/

theorem logical_accesses (f : Word → Word → Word) (o : Operand) (s : State) :
    Accesses (operandReads o (mW s) s) s (logical f o s) :=
  (readOperand_accesses o (mW s) s).after (accResult_sameBus _ _ _)

theorem testModify_accesses (f : Word → Word → Word) (m : Mode) (s : State) :
    Accesses (modifyAccesses (.mem m) (mW s) s) s (testModify f m s) := (testModify_bus f m s).2

/-- A push of the wide rule ends in a change of S. -/
theorem settledPush16_accesses (v : Word) (s : State) :
    Accesses (writesAt (pushSlots .wide 2 s)) s (settleStack (push16 .wide v s)) :=
  (push16_accesses .wide v s).after (settleStack_sameBus _)

/-- A block move reads one byte and writes it (49_system R302). -/
theorem blockMove_accesses (delta : Word) (dst src : Byte) (s : State) :
    Accesses [(.read, mkAddr src s.X), (.write, mkAddr dst s.Y)] s (blockMove delta dst src s) :=
  ((busRead_accesses (mkAddr src s.X) s).trans (busWrite_accesses (mkAddr dst s.Y) _ _)).after ⟨rfl, rfl, rfl⟩

/-- A trap pushes its frame and reads its vector (60_exceptions R318). -/
theorem trap_accesses (kind : Exception) (ret : Word) (s : State) :
    Accesses (writesAt (pushSlots .legacy (if s.E then 3 else 4) s)
      ++ readsAt (wordAddrs (mkAddr 0x00 (vector kind s.E)) (mkAddr 0x00 (vector kind s.E + 1)))) s
      (takeException kind ret s) := by
  rw [← frameBytes_length (pushedB kind) ret s]
  exact takeException_accesses kind ret s

theorem vector_brk (e : Bool) : vector .brk e = if e then 0xFFFE else 0xFFE6 := by cases e <;> rfl

theorem vector_cop (e : Bool) : vector .cop e = if e then 0xFFF4 else 0xFFE4 := by cases e <;> rfl

/-! ### Every instruction -/

/-- Every instruction makes the accesses that its rule names, and no other (20_memory R70). -/
theorem exec_accesses (i : Instr) (s : State) : Completes i s (Accesses (accessesOf i s) s) := by
  cases i with
  | adc o | sbc o => exact ⟨_, rfl, (readOperand_accesses o _ s).after (writeAlu_sameBus _ _ _)⟩
  | and o | ora o | eor o => exact ⟨_, rfl, logical_accesses _ o s⟩
  | lda o => exact ⟨_, rfl, (readOperand_accesses o _ s).after (accResult_sameBus _ _ _)⟩
  | ldx o => exact ⟨_, rfl, (readOperand_accesses o _ s).after (xResult_sameBus _ _ _)⟩
  | ldy o => exact ⟨_, rfl, (readOperand_accesses o _ s).after (yResult_sameBus _ _ _)⟩
  | cmp o | cpx o | cpy o => exact ⟨_, rfl, (readOperand_accesses o _ s).after (compare_sameBus _ _ _ _)⟩
  | bit m => exact ⟨_, rfl, (readMem_accesses m _ s).after ⟨rfl, rfl, rfl⟩⟩
  | sta m | stx m | sty m | stz m => exact ⟨_, rfl, writeMem_accesses m _ _ s⟩
  | asl t | lsr t | rol t | ror t => exact ⟨_, rfl, modifyWithCarry_accesses _ t s⟩
  | inc t | dec t => exact ⟨_, rfl, modifyStep_accesses _ t s⟩
  | tsb m | trb m => exact ⟨_, rfl, testModify_accesses _ m s⟩
  | jmpInd a => exact ⟨_, rfl, (absPointer_accesses a s).after (jump_sameBus _ _)⟩
  | jmpIndX a => exact ⟨_, rfl, (absPointerX_accesses a s).after (jump_sameBus _ _)⟩
  | jmlInd a => exact ⟨_, rfl, (absPointerLong_accesses a s).after (jumpLong_sameBus _ _ _)⟩
  | jsrAbs a => exact ⟨_, rfl, (push16_accesses .legacy _ s).after (jump_sameBus _ _)⟩
  | jsrIndX a => exact ⟨_, rfl, (pushPointerX_accesses _ a s).after (jump_sameBus _ _)⟩
  | jsl al =>
    have h := pushBytes_accesses .wide [s.PBR, highByte (s.PC - 1), lowByte (s.PC - 1)] s
    exact ⟨_, rfl, (h.after (settleStack_sameBus _)).after (jumpLong_sameBus _ _ _)⟩
  | rts => exact ⟨_, rfl, (pull16_accesses .legacy s).after (jump_sameBus _ _)⟩
  | rtl => exact ⟨_, rfl, ((pullBytes_accesses .wide 3 s).after (settleStack_sameBus _)).after (jumpLong_sameBus _ _ _)⟩
  | pha | phx | phy => exact ⟨_, rfl, pushW_accesses _ _ s⟩
  | php | phb | phk => exact ⟨_, rfl, push8_accesses .legacy _ s⟩
  | phd | pea v | per r16 => exact ⟨_, rfl, settledPush16_accesses _ s⟩
  | pei d => exact ⟨_, rfl, readPush16_accesses _ _ s⟩
  | pla => exact ⟨_, rfl, (pullW_accesses _ s).after (accResult_sameBus _ _ _)⟩
  | plx => exact ⟨_, rfl, (pullW_accesses _ s).after (xResult_sameBus _ _ _)⟩
  | ply => exact ⟨_, rfl, (pullW_accesses _ s).after (yResult_sameBus _ _ _)⟩
  | plp => exact ⟨_, rfl, (pull8_accesses .legacy s).after (pullP_sameBus _ _)⟩
  | plb => exact ⟨_, rfl, (pull8_accesses .legacy s).after ⟨rfl, rfl, rfl⟩⟩
  | pld => exact ⟨_, rfl, (pull16_accesses .wide s).after ⟨rfl, rfl, rfl⟩⟩
  | mvn dst src | mvp dst src => exact ⟨_, rfl, blockMove_accesses _ dst src s⟩
  | brk sig =>
    have h := trap_accesses .brk s.PC s
    rw [vector_brk] at h
    exact ⟨_, rfl, h⟩
  | cop sig =>
    have h := trap_accesses .cop s.PC s
    rw [vector_cop] at h
    exact ⟨_, rfl, h⟩
  | rti => exact ⟨_, rfl, returnFromException_accesses s⟩
  | txa | tya => exact ⟨_, rfl, .of_sameBus (accResult_sameBus _ _ _)⟩
  | sep k => exact ⟨_, rfl, .of_sameBus (clearIndexHigh_sameBus _)⟩
  | xce => exact execXce_accesses s
  | inx | iny | dex | dey | bitImm v
  | bpl r8 | bmi r8 | bvc r8 | bvs r8 | bcc r8 | bcs r8 | bne r8 | beq r8 | bra r8 | brl r16 | jmpAbs a | jmlLong al
  | tax | tay | txy | tyx | tsx | txs | tcs | tsc | tcd | tdc | xba
  | clc | sec | cli | sei | cld | sed | clv | rep k | nop | wdm sig | wai | stp =>
    exact ⟨_, rfl, .of_sameBus ⟨rfl, rfl, rfl⟩⟩

/-- Settles O18: the events of a word are listed in the order of WORD_BYTE_ORDER, and each instruction makes its accesses. -/
theorem busEventOrder : Obligations.BusEventOrder := by
  refine ⟨fun ea v s => ⟨memRead_events .w8 ea s, memWrite8_events ea v s, ?_⟩, exec_accesses⟩
  rw [memRead_events, memWrite16_events]
  dsimp only [readEvents, wordEvents]
  cases Config.wordByteOrder with
  | lowFirst => exact ⟨rfl, rfl⟩
  | highFirst => exact ⟨rfl, rfl⟩

end Sys2Proof.Machine
end

section
/-! PROOFS. The encoding: what the encoder writes is decoded, what the decoder accepts is what the encoder writes, and every
opcode has a meaning (spec/30_encoding.md R90 to R95). -/

namespace Sys2Proof

/-! ### What the encoder writes -/

/-- A well-formed instruction has an opcode, and the format there asks for its operand bytes (30_encoding R91, R93, R95). -/
theorem Laws.FormatLength.statement (i : Instr) : Statement i := by
  cases i with
  | adc o => exact adc o
  | sbc o => exact sbc o
  | and o => exact and o
  | ora o => exact ora o
  | eor o => exact eor o
  | asl t => exact asl t
  | lsr t => exact lsr t
  | rol t => exact rol t
  | ror t => exact ror t
  | inc t => exact inc t
  | dec t => exact dec t
  | lda o => exact lda o
  | ldx o => exact ldx o
  | ldy o => exact ldy o
  | sta m => exact sta m
  | stx m => exact stx m
  | sty m => exact sty m
  | stz m => exact stz m
  | cmp o => exact cmp o
  | cpx o => exact cpx o
  | cpy o => exact cpy o
  | bit m => exact bit m
  | bitImm v => exact bitImm v
  | tsb m => exact tsb m
  | trb m => exact trb m
  | _ => exact fun _ _ _ => ⟨_, _, rfl, rfl, rfl⟩

/-- The encoder writes bytes for every form that the opcode map gives (30_encoding R95). -/
theorem exists_encode {m8 x8 : Bool} {i : Instr} (h : i.wellFormed m8 x8 = true) : ∃ bytes, encode i = some bytes := by
  obtain ⟨opcode, _, hop, -, -⟩ := Laws.FormatLength.statement i m8 x8 h
  exact ⟨opcode :: i.operandBytes, by rw [encode, hop, Option.map_some]⟩

/-- Settles O1: a well-formed instruction has an encoding, and the format at its opcode reads the operand bytes back. -/
theorem decodeOfEncode : Obligations.DecodeOfEncode := by
  intro m8 x8 i rest hwf
  obtain ⟨bytes, he⟩ := exists_encode hwf
  exact ⟨bytes, he, decode_encode hwf he rest⟩

/-! ### What stands in the opcode map -/

/-- The instructions that a format makes are encoded as the opcode and their operand bytes, and they are well-formed, with an
immediate when its length is that of its width bit (30_encoding R91 to R93). -/
def Shape.Encoded (opcode : Byte) : Shape → Prop
  | .none i => encode i = some [opcode] ∧ ∀ m8 x8, i.wellFormed m8 x8 = true
  | .byte f => (∀ b, encode (f b) = some [opcode, b]) ∧ ∀ b m8 x8, (f b).wellFormed m8 x8 = true
  | .word f => (∀ v, encode (f v) = some (opcode :: wordBytes v)) ∧ ∀ v m8 x8, (f v).wellFormed m8 x8 = true
  | .long f => (∀ v, encode (f v) = some (opcode :: addrBytes v)) ∧ ∀ v m8 x8, (f v).wellFormed m8 x8 = true
  | .banks f => (∀ dst src, encode (f dst src) = some [opcode, dst, src]) ∧
      ∀ dst src m8 x8, (f dst src).wellFormed m8 x8 = true
  | .immM f => (∀ v, encode (f v) = some (opcode :: v.bytes)) ∧ ∀ v m8 x8, (f v).wellFormed m8 x8 = v.fits m8
  | .immX f => (∀ v, encode (f v) = some (opcode :: v.bytes)) ∧ ∀ v m8 x8, (f v).wellFormed m8 x8 = v.fits x8

/-- Each of the 256 formats of the opcode map makes instructions of the opcode whose nibbles name its place: every equation
holds by computation, whatever the operand (30_encoding R95). -/
theorem opcodeMap_encoded :
    opcodeMap.zipIdx.Forall fun row => row.1.zipIdx.Forall fun sh => sh.1.Encoded (BitVec.ofNat 8 (16 * row.2 + sh.2)) := by
  and_intros <;> intros <;> rfl

/-- The format at an opcode makes instructions of that opcode. -/
theorem shapeOf_encoded {opcode : Byte} {sh : Shape} (h : shapeOf opcode = some sh) : sh.Encoded opcode := by
  obtain ⟨row, hrow, hsh⟩ := Option.bind_eq_some_iff.mp h
  have hall := List.forall_iff_forall_mem.mp opcodeMap_encoded (row, opcode.toNat / 16) (List.mem_zipIdx_iff_getElem?.mpr hrow)
  have he := List.forall_iff_forall_mem.mp hall (sh, opcode.toNat % 16) (List.mem_zipIdx_iff_getElem?.mpr hsh)
  rwa [Nat.div_add_mod, BitVec.ofNat_toNat, BitVec.setWidth_eq] at he

/-! ### What the decoder accepts -/

theorem wordBytes_mkWord (hi lo : Byte) : wordBytes (mkWord hi lo) = [lo, hi] := by simp [wordBytes]

theorem addrBytes_mkAddr (bank hi lo : Byte) : addrBytes (mkAddr bank (mkWord hi lo)) = [lo, hi, bank] := by simp [addrBytes]

/-- An immediate is built from its own bytes, and it has the length of the width bit (30_encoding R92, R93). -/
theorem buildImm_eq_some {eight : Bool} {f : Imm → Instr} {bs rest : List Byte} {i : Instr}
    (h : buildImm eight f bs = some (i, rest)) : ∃ v : Imm, i = f v ∧ bs = v.bytes ++ rest ∧ v.fits eight = true := by
  match eight, bs, h with
  | true, b :: _, rfl => exact ⟨.byte b, rfl, rfl, rfl⟩
  | false, lo :: hi :: _, rfl => exact ⟨.word (mkWord hi lo), rfl, by rw [Imm.bytes, wordBytes_mkWord]; rfl, rfl⟩

/-- What a format of the map builds is well-formed, and it is built from the bytes that the encoder writes after the opcode
(30_encoding R91 to R93). -/
theorem Shape.Encoded.of_build {m8 x8 : Bool} {opcode : Byte} {sh : Shape} {bs rest : List Byte} {i : Instr}
    (hsh : sh.Encoded opcode) (h : sh.build m8 x8 bs = some (i, rest)) :
    i.wellFormed m8 x8 = true ∧ ∃ head, encode i = some head ∧ opcode :: bs = head ++ rest := by
  match sh, bs, hsh, h with
  | .none _, _, ⟨he, hwf⟩, rfl => exact ⟨hwf m8 x8, _, he, rfl⟩
  | .byte _, b :: _, ⟨he, hwf⟩, rfl => exact ⟨hwf b m8 x8, _, he b, rfl⟩
  | .word _, _ :: _ :: _, ⟨he, hwf⟩, rfl => exact ⟨hwf _ m8 x8, _, he _, by rw [wordBytes_mkWord]; rfl⟩
  | .long _, _ :: _ :: _ :: _, ⟨he, hwf⟩, rfl => exact ⟨hwf _ m8 x8, _, he _, by rw [addrBytes_mkAddr]; rfl⟩
  | .banks _, dst :: src :: _, ⟨he, hwf⟩, rfl => exact ⟨hwf dst src m8 x8, _, he dst src, rfl⟩
  | .immM _, _, ⟨he, hwf⟩, h | .immX _, _, ⟨he, hwf⟩, h =>
    obtain ⟨v, rfl, rfl, hfits⟩ := buildImm_eq_some h
    exact ⟨(hwf v m8 x8).trans hfits, _, he v, rfl⟩

/-- The decoder accepts bytes when the format at the first byte builds an instruction of the others (30_encoding R90). -/
theorem decode_eq_ok {m8 x8 : Bool} {bytes : List Byte} {r : Instr × List Byte} (h : decode m8 x8 bytes = .ok r) :
    ∃ opcode bs sh, bytes = opcode :: bs ∧ shapeOf opcode = some sh ∧ sh.build m8 x8 bs = some r := by
  cases bytes with
  | nil => cases h
  | cons opcode bs =>
    obtain ⟨sh, hsh⟩ := exists_shapeOf opcode
    refine ⟨opcode, bs, sh, rfl, hsh, ?_⟩
    simp only [decode, hsh] at h
    cases hb : sh.build m8 x8 bs with
    | none => rw [hb] at h; cases h
    | some r' => rw [hb] at h; cases h; rfl

/-- Settles O2: the format at the first byte makes instructions of that opcode, from the bytes that the encoder writes. -/
theorem encodeOfDecode : Obligations.EncodeOfDecode := by
  intro m8 x8 bytes rest i h
  obtain ⟨opcode, bs, sh, rfl, hsh, hb⟩ := decode_eq_ok h
  exact (shapeOf_encoded hsh).of_build hb

theorem immCount_le (eight : Bool) : immCount eight ≤ 2 := by cases eight <;> decide

/-- The longest format is F4, with three operand bytes (30_encoding R91). -/
theorem Shape.operandCount_le (m8 x8 : Bool) (sh : Shape) : sh.operandCount m8 x8 ≤ 3 := by
  cases sh with
  | none | byte | word | long | banks => simp [operandCount]
  | immM => exact (immCount_le m8).trans (by decide)
  | immX => exact (immCount_le x8).trans (by decide)

/-- Settles O3: every place of the map is filled, and its format makes an instruction of as many bytes as it asks for. -/
theorem everyOpcodeDecodes : Obligations.EveryOpcodeDecodes := by
  intro m8 x8 opcode
  obtain ⟨sh, hsh⟩ := exists_shapeOf opcode
  refine ⟨sh.operandCount m8 x8, sh.operandCount_le m8 x8, fun operands hlen => ?_⟩
  obtain ⟨i, hb⟩ := sh.exists_build m8 x8 operands hlen
  exact ⟨i, decode_of_build hsh hb, ((shapeOf_encoded hsh).of_build hb).1⟩

/-- Settles O4, by running the decoder on the eight words. -/
theorem specWordsDecode : Obligations.SpecWordsDecode := by
  unfold Obligations.SpecWordsDecode
  and_intros <;> decide

end Sys2Proof
end

section
/-! PROOFS. Effective addresses: the absolute, direct, indirect and stack-relative modes, in numbers, with the reads of their
pointers (spec/30_encoding.md R99 to R109, R121). -/

namespace Sys2Proof.Machine

/-! ### Pointers: their numbers and their reads (R121) -/

/-- A pointer of two bytes, in numbers. -/
theorem readPointer16_toNat {lo hi : Ea} (s : State) (h : hi.addr ≠ lo.addr) :
    (readPointer16 lo hi s).1.toNat = (busValue lo.addr s).toNat + 256 * (busValue hi.addr s).toNat := by
  rw [readPointer16_val lo hi s h, mkWord_toNat]
  omega

/-- A pointer of three bytes, in numbers. -/
theorem readPointer24_toNat {b0 b1 b2 : Ea} (s : State) (h : b1.addr ≠ b0.addr) (h' : b2.addr ≠ b0.addr)
    (h'' : b2.addr ≠ b1.addr) :
    (readPointer24 b0 b1 b2 s).1.toNat =
      (busValue b0.addr s).toNat + 256 * (busValue b1.addr s).toNat + 65536 * (busValue b2.addr s).toNat := by
  rw [readPointer24_val b0 b1 b2 s h h' h'', mkAddr_toNat, mkWord_toNat]
  omega

/-- The reads of a pointer of two bytes: the low byte first, and so the second in the record. -/
theorem readPointer16_events {lo hi : Ea} (s : State) (h : hi.addr ≠ lo.addr) :
    (readPointer16 lo hi s).2.events =
      ⟨.read, hi.addr, busValue hi.addr s⟩ :: ⟨.read, lo.addr, busValue lo.addr s⟩ :: s.events := by
  rw [← busValue_busRead lo.addr hi.addr s h]
  rfl

/-- The reads of a pointer of three bytes, from low to high. -/
theorem readPointer24_events {b0 b1 b2 : Ea} (s : State) (h : b1.addr ≠ b0.addr) (h' : b2.addr ≠ b0.addr)
    (h'' : b2.addr ≠ b1.addr) :
    (readPointer24 b0 b1 b2 s).2.events =
      ⟨.read, b2.addr, busValue b2.addr s⟩ :: ⟨.read, b1.addr, busValue b1.addr s⟩ ::
        ⟨.read, b0.addr, busValue b0.addr s⟩ :: s.events := by
  have hthird : busValue b2.addr (readPointer16 b0 b1 s).2 = busValue b2.addr s :=
    (busValue_busRead b1.addr b2.addr _ h'').trans (busValue_busRead b0.addr b2.addr s h')
  show ⟨.read, b2.addr, busValue b2.addr (readPointer16 b0 b1 s).2⟩ :: (readPointer16 b0 b1 s).2.events = _
  rw [hthird, readPointer16_events s h]

/-! ### The absolute modes (R99, R100, R107) -/

/-- Settles O19: the address is a bank and an offset, or an index added to one. -/
theorem absoluteAddresses : Obligations.AbsoluteAddresses := by
  intro a al s base
  have hbase : (mkAddr s.DBR a).toNat = base := mkAddr_toNat _ _
  refine ⟨⟨hbase, ?_, ?_, rfl, indexed_toNat al s.X⟩,
    List.forall_iff_forall_mem.mp ⟨⟨rfl, rfl⟩, ⟨rfl, rfl⟩, ⟨rfl, rfl⟩, ⟨rfl, rfl⟩, ⟨rfl, rfl⟩⟩⟩
  · rw [← hbase]; exact indexed_toNat _ _
  · rw [← hbase]; exact indexed_toNat _ _

/-! ### The direct modes (R101, R102) -/

/-- A direct address lies in bank 0 and wraps there. -/
theorem directAddr_kind (off : Nat) (legacy : Bool) (s : State) : (directAddr off legacy s).kind = .bank0 := by
  unfold directAddr
  split <;> rfl

theorem bank0_toNat (offset : Word) : (bank0 offset).addr.toNat = offset.toNat := by simp [mkAddr_toNat]

/-- The direct address, in numbers: the offset wraps in the direct page, or the sum with D wraps in bank 0. -/
theorem directAddr_toNat (off : Nat) (legacy : Bool) (s : State) :
    (directAddr off legacy s).addr.toNat =
      if legacy = true ∧ s.E = true ∧ s.D.toNat % 256 = 0 then s.D.toNat / 256 * 256 + off % 256
      else (s.D.toNat + off) % 65536 := by
  have hpage : lowByte s.D = 0x00 ↔ s.D.toNat % 256 = 0 := by rw [← BitVec.toNat_inj, lowByte_toNat]; rfl
  simp only [directAddr, Bool.and_eq_true, beq_iff_eq, hpage, and_assoc]
  split
  · rw [bank0_toNat, mkWord_toNat, highByte_toNat, BitVec.toNat_ofNat]
  · rw [bank0_toNat, BitVec.toNat_add, BitVec.toNat_ofNat]; omega

/-- Offsets that differ in the page have different direct addresses. -/
theorem directAddr_ne {off off' : Nat} (h : off' % 256 ≠ off % 256) (legacy : Bool) (s : State) :
    (directAddr off' legacy s).addr ≠ (directAddr off legacy s).addr := by
  intro heq
  have hnat := congrArg BitVec.toNat heq
  rw [directAddr_toNat, directAddr_toNat] at hnat
  split at hnat <;> omega

/-- Settles O20: for an offset of one byte the page wrap changes nothing, so `dp` is D + dp in both modes. -/
theorem directAddresses : Obligations.DirectAddresses := by
  refine ⟨fun off legacy s => ⟨directAddr_kind off legacy s, directAddr_toNat off legacy s⟩,
    fun d s => ⟨rfl, rfl, rfl, (directAddr_toNat d.toNat true s).trans ?_⟩⟩
  have hd := d.isLt
  have hD := s.D.isLt
  split <;> omega

/-! ### The indirect modes through the direct page (R103 to R106) -/

/-- The places of consecutive bytes of a direct pointer differ. -/
theorem directAddr_succ_ne (off : Nat) (legacy : Bool) (s : State) :
    (directAddr (off + 1) legacy s).addr ≠ (directAddr off legacy s).addr := directAddr_ne (by omega) legacy s

theorem directAddr_add_two_ne (off : Nat) (legacy : Bool) (s : State) :
    (directAddr (off + 2) legacy s).addr ≠ (directAddr off legacy s).addr := directAddr_ne (by omega) legacy s

/-- The pointer of `(dp)`, in numbers, and its reads. -/
theorem directPointer_spec (off : Nat) (s : State) :
    let place := fun k : Nat => (directAddr (off + k) true s).addr
    (directPointer off s).1.toNat = (busValue (place 0) s).toNat + 256 * (busValue (place 1) s).toNat ∧
    (directPointer off s).2.events =
      ⟨.read, place 1, busValue (place 1) s⟩ :: ⟨.read, place 0, busValue (place 0) s⟩ :: s.events :=
  ⟨readPointer16_toNat s (directAddr_succ_ne off true s), readPointer16_events s (directAddr_succ_ne off true s)⟩

/-- The pointer of `[dp]`, in numbers, and its reads. -/
theorem directPointerLong_spec (off : Nat) (s : State) :
    let place := fun k : Nat => (directAddr (off + k) false s).addr
    (directPointerLong off s).1.toNat =
      (busValue (place 0) s).toNat + 256 * (busValue (place 1) s).toNat + 65536 * (busValue (place 2) s).toNat ∧
    (directPointerLong off s).2.events =
      ⟨.read, place 2, busValue (place 2) s⟩ :: ⟨.read, place 1, busValue (place 1) s⟩ ::
        ⟨.read, place 0, busValue (place 0) s⟩ :: s.events := by
  have h1 := directAddr_succ_ne off false s
  have h2 := directAddr_add_two_ne off false s
  have h21 := directAddr_succ_ne (off + 1) false s
  exact ⟨readPointer24_toNat s h1 h2 h21, readPointer24_events s h1 h2 h21⟩

/-- Settles O21: each mode takes its pointer from different places of the direct page, and adds its bank or its index. -/
theorem indirectAddresses : Obligations.IndirectAddresses := by
  intro d s at2 at3 bank
  have h16 (off : Nat) : (mkAddr s.DBR (directPointer off s).1).toNat = bank + at2 off := by
    rw [mkAddr_toNat, (directPointer_spec off s).1]; rfl
  have h24 (off : Nat) : (directPointerLong off s).1.toNat = at3 off := (directPointerLong_spec off s).1
  refine ⟨⟨h16 _, h16 _, ?_, h24 _, ?_⟩, ?_, ?_⟩
  · rw [← h16]; exact indexed_toNat _ _
  · rw [← h24]; exact indexed_toNat _ _
  · intro m hm
    refine ⟨?_, effectiveAddr_busOnly m s⟩
    revert m
    exact List.forall_iff_forall_mem.mp ⟨rfl, rfl, rfl, rfl, rfl⟩
  · have hread (off : Nat) := (directPointer_spec off s).2
    have hlong := (directPointerLong_spec d.toNat s).2
    exact ⟨hread _, hread _, hread _, List.forall_iff_forall_mem.mp ⟨hlong, hlong⟩⟩

/-! ### The stack-relative modes (R108, R109) -/

/-- Settles O22: the pointer's bytes lie at S + sr and at the next offset of bank 0. -/
theorem stackRelativeAddresses : Obligations.StackRelativeAddresses := by
  intro k s q p
  have hq : (s.S + zext k).toNat = q := by rw [BitVec.toNat_add, zext_toNat]
  have hlo : (stackAddr k s).addr = BitVec.ofNat 24 q := bank0_ofNat _ _ hq
  have hhi : (bank0 (s.S + zext k + 1)).addr = BitVec.ofNat 24 ((q + 1) % 65536) :=
    bank0_ofNat _ _ (by rw [toNat_add_one, hq])
  have hp : (readPointer16 (stackAddr k s) (nextEa (stackAddr k s)) s).1.toNat = p := by
    rw [readPointer16_toNat s (nextEa_ne _), hlo, stackAddr, nextEa_bank0, hhi]
  refine ⟨(bank0_toNat _).trans hq, rfl, rfl, ?_, rfl, effectiveAddr_busOnly _ s, ?_⟩
  · rw [← hp, ← mkAddr_toNat]; exact indexed_toNat _ _
  · rw [← hlo, ← hhi]; exact effectiveAddr_accesses (.srIndY k) s

end Sys2Proof.Machine
end

section
/-! PROOFS. The jumps (spec/47_control.md R241 to R245, spec/30_encoding.md R111 to R114). -/

namespace Sys2Proof.Machine

/-! ### What a jump through a pointer changes -/

/-- A jump after a read changes PC, the answers and the record. -/
theorem BusOnly.jump {s u : State} (h : BusOnly s u) (pc : Word) :
    SameMemory s { u with PC := pc } ∧ Reads { s with PC := pc } { u with PC := pc } := by
  obtain ⟨an, ev, rfl⟩ := busOnly_fields h
  exact ⟨fun _ => rfl, rfl⟩

/-- A long jump after a read changes PBR, PC, the answers and the record. -/
theorem BusOnly.jumpLong {s u : State} (h : BusOnly s u) (bank : Byte) (pc : Word) :
    SameMemory s { u with PBR := bank, PC := pc } ∧
      Reads { s with PBR := bank, PC := pc } { u with PBR := bank, PC := pc } := by
  obtain ⟨an, ev, rfl⟩ := busOnly_fields h
  exact ⟨fun _ => rfl, rfl⟩

/-! ### The pointers -/

/-- The pointer of `(a)`, in numbers (30_encoding R112). -/
theorem absPointer_toNat (a : Word) (s : State) :
    (absPointer a s).1.toNat = (busValue (mkAddr 0x00 a) s).toNat + 256 * (busValue (mkAddr 0x00 (a + 1)) s).toNat :=
  readPointer16_toNat s (mkAddr_ne _ _ _ (word_add_one_ne a))

/-- The pointer of `(a,X)`, in numbers (30_encoding R113). -/
theorem absPointerX_toNat (a : Word) (s : State) :
    (absPointerX a s).1.toNat =
      (busValue (mkAddr s.PBR (a + s.X)) s).toNat + 256 * (busValue (mkAddr s.PBR (a + s.X + 1)) s).toNat :=
  readPointer16_toNat s (mkAddr_ne _ _ _ (word_add_one_ne _))

/-- The pointer of `[a]` (30_encoding R114). -/
theorem absPointerLong_val (a : Word) (s : State) :
    (absPointerLong a s).1 =
      mkAddr (busValue (mkAddr 0x00 (a + 2)) s)
        (mkWord (busValue (mkAddr 0x00 (a + 1)) s) (busValue (mkAddr 0x00 a) s)) :=
  readPointer24_val _ _ _ s (mkAddr_ne _ _ _ (word_add_one_ne a)) (mkAddr_ne _ _ _ (word_add_two_ne a))
    (mkAddr_ne _ _ _ (word_add_two_ne_add_one a))

/-- Settles O40: each goes to its operand or to its pointer, whose bytes lie at the places that the statement numbers. -/
theorem jumpResults : Obligations.JumpResults := by
  intro a al s in0 inPbr
  have h0 : mkAddr 0x00 a = BitVec.ofNat 24 ((a.toNat + 0) % 65536) := bank0_ofNat _ _ (Nat.mod_eq_of_lt a.isLt).symm
  have h1 : mkAddr 0x00 (a + 1) = BitVec.ofNat 24 ((a.toNat + 1) % 65536) := bank0_ofNat _ _ (BitVec.toNat_add a 1)
  have h2 : mkAddr 0x00 (a + 2) = BitVec.ofNat 24 ((a.toNat + 2) % 65536) := bank0_ofNat _ _ (BitVec.toNat_add a 2)
  have hx0 : mkAddr s.PBR (a + s.X) = BitVec.ofNat 24 (s.PBR.toNat * 65536 + (a.toNat + s.X.toNat + 0) % 65536) :=
    bank_ofNat _ _ _ (BitVec.toNat_add a s.X)
  have hx1 : mkAddr s.PBR (a + s.X + 1) = BitVec.ofNat 24 (s.PBR.toNat * 65536 + (a.toNat + s.X.toNat + 1) % 65536) :=
    bank_ofNat _ _ _ (by rw [toNat_add_one, BitVec.toNat_add, Nat.mod_add_mod])
  refine ⟨⟨_, rfl, rfl⟩, ⟨_, rfl, bankOf_toNat al, offsetOf_toNat al, rfl⟩,
    ⟨_, rfl, ?_, (absPointer_busOnly a s).jump _⟩, ⟨_, rfl, ?_, (absPointerX_busOnly a s).jump _⟩,
    ⟨_, rfl, ?_, ?_, (absPointerLong_busOnly a s).jumpLong _ _⟩⟩
  · show (absPointer a s).1.toNat = _
    rw [absPointer_toNat, h0, h1]
  · show (absPointerX a s).1.toNat = _
    rw [absPointerX_toNat, hx0, hx1]
  · show (offsetOf (absPointerLong a s).1).toNat = _
    rw [absPointerLong_val, offsetOf_mkAddr, mkWord_toNat, h0, h1, Nat.add_comm, Nat.mul_comm]
  · show (bankOf (absPointerLong a s).1).toNat = _
    rw [absPointerLong_val, bankOf_mkAddr, h2]

end Sys2Proof.Machine
end

section
/-! PROOFS. ADC and SBC (spec/40_arith.md R140 to R152, spec/95_test_vectors.md T3). -/

namespace Sys2Proof.Machine

/-! ### The three cases of ADC and SBC -/

section
variable {w : Width} {a b : Word} (c : Bool) (draw : Nat)

theorem adcOut_binary : adcOut w false a b c draw =
    ⟨(adcBin w a b c).1, (adcBin w a b c).2, adcOverflow w a b (adcBin w a b c).1, 0⟩ := rfl

theorem sbcOut_binary : sbcOut w false a b c draw =
    ⟨(sbcBin w a b c).1, (sbcBin w a b c).2, sbcOverflow w a b (sbcBin w a b c).1, 0⟩ := rfl

theorem adcOut_decimal (ha : validBcd w a = true) (hb : validBcd w b = true) : adcOut w true a b c draw =
    ⟨(adcDec w a b c).1, (adcDec w a b c).2, adcOverflow w a b (adcDec w a b c).1, 0⟩ := by
  simp [adcOut, ha, hb]

theorem sbcOut_decimal (ha : validBcd w a = true) (hb : validBcd w b = true) : sbcOut w true a b c draw =
    ⟨(sbcDec w a b c).1, (sbcDec w a b c).2, sbcOverflow w a b (sbcDec w a b c).1, 0⟩ := by
  simp [sbcOut, ha, hb]

theorem adcOut_invalid (h : (validBcd w a && validBcd w b) = false) : adcOut w true a b c draw = drawBcd w draw := by
  simp [adcOut, h]

theorem sbcOut_invalid (h : (validBcd w a && validBcd w b) = false) : sbcOut w true a b c draw = drawBcd w draw := by
  simp [sbcOut, h]

end

/-! ### The end of ADC and SBC -/

/-- What ADC and SBC leave when they draw nothing: the result and carry of `r`, the overflow `v`, Z and N of the result, and
all else as it was (40_arith R140, R145). -/
def AluResult (w : Width) (r : Word × Bool) (v : Bool) (s t : State) : Prop :=
  acc w t = r.1 ∧ KeepsHigh w s t ∧ t.P.C = r.2 ∧ t.P.V = v ∧ FollowsZN w r.1.toNat t.P ∧ SameMemory s t ∧
    Reads { s with A := t.A, P := { s.P with N := t.P.N, V := t.P.V, Z := t.P.Z, C := t.P.C } } t

theorem writeAlu_result {w : Width} {r : Word × Bool} (v : Bool) {s u : State} (h : BusOnly s u)
    (hr : r.1.toNat < 2 ^ w.bits) : AluResult w r v s (writeAlu w ⟨r.1, r.2, v, 0⟩ u) := by
  obtain ⟨hacc, hhigh, hC, hV, hZN, hdraws, hmem, hreads⟩ := writeAlu_spec w ⟨r.1, r.2, v, 0⟩ s u h
  rw [hdraws] at hreads
  exact ⟨hacc.trans (truncTo_of_lt w r.1 hr), hhigh, hC, hV, hZN, hmem, hreads⟩

/-- ADC ends with the pair that its addition gives, when its operands are not drawn for (40_arith R140). -/
theorem adc_completes (o : Operand) (s : State) {r : Word × Bool} (hr : r.1.toNat < 2 ^ (mW s).bits)
    (hout : adcOut (mW s) s.P.D (acc (mW s) s) (readOperand o (mW s) s).1 s.P.C s.draws =
      ⟨r.1, r.2, adcOverflow (mW s) (acc (mW s) s) (readOperand o (mW s) s).1 r.1, 0⟩) :
    Completes (.adc o) s (AluResult (mW s) r
      (adcOverflow (mW s) (acc (mW s) s) (readOperand o (mW s) s).1 r.1) s) :=
  ⟨_, rfl, hout ▸ writeAlu_result _ (readOperand_busOnly o _ s) hr⟩

/-- SBC ends with the pair that its subtraction gives, when its operands are not drawn for (40_arith R145). -/
theorem sbc_completes (o : Operand) (s : State) {r : Word × Bool} (hr : r.1.toNat < 2 ^ (mW s).bits)
    (hout : sbcOut (mW s) s.P.D (acc (mW s) s) (readOperand o (mW s) s).1 s.P.C s.draws =
      ⟨r.1, r.2, sbcOverflow (mW s) (acc (mW s) s) (readOperand o (mW s) s).1 r.1, 0⟩) :
    Completes (.sbc o) s (AluResult (mW s) r
      (sbcOverflow (mW s) (acc (mW s) s) (readOperand o (mW s) s).1 r.1) s) :=
  ⟨_, rfl, hout ▸ writeAlu_result _ (readOperand_busOnly o _ s) hr⟩

/-! ### Binary mode -/

theorem adcBin_toNat (w : Width) (a b : Word) (c : Bool) :
    (adcBin w a b c).1.toNat = (a.toNat + b.toNat + c.toNat) % 2 ^ w.bits := ofNat_mod_toNat w _

theorem adcBin_lt (w : Width) (a b : Word) (c : Bool) : (adcBin w a b c).1.toNat < 2 ^ w.bits :=
  adcBin_toNat w a b c ▸ Nat.mod_lt _ (by positivity)

theorem sbcBin_toInt (w : Width) (a b : Word) (c : Bool) :
    ((sbcBin w a b c).1.toNat : Int) = ((a.toNat : Int) - b.toNat - (1 - c.toNat)) % 2 ^ w.bits := by
  have h := wrapInt_toNat w ((a.toNat : Int) - b.toNat - (1 - c.toNat))
  rwa [Nat.cast_pow, Nat.cast_ofNat] at h

theorem sbcBin_lt (w : Width) (a b : Word) (c : Bool) : (sbcBin w a b c).1.toNat < 2 ^ w.bits := by
  have h : ((sbcBin w a b c).1.toNat : Int) < 2 ^ w.bits := sbcBin_toInt w a b c ▸ Int.emod_lt_of_pos _ (by positivity)
  exact_mod_cast h

/-- SBC in binary mode has no borrow exactly when its difference is not negative (40_arith R146). -/
theorem sbcBin_carry (w : Width) (a b : Word) (c : Bool) :
    (sbcBin w a b c).2 = decide (b.toNat + 1 ≤ a.toNat + c.toNat) := by
  unfold sbcBin
  exact decide_eq_decide.mpr (by omega)

/-- Settles O23: the flags of the reduced sum are those of the sum. -/
theorem adcBinary : Obligations.AdcBinary := by
  intro o s hD
  obtain ⟨t, ht, hacc, hhigh, hC, hV, hZN, hmem, hreads⟩ := adc_completes o s
    (adcBin_lt (mW s) (acc (mW s) s) (readOperand o (mW s) s).1 s.P.C) (by rw [hD, adcOut_binary])
  rw [adcOverflow_sign, adcBin_toNat, signOf_mod] at hV
  rw [adcBin_toNat, followsZN_mod] at hZN
  exact ⟨t, ht, by rw [hacc, adcBin_toNat], hhigh, hC, hV, hZN, hmem, hreads⟩

/-- Settles O24: the result is the difference reduced, and the flags follow it. -/
theorem sbcBinary : Obligations.SbcBinary := by
  intro o s hD
  obtain ⟨t, ht, hacc, hhigh, hC, hV, hZN, hmem, hreads⟩ := sbc_completes o s
    (sbcBin_lt (mW s) (acc (mW s) s) (readOperand o (mW s) s).1 s.P.C) (by rw [hD, sbcOut_binary])
  rw [sbcBin_carry] at hC
  rw [sbcOverflow_sign, ← hacc] at hV
  rw [← hacc] at hZN
  exact ⟨t, ht, by rw [hacc, sbcBin_toInt], hhigh, hC, hV, hZN, hmem, hreads⟩

/-! ### Decimal mode -/

/-- A number with no more hexadecimal digits than a width has is itself as a word. -/
theorem ofNat_toNat_of_lt_digits {w : Width} {n : Nat} (h : n < 16 ^ digits w) : (BitVec.ofNat 16 n).toNat = n := by
  rw [pow_digits] at h
  exact Nat.mod_eq_of_lt (h.trans_le (width_le w))

/-- A sum of which a carry `q` has been split off: the rest is the remainder, and `q` says that `m` is reached. -/
theorem eq_mod_of_carry {v m q n : Nat} (h : v + m * q = n) (hv : v < m) (hq : q ≤ 1) :
    v = n % m ∧ (q == 1) = decide (m ≤ n) := by
  subst h
  rw [Nat.add_mul_mod_self_left, Nat.mod_eq_of_lt hv]
  obtain rfl | rfl := Nat.le_one_iff_eq_zero_or_eq_one.mp hq <;> simp [hv]

/-- A difference to which a borrow `q` has been added: the rest is the remainder, and `q` says that it was negative. -/
theorem eq_emod_of_borrow {v m q : Nat} {d : Int} (h : (v : Int) - m * q = d) (hv : v < m) (hq : q ≤ 1) :
    (v : Int) = d % m ∧ (q == 0) = decide (0 ≤ d) := by
  subst h
  rw [Int.sub_mul_emod_self_left, Int.emod_eq_of_lt (Int.natCast_nonneg v) (Int.ofNat_lt.mpr hv)]
  obtain rfl | rfl := Nat.le_one_iff_eq_zero_or_eq_one.mp hq <;> simp [hv]

/-- AdcDec on valid BCD: the result is valid, and it is the decimal sum modulo 10^k with its carry (40_arith R142, R143). -/
theorem adcDec_spec {w : Width} {a b : Word} (c : Bool) (ha : validBcd w a = true) (hb : validBcd w b = true) :
    let r := adcDec w a b c
    let sum := decimalValue (digits w) a.toNat + decimalValue (digits w) b.toNat + c.toNat
    r.1.toNat < 2 ^ w.bits ∧ validBcd w r.1 = true ∧ decimalValue (digits w) r.1.toNat = sum % 10 ^ digits w ∧
      r.2 = decide (10 ^ digits w ≤ sum) := by
  obtain ⟨hvalid, hsum, hcarry, hlt⟩ := adcDigits_spec (digits w) a.toNat b.toNat c.toNat ha hb c.toNat_le
  dsimp only [adcDec, validBcd]
  rw [ofNat_toNat_of_lt_digits hlt, ← pow_digits]
  exact ⟨hlt, hvalid, eq_mod_of_carry hsum (decimalValue_lt _ _ hvalid) hcarry⟩

/-- SbcDec on valid BCD: the result is valid, and it is the decimal difference modulo 10^k, with C for no borrow
(40_arith R147, R148). -/
theorem sbcDec_spec {w : Width} {a b : Word} (c : Bool) (ha : validBcd w a = true) (hb : validBcd w b = true) :
    let r := sbcDec w a b c
    let diff : Int := (decimalValue (digits w) a.toNat : Int) - decimalValue (digits w) b.toNat - (1 - c.toNat)
    r.1.toNat < 2 ^ w.bits ∧ validBcd w r.1 = true ∧ (decimalValue (digits w) r.1.toNat : Int) = diff % 10 ^ digits w ∧
      r.2 = decide (0 ≤ diff) := by
  obtain ⟨hvalid, hdiff, hborrow, hlt⟩ :=
    sbcDigits_spec (digits w) a.toNat b.toNat (1 - c.toNat) ha hb (Nat.sub_le 1 _)
  rw [Nat.cast_sub c.toNat_le, Nat.cast_one] at hdiff
  dsimp only [sbcDec, validBcd]
  rw [ofNat_toNat_of_lt_digits hlt, ← pow_digits]
  exact ⟨hlt, hvalid, by exact_mod_cast eq_emod_of_borrow (by exact_mod_cast hdiff) (decimalValue_lt _ _ hvalid) hborrow⟩

/-- Settles O25: valid operands are not drawn for, and the digit loop adds the numbers that they stand for. -/
theorem adcDecimal : Obligations.AdcDecimal := by
  intro o s hD ha hb
  obtain ⟨hlt, hvalid, hvalue, hcarry⟩ := adcDec_spec s.P.C ha hb
  obtain ⟨t, ht, hacc, hhigh, hC, hV, hZN, hmem, hreads⟩ := adc_completes o s hlt
    (by rw [hD, adcOut_decimal _ _ ha hb])
  rw [adcOverflow_sign] at hV
  rw [← hacc] at hvalid hvalue hV hZN
  exact ⟨t, ht, hvalid, hvalue, hhigh, hC.trans hcarry, hV, hZN, hmem, hreads⟩

/-- Settles O26: valid operands are not drawn for, and the digit loop subtracts the numbers that they stand for. -/
theorem sbcDecimal : Obligations.SbcDecimal := by
  intro o s hD ha hb
  obtain ⟨hlt, hvalid, hvalue, hcarry⟩ := sbcDec_spec s.P.C ha hb
  obtain ⟨t, ht, hacc, hhigh, hC, hV, hZN, hmem, hreads⟩ := sbc_completes o s hlt
    (by rw [hD, sbcOut_decimal _ _ ha hb])
  rw [sbcOverflow_sign] at hV
  rw [← hacc] at hvalid hvalue hV hZN
  exact ⟨t, ht, hvalid, hvalue, hhigh, hC.trans hcarry, hV, hZN, hmem, hreads⟩

/-! ### Operands that are not BCD -/

/-- Settles O27: both instructions end with the same draws, and the drawn word is cut to the width. -/
theorem invalidBcdIsDrawn : Obligations.InvalidBcdIsDrawn := by
  intro o s hD hinvalid i hi
  have hexec : exec i s = .next (writeAlu (mW s) (drawBcd (mW s) s.draws) (readOperand o (mW s) s).2) := by
    simp only [List.mem_cons, List.not_mem_nil, or_false] at hi
    obtain rfl | rfl := hi
    · simp only [exec, execAdc, hD, adcOut_invalid _ _ hinvalid]
    · simp only [exec, execSbc, hD, sbcOut_invalid _ _ hinvalid]
  obtain ⟨hacc, hhigh, hC, hV, hZN, hdraws, hmem, hreads⟩ :=
    writeAlu_spec (mW s) (drawBcd (mW s) s.draws) s _ (readOperand_busOnly o _ s)
  have hresult : acc (mW s) _ = (drawBcd (mW s) s.draws).result := hacc.trans (truncTo_truncTo _ _)
  rw [← hresult] at hZN
  exact ⟨_, hexec, by rw [hresult]; exact truncTo_toNat _ _, hC, hV, hdraws, hZN, hhigh, hmem, hreads⟩

/-! ### Subtraction undoes addition -/

/-- Numbers of k digits that stand for the same decimal number are equal (40_arith R143). -/
theorem decimalValue_inj {k a b : Nat} (ha : decimalDigits k a = true) (hb : decimalDigits k b = true)
    (ha' : a < 16 ^ k) (hb' : b < 16 ^ k) (h : decimalValue k a = decimalValue k b) : a = b := by
  induction k generalizing a b with
  | zero => omega
  | succ k ih =>
    obtain ⟨ha0, ha⟩ := (decimalDigits_succ k a).mp ha
    obtain ⟨hb0, hb⟩ := (decimalDigits_succ k b).mp hb
    simp only [decimalValue] at h
    have hrest : a / 16 = b / 16 := ih ha hb (by omega) (by omega) (by omega)
    omega

/-- Settles O28: the difference stands for the number of `a`, and no other valid value of the width does. -/
theorem bcdRoundTrip : Obligations.BcdRoundTrip := by
  intro w a b hltA _ ha hb
  obtain ⟨-, hvalidSum, hsum, -⟩ := adcDec_spec false ha hb
  obtain ⟨hlt, hvalid, hdiff, -⟩ := sbcDec_spec true hvalidSum hb
  rw [← pow_digits] at hltA hlt
  have hval : decimalValue (digits w) a.toNat < 10 ^ digits w := decimalValue_lt _ _ ha
  refine BitVec.eq_of_toNat_eq (decimalValue_inj hvalid ha hlt hltA ?_)
  zify at hval hsum ⊢
  calc (decimalValue (digits w) _ : Int)
      = ((decimalValue (digits w) a.toNat + decimalValue (digits w) b.toNat : Int) % 10 ^ digits w
          - decimalValue (digits w) b.toNat) % 10 ^ digits w := by
        rw [hdiff, hsum]; simp
    _ = decimalValue (digits w) a.toNat % 10 ^ digits w := by rw [Int.emod_sub_emod, Int.add_sub_cancel]
    _ = decimalValue (digits w) a.toNat := Int.emod_eq_of_lt (Int.natCast_nonneg _) hval

end Sys2Proof.Machine
end

section
/-! PROOFS. AND, ORA and EOR (spec/41_logical.md R160 to R163). -/

namespace Sys2Proof.Machine

/-- Settles O29: accumulator and operand are values of width w, so each result is one too, and the register holds it whole. -/
theorem logicalResults : Obligations.LogicalResults := by
  intro o s w b Result
  have ha : (acc w s).toNat < 2 ^ w.bits := acc_lt w s
  have hb : b.toNat < 2 ^ w.bits := readOperand_lt o w s
  refine ⟨?and, ?ora, ?eor⟩
  case and => exact ⟨_, rfl, logical_spec (· &&& ·) o s (and_lt w _ b ha)⟩
  case ora => exact ⟨_, rfl, logical_spec (· ||| ·) o s (or_lt w _ b ha hb)⟩
  case eor => exact ⟨_, rfl, logical_spec (· ^^^ ·) o s (xor_lt w _ b ha hb)⟩

end Sys2Proof.Machine
end

section
/-! PROOFS. ASL, LSR, ROL and ROR (spec/42_shift_rotate.md R170 to R174). -/

namespace Sys2Proof.Machine

/-- A shift or rotate at width w that gives the number `n`, which fits the width, and shifts the bit `out` out. -/
def ShiftsTo (w : Width) (r : Word × Bool) (n : Nat) (out : Bool) : Prop :=
  r.1.toNat = n ∧ n < 2 ^ w.bits ∧ r.2 = out

/-! ### The four functions in numbers -/

section
variable {w : Width} {v : Word} (c : Bool) (hv : v.toNat < 2 ^ w.bits)
include hv

/-- ASL doubles, and its carry is the sign (42_shift_rotate R170). -/
theorem aslOut_shiftsTo : ShiftsTo w (aslOut w v c) (2 * v.toNat % 2 ^ w.bits) (signOf w v.toNat) :=
  ⟨aslOut_toNat w v c hv, Nat.mod_lt _ (by positivity), topBit_eq_sign w v⟩

/-- LSR halves, and its carry is the remainder (42_shift_rotate R171). -/
theorem lsrOut_shiftsTo : ShiftsTo w (lsrOut w v c) (v.toNat / 2) (decide (v.toNat % 2 = 1)) :=
  ⟨lsrOut_toNat w v c hv, (Nat.div_le_self _ _).trans_lt hv, bit_zero v⟩

/-- ROL doubles and adds the carry, and its carry is the sign (42_shift_rotate R172). -/
theorem rolOut_shiftsTo : ShiftsTo w (rolOut w v c) ((2 * v.toNat + c.toNat) % 2 ^ w.bits) (signOf w v.toNat) :=
  ⟨rolOut_toNat w v c hv, Nat.mod_lt _ (by positivity), topBit_eq_sign w v⟩

/-- ROR halves and puts the carry in the top bit, and its carry is the remainder (42_shift_rotate R173). -/
theorem rorOut_shiftsTo :
    ShiftsTo w (rorOut w v c) (v.toNat / 2 + c.toNat * 2 ^ (w.bits - 1)) (decide (v.toNat % 2 = 1)) := by
  refine ⟨rorOut_toNat w v c hv, ?_, bit_zero v⟩
  have hc := c.toNat_lt
  cases w <;> simp only [Width.bits] at hv ⊢ <;> omega

end

/-! ### The accumulator and memory -/

section
variable {f : Width → Word → Bool → Word × Bool} {n : Nat} {out : Bool} {s : State}

/-- The accumulator holds a result of its width whole (42_shift_rotate frame). -/
theorem modifyAcc_shift (h : ShiftsTo (mW s) (f (mW s) (acc (mW s) s) s.P.C) n out) :
    let t := modifyWithCarry f .acc s
    (acc (mW s) t).toNat = n ∧ KeepsHigh (mW s) s t ∧ t.P.C = out ∧ FollowsZN (mW s) n t.P ∧ SameMemory s t ∧
      t.cycles = s.cycles + oneUnit ∧
      Reads { s with A := t.A, P := { s.P with N := t.P.N, Z := t.P.Z, C := t.P.C }, cycles := t.cycles } t := by
  obtain ⟨rfl, hlt, rfl⟩ := h
  obtain ⟨hacc, hrest⟩ := modifyAcc_spec f s
  exact ⟨by rw [hacc, truncTo_of_lt _ _ hlt], hrest⟩

/-- Memory holds a result of the width whole (42_shift_rotate frame). -/
theorem modifyMem_shift {m : Mode} (h : ShiftsTo (mW s) (f (mW s) (readMem m (mW s) s).1 s.P.C) n out) :
    let t := modifyWithCarry f (.mem m) s
    let ea := (effectiveAddr m s).1
    memoryValue (mW s) t ea = n ∧ t.P.C = out ∧ FollowsZN (mW s) n t.P ∧ t.cycles = s.cycles + oneUnit ∧
      ModifyRecord (mW s) m s t ∧
      Stores (storedAt (mW s) ea) { s with P := { s.P with N := t.P.N, Z := t.P.Z, C := t.P.C }, cycles := t.cycles } t := by
  obtain ⟨rfl, hlt, rfl⟩ := h
  obtain ⟨hrecord, hvalue, hC, hZN, hcycles, hstores⟩ := modifyMem_spec f m s
  exact ⟨hvalue.trans (Nat.mod_eq_of_lt hlt), hC, hZN, hcycles, hrecord, hstores⟩

end

/-- Settles O30: the accumulator at width w has w bits, so each result does, and the register holds it whole. -/
theorem shiftAccumulator : Obligations.ShiftAccumulator := by
  intro s w v c Result
  have hv : v < 2 ^ w.bits := acc_lt w s
  refine ⟨?asl, ?lsr, ?rol, ?ror⟩
  case asl => exact ⟨_, rfl, modifyAcc_shift (aslOut_shiftsTo s.P.C hv)⟩
  case lsr => exact ⟨_, rfl, modifyAcc_shift (lsrOut_shiftsTo s.P.C hv)⟩
  case rol => exact ⟨_, rfl, modifyAcc_shift (rolOut_shiftsTo s.P.C hv)⟩
  case ror => exact ⟨_, rfl, modifyAcc_shift (rorOut_shiftsTo s.P.C hv)⟩

/-- Settles O31: the value read at width w has w bits, so each result does, and it is stored whole. -/
theorem shiftMemory : Obligations.ShiftMemory := by
  intro m s w ea v c Result
  have hv : v < 2 ^ w.bits := memRead_lt w _ _
  refine ⟨?asl, ?lsr, ?rol, ?ror⟩
  case asl => exact ⟨_, rfl, modifyMem_shift (aslOut_shiftsTo s.P.C hv)⟩
  case lsr => exact ⟨_, rfl, modifyMem_shift (lsrOut_shiftsTo s.P.C hv)⟩
  case rol => exact ⟨_, rfl, modifyMem_shift (rolOut_shiftsTo s.P.C hv)⟩
  case ror => exact ⟨_, rfl, modifyMem_shift (rorOut_shiftsTo s.P.C hv)⟩

end Sys2Proof.Machine
end

section
/-! PROOFS. INC, DEC, INX, INY, DEX and DEY (spec/43_incdec.md R180 to R186). -/

namespace Sys2Proof.Machine

/-! ### A step of the accumulator, of memory and of an index register

`incOut_toNat` and `decOut_toNat` give a step as a number modulo 2^w; each lemma here takes it in that form. -/

section
variable {f : Width → Word → Word} {n : Nat} {s : State}

theorem toNat_lt_of_eq_mod {w : Width} {r : Word} (h : r.toNat = n % 2 ^ w.bits) : r.toNat < 2 ^ w.bits :=
  h.trans_lt (Nat.mod_lt n (Nat.two_pow_pos _))

/-- The accumulator holds a result modulo 2^w whole (43_incdec frame). -/
theorem modifyStepAcc_mod (h : (f (mW s) (acc (mW s) s)).toNat = n % 2 ^ (mW s).bits) :
    let t := modifyStep f .acc s
    let r := n % 2 ^ (mW s).bits
    (acc (mW s) t).toNat = r ∧ KeepsHigh (mW s) s t ∧
      (FollowsZN (mW s) r t.P ∧ t.cycles = s.cycles + oneUnit ∧
        t.waitAddress = if Config.cpuShutdown then none else s.waitAddress) ∧
      SameMemory s t ∧
      Reads { s with A := t.A, P := { s.P with N := t.P.N, Z := t.P.Z }, cycles := t.cycles, waitAddress := t.waitAddress }
        t := by
  obtain ⟨hacc, hhigh, hZN, hcycles, hwait, hmem, hreads⟩ := modifyStepAcc_spec f s (toNat_lt_of_eq_mod h)
  rw [h] at hZN
  exact ⟨(congrArg BitVec.toNat hacc).trans h, hhigh, ⟨hZN, hcycles, hwait⟩, hmem, hreads⟩

/-- Memory holds a result modulo 2^w whole (43_incdec frame). -/
theorem modifyStepMem_mod {m : Mode} (h : (f (mW s) (readMem m (mW s) s).1).toNat = n % 2 ^ (mW s).bits) :
    let t := modifyStep f (.mem m) s
    let r := n % 2 ^ (mW s).bits
    let ea := (effectiveAddr m s).1
    memoryValue (mW s) t ea = r ∧
      (FollowsZN (mW s) r t.P ∧ t.cycles = s.cycles + oneUnit ∧
        t.waitAddress = if Config.cpuShutdown then none else s.waitAddress) ∧
      ModifyRecord (mW s) m s t ∧
      Stores (storedAt (mW s) ea)
        { s with P := { s.P with N := t.P.N, Z := t.P.Z }, cycles := t.cycles, waitAddress := t.waitAddress } t := by
  obtain ⟨hrecord, hvalue, hZN, hcycles, hwait, hstores⟩ := modifyStepMem_spec f m s
  rw [h] at hvalue hZN
  exact ⟨hvalue.trans (Nat.mod_mod _ _), ⟨hZN, hcycles, hwait⟩, hrecord, hstores⟩

variable {w : Width} {r : Word} (h : r.toNat = n % 2 ^ w.bits)
include h

/-- X holds a result modulo 2^w, and the wait address is cleared by the parameters (43_incdec R182, R184). -/
theorem stepX_mod :
    let t := clearWaitIndex (setZN w r (setX w r s))
    t.X.toNat = n % 2 ^ w.bits ∧
      (FollowsZN w (n % 2 ^ w.bits) t.P ∧ SameMemory s t ∧
        t.waitAddress = if Config.cpuShutdown && Config.idxIncDecClearsWait then none else s.waitAddress) ∧
      Reads { s with X := t.X, P := { s.P with N := t.P.N, Z := t.P.Z }, waitAddress := t.waitAddress } t := by
  obtain ⟨hX, hZN, hmem, -⟩ := xResult_spec w r s s (BusOnly.refl s) (toNat_lt_of_eq_mod h)
  rw [h] at hZN
  exact ⟨(congrArg BitVec.toNat hX).trans h, ⟨hZN, hmem, rfl⟩, rfl⟩

/-- Y holds a result modulo 2^w, and the wait address is cleared by the parameters (43_incdec R183, R185). -/
theorem stepY_mod :
    let t := clearWaitIndex (setZN w r (setY w r s))
    t.Y.toNat = n % 2 ^ w.bits ∧
      (FollowsZN w (n % 2 ^ w.bits) t.P ∧ SameMemory s t ∧
        t.waitAddress = if Config.cpuShutdown && Config.idxIncDecClearsWait then none else s.waitAddress) ∧
      Reads { s with Y := t.Y, P := { s.P with N := t.P.N, Z := t.P.Z }, waitAddress := t.waitAddress } t := by
  obtain ⟨hY, hZN, hmem, -⟩ := yResult_spec w r s s (BusOnly.refl s) (toNat_lt_of_eq_mod h)
  rw [h] at hZN
  exact ⟨(congrArg BitVec.toNat hY).trans h, ⟨hZN, hmem, rfl⟩, rfl⟩

end

/-- Settles O32: each function gives its value modulo 2^w, so the accumulator or the place in memory holds it whole. -/
theorem incDecResults : Obligations.IncDecResults := by
  intro m s w ea a v up down Side InAcc InMemory
  refine ⟨?incAcc, ?decAcc, ?incMem, ?decMem⟩
  case incAcc => exact ⟨_, rfl, modifyStepAcc_mod (incOut_toNat w (acc w s))⟩
  case decAcc => exact ⟨_, rfl, modifyStepAcc_mod (decOut_toNat w (acc w s))⟩
  case incMem => exact ⟨_, rfl, modifyStepMem_mod (incOut_toNat w (readMem m w s).1)⟩
  case decMem => exact ⟨_, rfl, modifyStepMem_mod (decOut_toNat w (readMem m w s).1)⟩

/-- Settles O33: each function gives its value modulo 2^w, so the register holds it whole, with high byte 0x00 at width 8. -/
theorem indexIncDecResults : Obligations.IndexIncDecResults := by
  intro s w x y up down Side InX InY
  refine ⟨?inx, ?iny, ?dex, ?dey⟩
  case inx => exact ⟨_, rfl, stepX_mod (incOut_toNat w (xr w s))⟩
  case iny => exact ⟨_, rfl, stepY_mod (incOut_toNat w (yr w s))⟩
  case dex => exact ⟨_, rfl, stepX_mod (decOut_toNat w (xr w s))⟩
  case dey => exact ⟨_, rfl, stepY_mod (decOut_toNat w (yr w s))⟩

end Sys2Proof.Machine
end

section
/-! PROOFS. CMP, CPX and CPY (spec/45_compare.md R210 to R213). -/

namespace Sys2Proof.Machine

section
variable {w : Width} {g b : Word}

/-- The wrapped difference as a number modulo 2^w (00_scope R8). -/
theorem wrapInt_sub_toNat (hb : b.toNat < 2 ^ w.bits) :
    (wrapInt w ((g.toNat : Int) - b.toNat)).toNat = (g.toNat + 2 ^ w.bits - b.toNat) % 2 ^ w.bits := by
  zify [show b.toNat ≤ g.toNat + 2 ^ w.bits by omega]
  rw [wrapInt_toNat, Nat.cast_pow, Nat.cast_ofNat, add_sub_right_comm, Int.add_emod_right]

/-- The difference of two numbers below `m` is 0 modulo `m` exactly when they are equal. -/
theorem add_sub_mod_eq_zero_iff {a c m : Nat} (ha : a < m) (hc : c < m) : (a + m - c) % m = 0 ↔ a = c := by
  rw [← Nat.dvd_iff_mod_eq_zero, ← Nat.modEq_iff_dvd' (by omega), Nat.ModEq, Nat.add_mod_right,
    Nat.mod_eq_of_lt ha, Nat.mod_eq_of_lt hc, eq_comm]

/-- A comparison of two values of width w after a read: C, Z and N in numbers, and nothing else changes (45_compare R213). -/
theorem compare_spec {s u : State} (h : BusOnly s u) (hg : g.toNat < 2 ^ w.bits) (hb : b.toNat < 2 ^ w.bits) :
    let t := compare w g b u
    t.P.C = decide (b.toNat ≤ g.toNat) ∧ t.P.Z = decide (g.toNat = b.toNat) ∧
      t.P.N = signOf w (g.toNat + 2 ^ w.bits - b.toNat) ∧ SameMemory s t ∧
      Reads { s with P := { s.P with N := t.P.N, Z := t.P.Z, C := t.P.C } } t := by
  obtain ⟨hZ, hN⟩ : FollowsZN w (g.toNat + 2 ^ w.bits - b.toNat) (compare w g b u).P := by
    rw [← followsZN_mod, ← wrapInt_sub_toNat hb]
    exact setZN_follows w _ _
  have hC : (compare w g b u).P.C = decide (b.toNat ≤ g.toNat) := decide_eq_decide.mpr (by omega)
  have hmem : u.mem = s.mem := by rw [h]
  rw [decide_eq_decide.mpr (add_sub_mod_eq_zero_iff hg hb)] at hZ
  exact ⟨hC, hZ, hN, byteAt_congr hmem, compare_reads w g b s u h⟩

end

/-- Settles O36: register and operand are values of width w, so their difference wraps to 0 only when they are equal. -/
theorem compareResults : Obligations.CompareResults := by
  intro o s Result
  refine ⟨?cmp, ?cpx, ?cpy⟩
  case cmp => exact ⟨_, rfl, compare_spec (readOperand_busOnly o _ s) (acc_lt _ s) (readOperand_lt o _ s)⟩
  case cpx => exact ⟨_, rfl, compare_spec (readOperand_busOnly o _ s) (truncTo_lt _ s.X) (readOperand_lt o _ s)⟩
  case cpy => exact ⟨_, rfl, compare_spec (readOperand_busOnly o _ s) (truncTo_lt _ s.Y) (readOperand_lt o _ s)⟩

end Sys2Proof.Machine
end

section
/-! PROOFS. BIT, BIT #, TSB and TRB (spec/46_bit_test.md R220 to R223). -/

namespace Sys2Proof.Machine

/-! ### The bits that BIT copies -/

theorem topBit_eq_getLsbD (w : Width) (v : Word) : topBit w v = v.getLsbD (w.bits - 1) := by cases w <;> rfl

theorem secondBit_eq_getLsbD (w : Width) (v : Word) : secondBit w v = v.getLsbD (w.bits - 2) := by cases w <;> rfl

/-- After a read, a change of N, V and Z changes nothing else (46_bit_test R220). -/
theorem BusOnly.setNVZ {s u : State} (h : BusOnly s u) (n v z : Bool) :
    Reads { s with P := { s.P with N := n, V := v, Z := z } } { u with P := { u.P with N := n, V := v, Z := z } } := by
  obtain ⟨answers, events, rfl⟩ := busOnly_fields h
  rfl

/-- Settles O37: BIT in memory reads, and then writes N, V and Z alone; the immediate form makes no read. -/
theorem bitResults : Obligations.BitResults := by
  intro m v s w b
  refine ⟨?memory, ?immediate⟩
  case memory =>
    exact ⟨_, rfl, Bool.beq_eq_decide_eq _ _, topBit_eq_getLsbD w b, secondBit_eq_getLsbD w b,
      byteAt_congr (readMem_mem m w s), (readMem_busOnly m w s).setNVZ _ _ _⟩
  case immediate => exact ⟨_, rfl, Bool.beq_eq_decide_eq _ _, fun _ => rfl, rfl⟩

/-! ### TSB and TRB -/

/-- Memory holds a result of the width whole (46_bit_test R222, R223). -/
theorem testModify_spec_of_lt {f : Word → Word → Word} {m : Mode} {s : State}
    (h : (f (readMem m (mW s) s).1 (acc (mW s) s)).toNat < 2 ^ (mW s).bits) :
    let v := (readMem m (mW s) s).1
    let ea := (effectiveAddr m s).1
    let t := testModify f m s
    t.P.Z = decide (acc (mW s) s &&& v = 0) ∧ memoryValue (mW s) t ea = (f v (acc (mW s) s)).toNat ∧
      t.cycles = s.cycles + oneUnit ∧ ModifyRecord (mW s) m s t ∧
      Stores (storedAt (mW s) ea) { s with P := { s.P with Z := t.P.Z }, cycles := t.cycles } t := by
  obtain ⟨hrecord, hZ, hvalue, hcycles, hstores⟩ := testModify_spec f m s
  exact ⟨hZ, hvalue.trans (Nat.mod_eq_of_lt h), hcycles, hrecord, hstores⟩

/-- Settles O38: memory value and accumulator are values of width w, so setting or clearing bits gives one too, and it is stored
whole. -/
theorem testAndModifyResults : Obligations.TestAndModifyResults := by
  intro m s w ea v a Result
  have hv : v.toNat < 2 ^ w.bits := memRead_lt w _ _
  refine ⟨?tsb, ?trb⟩
  case tsb => exact ⟨_, rfl, testModify_spec_of_lt (or_lt w v a hv (acc_lt w s))⟩
  case trb => exact ⟨_, rfl, testModify_spec_of_lt (and_lt w v (~~~a) hv)⟩

end Sys2Proof.Machine
end

section
/-! PROOFS. The branches, calls and returns (spec/47_control.md R230 to R240, R246 to R250, spec/30_encoding.md R110, R113,
spec/20_memory.md R74, R75). -/

namespace Sys2Proof.Machine

/-! ### Branches -/

/-- The PC of a relative branch, in numbers (47_control R230). -/
theorem branchIf_toInt (cond : Bool) (r8 : Byte) (s : State) :
    ((branchIf cond r8 s).PC.toNat : Int) = if cond then ((s.PC.toNat : Int) + r8.toInt) % 65536 else s.PC.toNat := by
  cases cond
  · rfl
  · exact target8_toInt r8 s

/-- Settles O39: the nine short branches share one frame, and BRL adds its displacement without a condition. -/
theorem branchResults : Obligations.BranchResults := by
  intro r8 r16 s Goes
  have hshort (cond : Bool) : Goes cond r8.toInt (branchIf cond r8 s) := ⟨branchIf_toInt cond r8 s, fun _ => rfl, rfl⟩
  have hlong : Goes true r16.toInt { s with PC := target16 r16 s } := ⟨target16_toInt r16 s, fun _ => rfl, rfl⟩
  exact ⟨⟨_, rfl, hshort _⟩, ⟨_, rfl, hshort _⟩, ⟨_, rfl, hshort _⟩, ⟨_, rfl, hshort _⟩, ⟨_, rfl, hshort _⟩,
    ⟨_, rfl, hshort _⟩, ⟨_, rfl, hshort _⟩, ⟨_, rfl, hshort _⟩, ⟨_, rfl, hshort _⟩, ⟨_, rfl, hlong⟩⟩

/-! ### Calls -/

/-- A jump after stores changes PC alone. -/
theorem Stores.jump {stored : List Addr} {s u : State} (h : Stores stored s u) (pc : Word) :
    Stores stored { s with PC := pc } { u with PC := pc } := by
  obtain ⟨hframe, hother⟩ := h
  exact ⟨by rw [hframe], hother⟩

/-- A long jump after stores changes PBR and PC alone. -/
theorem Stores.jumpLong {stored : List Addr} {s u : State} (h : Stores stored s u) (bank : Byte) (pc : Word) :
    Stores stored { s with PBR := bank, PC := pc } { u with PBR := bank, PC := pc } := by
  obtain ⟨hframe, hother⟩ := h
  exact ⟨by rw [hframe], hother⟩

/-- A read after stores changes the answers and the record alone. -/
theorem Stores.thenRead {stored : List Addr} {s u v : State} (h : Stores stored s u) (hread : BusOnly u v) :
    Stores stored s v := by
  obtain ⟨answers, events, rfl⟩ := busOnly_fields hread
  obtain ⟨hframe, hother⟩ := h
  exact ⟨by rw [hframe], hother⟩

/-- Whether bytes are pushed is a question of memory alone. -/
theorem Pushed.congr {rule : StackRule} {bytes : List Byte} {s u v : State} (h : Pushed rule bytes s u)
    (hmem : v.mem = u.mem) : Pushed rule bytes s v := by
  have hbytes : byteAt v = byteAt u := funext (byteAt_congr hmem)
  rwa [Pushed, hbytes]

/-- The pointer of `(a,X)` after stores, its bytes at the places that their numbers give (30_encoding R113, 47_control R247). -/
theorem absPointerX_val (a : Word) {s u : State} (hPBR : u.PBR = s.PBR) (hX : u.X = s.X) (hanswers : u.answers = s.answers) :
    let byte := fun k : Nat =>
      busValue (BitVec.ofNat 24 (s.PBR.toNat * 65536 + (a.toNat + s.X.toNat + k) % 65536)) { s with mem := u.mem }
    (absPointerX a u).1 = mkWord (byte 1) (byte 0) := by
  intro byte
  have hlo : mkAddr s.PBR (a + s.X) = BitVec.ofNat 24 (s.PBR.toNat * 65536 + (a.toNat + s.X.toNat + 0) % 65536) :=
    bank_ofNat _ _ _ (BitVec.toNat_add a s.X)
  have hhi : mkAddr s.PBR (a + s.X + 1) = BitVec.ofNat 24 (s.PBR.toNat * 65536 + (a.toNat + s.X.toNat + 1) % 65536) :=
    bank_ofNat _ _ _ (by rw [toNat_add_one, BitVec.toNat_add, Nat.mod_add_mod])
  have hbus (x : Addr) : busValue x u = busValue x { s with mem := u.mem } := busValue_congr x rfl hanswers
  calc (absPointerX a u).1
    _ = mkWord (busValue (mkAddr u.PBR (a + u.X + 1)) u) (busValue (mkAddr u.PBR (a + u.X)) u) :=
        readPointer16_val _ _ u (mkAddr_ne _ _ _ (word_add_one_ne _))
    _ = mkWord (byte 1) (byte 0) := by rw [hPBR, hX, hlo, hhi, hbus, hbus]

/-- Settles O41: each call pushes the bytes of the return address, and what follows the push (the end of the wide stack rule,
the pointer read, the jump) leaves memory as the push left it. -/
theorem callResults : Obligations.CallResults := by
  intro a al s ret two q
  refine ⟨?jsrAbs, ?jsrIndX, ?jsl⟩
  case jsrAbs =>
    obtain ⟨hpushed, hS, hstores⟩ := pushBytes_spec .legacy two s (by simp [two])
    exact ⟨_, rfl, hpushed.congr rfl, hS, rfl, hstores.jump a⟩
  case jsrIndX =>
    obtain ⟨hpushed, hS, hstores⟩ := settledPush_spec two s (by simp [two])
    have hanswers : (settleStack (pushBytes .wide two s)).answers = s.answers := pushBytes_answers .wide two s
    have hcall : exec (.jsrIndX a) s = .next { (absPointerX a (settleStack (pushBytes .wide two s))).2 with
        PC := (absPointerX a (settleStack (pushBytes .wide two s))).1 } := rfl
    generalize settleStack (pushBytes .wide two s) = u at *
    have hPBR : u.PBR = s.PBR := by rw [hstores.1]
    have hX : u.X = s.X := by rw [hstores.1]
    exact ⟨_, hcall, hpushed.congr rfl, hS, absPointerX_val a hPBR hX hanswers,
      (hstores.thenRead (absPointerX_busOnly a u)).jump _⟩
  case jsl =>
    obtain ⟨hpushed, hS, hstores⟩ := settledPush_spec (s.PBR :: two) s (by simp [two])
    have hcall : exec (.jsl al) s = .next { settleStack (pushBytes .wide (s.PBR :: two) s) with
        PBR := bankOf al, PC := offsetOf al } := rfl
    generalize settleStack (pushBytes .wide (s.PBR :: two) s) = u at *
    exact ⟨_, hcall, hpushed.congr rfl, hS, rfl, rfl, hstores.jumpLong (bankOf al) (offsetOf al)⟩

/-! ### Returns -/

/-- RTS as two pulls of the legacy rule (47_control R249). -/
theorem exec_rts (s : State) : ∃ lo hi, (pullBytes .legacy 2 s).1 = [lo, hi] ∧
    exec .rts s = .next { (pullBytes .legacy 2 s).2 with PC := mkWord hi lo + 1 } := ⟨_, _, rfl, rfl⟩

/-- RTL as three pulls of the wide rule (47_control R250). -/
theorem exec_rtl (s : State) : ∃ lo hi bank, (pullBytes .wide 3 s).1 = [lo, hi, bank] ∧
    exec .rtl s = .next { settleStack (pullBytes .wide 3 s).2 with PC := mkWord hi lo + 1, PBR := bank } :=
  ⟨_, _, _, rfl, rfl⟩

/-- Settles O42: the pulled bytes are those of the pull slots, and pulls change S, the answers and the record alone. -/
theorem returnResults : Obligations.ReturnResults := by
  intro s
  refine ⟨?rts, ?rtl⟩
  case rts =>
    obtain ⟨lo, hi, hbytes, hreturn⟩ := exec_rts s
    obtain ⟨hpulled, answers, events, hstate⟩ := pullBytes_spec .legacy 2 s (by decide)
    rw [hstate] at hreturn
    exact ⟨_, hreturn, ⟨lo, hi, hpulled.symm.trans hbytes, rfl⟩, rfl, fun _ => rfl, rfl⟩
  case rtl =>
    obtain ⟨lo, hi, bank, hbytes, hreturn⟩ := exec_rtl s
    obtain ⟨hpulled, answers, events, hstate⟩ := pullBytes_spec .wide 3 s (by decide)
    rw [hstate] at hreturn
    exact ⟨_, hreturn, ⟨lo, hi, bank, hpulled.symm.trans hbytes, rfl, rfl⟩, rfl, fun _ => rfl, rfl⟩

/-! ### A return after a call -/

/-- From a legal S, a step up undoes a step down (20_memory R74). -/
theorem incS_of_decS {s t : State} (hlegal : s.E = true → highByte s.S = 0x01) (hE : t.E = s.E)
    (hS : t.S = decS .legacy s) : incS .legacy t = s.S := by
  cases hmode : s.E with
  | false => rw [incS_native .legacy t (hE.trans hmode), hS, decS_native .legacy s hmode, BitVec.sub_add_cancel]
  | true =>
    calc incS .legacy t
      _ = mkWord 0x01 (lowByte t.S + 1) := incS_legacy (hE.trans hmode)
      _ = mkWord (highByte s.S) (lowByte s.S) := by rw [hS, decS_low, BitVec.sub_add_cancel, hlegal hmode]
      _ = s.S := mkWord_bytes s.S

/-- The last push steps S down from where the pushes before it left it. -/
theorem pushEnd_succ (r : StackRule) (n : Nat) (s : State) :
    pushEnd r (n + 1) s = decS r { s with S := pushEnd r n s } := by
  induction n generalizing s with
  | zero => rfl
  | succ n ih => exact ih { s with S := decS r s }

/-- The last push stores where the pushes before it left S. -/
theorem pushSlots_succ (r : StackRule) (n : Nat) (s : State) :
    pushSlots r (n + 1) s = pushSlots r n s ++ [mkAddr 0x00 (pushEnd r n s)] := by
  induction n generalizing s with
  | zero => rfl
  | succ n ih => exact congrArg _ (ih { s with S := decS r s })

/-- From a legal S, as many pulls as pushes read the pushed places in the opposite order, and end at the first S
(20_memory R74). -/
theorem pull_after_push {n : Nat} {s t : State} (hlegal : s.E = true → highByte s.S = 0x01) (hE : t.E = s.E)
    (hS : t.S = pushEnd .legacy n s) :
    pullSlots .legacy n t = (pushSlots .legacy n s).reverse ∧ pullEnd .legacy n t = s.S := by
  induction n generalizing t with
  | zero => exact ⟨rfl, hS⟩
  | succ n ih =>
    have hinc : incS .legacy t = pushEnd .legacy n s :=
      incS_of_decS (s := { s with S := pushEnd .legacy n s }) (fun h => pushEnd_high n s h (hlegal h)) hE
        (hS.trans (pushEnd_succ .legacy n s))
    obtain ⟨hslots, hend⟩ := ih (t := { t with S := incS .legacy t }) hE hinc
    refine ⟨?_, hend⟩
    rw [pullSlots, hslots, hinc, pushSlots_succ, List.reverse_append]
    rfl

/-- The push of JSR uses up none of the platform's answers (47_control R246). -/
theorem exec_jsrAbs_answers {a : Word} {s t : State} (h : exec (.jsrAbs a) s = .next t) : t.answers = s.answers := by
  obtain rfl := Host.Outcome.next.inj h
  exact pushBytes_answers .legacy [highByte (s.PC - 1), lowByte (s.PC - 1)] s

/-- Settles O43: RTS pulls the two bytes that JSR pushed, the last one first, so PC is the return address plus 1. -/
theorem returnAfterCall : Obligations.ReturnAfterCall := by
  intro a s t hanswers hlegal hcall
  obtain ⟨_, hcall', ⟨hbytes, -⟩, hS, -, hframe, -⟩ := (callResults a 0 s).1
  obtain rfl := Host.Outcome.next.inj (hcall.symm.trans hcall')
  obtain ⟨u, hreturn, ⟨lo, hi, hpulled, hPC⟩, hSu, -, hreads⟩ := (returnResults t).1
  obtain ⟨hslots, hend⟩ := pull_after_push (n := 2) hlegal (by rw [hframe]) hS
  have hmemory : (fun x => busValue x t) = byteAt t :=
    funext (busValue_eq_byteAt ((exec_jsrAbs_answers hcall).trans hanswers))
  have hlist : [lo, hi] = [lowByte (s.PC - 1), highByte (s.PC - 1)] :=
    calc [lo, hi]
      _ = (pullSlots .legacy 2 t).map (byteAt t) := by rw [← hpulled, hmemory]
      _ = ((pushSlots .legacy 2 s).map (byteAt t)).reverse := by rw [hslots, List.map_reverse]
      _ = [lowByte (s.PC - 1), highByte (s.PC - 1)] := congrArg List.reverse hbytes
  obtain ⟨rfl, rfl⟩ : lo = lowByte (s.PC - 1) ∧ hi = highByte (s.PC - 1) := by simpa using hlist
  refine ⟨u, hreturn, ?_, hSu.trans hend, ?_⟩
  · rw [hPC, mkWord_bytes, BitVec.sub_add_cancel]
  · rw [hreads, hframe]
    exact ⟨rfl, rfl, rfl, rfl, rfl⟩

end Sys2Proof.Machine
end

section
/-! PROOFS. The pushes and the pulls (spec/48_stack_transfer.md R260 to R275, spec/20_memory.md R74, R75). -/

namespace Sys2Proof.Machine

/-! ### Pushes -/

/-- A push at a width, everything it does: the bytes, the high one first, S and the frame (48_stack_transfer R260). -/
theorem pushW_spec (w : Width) (v : Word) (s : State) :
    let bytes := if w = .w8 then [lowByte v] else [highByte v, lowByte v]
    let t := pushW w v s
    Pushed .legacy bytes s t ∧ t.S = pushEnd .legacy bytes.length s ∧
      Stores (pushSlots .legacy bytes.length s) { s with S := t.S } t := by
  cases w with
  | w8 => exact pushBytes_spec .legacy [lowByte v] s (by simp)
  | w16 => exact pushBytes_spec .legacy [highByte v, lowByte v] s (by simp)

/-- Settles O44: three pushes have the width of a register, and three push one byte. -/
theorem pushResults : Obligations.PushResults := by
  intro s Pushes bytesOf
  have hbyte (v : Byte) : Pushes [v] (push8 .legacy v s) := pushBytes_spec .legacy [v] s (by simp)
  exact ⟨⟨_, rfl, pushW_spec (mW s) s.A s⟩, ⟨_, rfl, pushW_spec (xW s) s.X s⟩, ⟨_, rfl, pushW_spec (xW s) s.Y s⟩,
    ⟨_, rfl, hbyte _⟩, ⟨_, rfl, hbyte _⟩, ⟨_, rfl, hbyte _⟩⟩

/-- A push of 16 bits by the wide rule after a read, with the end of the instruction: the read leaves memory and S alone
(48_stack_transfer R266 to R269). -/
theorem settledPush16_spec {s u : State} (h : BusOnly s u) (x : Word) :
    let t := settleStack (push16 .wide x u)
    Pushed .wide [highByte x, lowByte x] s t ∧ t.S = settled s (pushEnd .wide 2 s) ∧
      Stores (pushSlots .wide 2 s) { s with S := t.S } t := by
  obtain ⟨answers, events, rfl⟩ := busOnly_fields h
  exact settledPush_spec [highByte x, lowByte x] { s with answers := answers, events := events } (by simp)

/-- Settles O45: each pushes its word by the wide rule; PEI reads the word first, at two different places. -/
theorem widePushResults : Obligations.WidePushResults := by
  intro v d s Pushes
  refine ⟨⟨_, rfl, settledPush16_spec (.refl s) _⟩, ⟨_, rfl, settledPush16_spec (.refl s) _⟩, ?pei,
    ⟨_, rfl, settledPush16_spec (.refl s) _⟩⟩
  case pei =>
    rw [← readPointer16_val _ _ s (directAddr_succ_ne d.toNat false s)]
    exact ⟨_, rfl, settledPush16_spec (readPointer16_busOnly _ _ s) _⟩

/-! ### Pulls -/

/-- The bytes that the pulls of width w read, low byte first, are those of `v` (48_stack_transfer R270). -/
def PulledValue (w : Width) (s : State) (v : Word) : Prop :=
  (pullSlots .legacy (w.bits / 8) s).map (fun a => busValue a s) =
    if w = .w8 then [lowByte v] else [lowByte v, highByte v]

/-- At width 8 the pulled byte says nothing of a register's high byte. -/
theorem pulledValue_truncTo {w : Width} {s : State} {v : Word} : PulledValue w s (truncTo w v) ↔ PulledValue w s v := by
  cases w with
  | w8 => simp [PulledValue, truncTo]
  | w16 => rfl

/-- One pull reads the byte that `pull8` gives. -/
theorem pullSlots_map_one (r : StackRule) (s : State) :
    (pullSlots r 1 s).map (fun a => busValue a s) = [(pull8 r s).1] :=
  (pullBytes_val r 1 s (by decide)).symm

/-- Two pulls read the bytes of the word that `pull16` gives, low byte first. -/
theorem pullSlots_map_two (r : StackRule) (s : State) :
    (pullSlots r 2 s).map (fun a => busValue a s) = [lowByte (pull16 r s).1, highByte (pull16 r s).1] := by
  rw [pull16, lowByte_mkWord, highByte_mkWord]
  exact (pullBytes_val r 2 s (by decide)).symm

/-- A pull at a width: the value, which fits the width, and the state after it (48_stack_transfer R270). -/
theorem pullW_spec (w : Width) (s : State) :
    PulledValue w s (pullW w s).1 ∧ (pullW w s).1.toNat < 2 ^ w.bits ∧
      BusOnly { s with S := pullEnd .legacy (w.bits / 8) s } (pullW w s).2 := by
  cases w with
  | w8 =>
    refine ⟨?_, (zext_toNat _).trans_lt (pull8 .legacy s).1.isLt, rfl⟩
    rw [PulledValue, pullW, lowByte_zext]
    exact pullSlots_map_one .legacy s
  | w16 => exact ⟨pullSlots_map_two .legacy s, (pull16 .legacy s).1.isLt, rfl⟩

/-- A value below 2^8 has the high byte 0x00. -/
theorem highByte_of_lt {w : Width} {v : Word} (h : v.toNat < 2 ^ w.bits) (hw : w = .w8) : highByte v = 0x00 := by
  subst hw
  rw [← truncTo_of_lt .w8 v h]
  exact highByte_zext _

/-- The flags of the accumulator at a width are those of the whole accumulator at that width. -/
theorem followsZN_acc {w : Width} {s : State} {p : Status} : FollowsZN w (acc w s).toNat p ↔ FollowsZN w s.A.toNat p := by
  rw [acc, truncTo_toNat, followsZN_mod]

/-- Settles O46: the register is written at the width of the pull, so it holds the pulled value; the pull changes S alone,
but for the answers and the record. -/
theorem pullResults : Obligations.PullResults := by
  intro s IsPulled
  obtain ⟨hm, hmlt, hmbus⟩ := pullW_spec (mW s) s
  obtain ⟨hx, hxlt, hxbus⟩ := pullW_spec (xW s) s
  obtain ⟨answers, events, hstate⟩ := busOnly_fields hxbus
  refine ⟨⟨_, rfl, ?pla⟩, ⟨_, rfl, ?plx⟩, ⟨_, rfl, ?ply⟩⟩
  case pla =>
    obtain ⟨hA, hhigh, hZN, hmem, hreads⟩ := accResult_spec _ _ _ _ hmbus hmlt
    generalize setZN _ _ _ = t at *
    rw [← hA] at hm hZN
    have hS := congrArg State.S hreads
    refine ⟨pulledValue_truncTo.mp hm, hhigh, followsZN_acc.mp hZN, hS, hmem, ?_⟩
    rw [hS]; exact hreads
  case plx =>
    rw [hstate, setX, truncTo_of_lt _ _ hxlt]
    exact ⟨hx, highByte_of_lt hxlt, setZN_follows _ _ _, rfl, fun _ => rfl, rfl⟩
  case ply =>
    rw [hstate, setY, truncTo_of_lt _ _ hxlt]
    exact ⟨hx, highByte_of_lt hxlt, setZN_follows _ _ _, rfl, fun _ => rfl, rfl⟩

/-- Settles O47: PLB pulls one byte and PLD two, each with flags of its own width. -/
theorem pullBankAndDirect : Obligations.PullBankAndDirect := by
  intro s
  refine ⟨⟨_, rfl, ?plb⟩, ⟨_, rfl, ?pld⟩⟩
  case plb =>
    have hZN := setZN_follows .w8 (zext (pull8 .legacy s).1) { (pull8 .legacy s).2 with DBR := (pull8 .legacy s).1 }
    rw [zext_toNat] at hZN
    exact ⟨pullSlots_map_one .legacy s, hZN, rfl, fun _ => rfl, rfl⟩
  case pld =>
    exact ⟨pullSlots_map_two .wide s, setZN_follows .w16 (pull16 .wide s).1 _, rfl, fun _ => rfl, rfl⟩

/-- Settles O48: one byte is pulled, and writing it to P clears the high bytes of the index registers while X = 1. -/
theorem pullStatusResults : Obligations.PullStatusResults := by
  intro s
  refine ⟨_, rfl, ?_⟩
  rw [pullP_eq]
  exact ⟨⟨(pull8 .legacy s).1, pullSlots_map_one .legacy s, rfl⟩, rfl, rfl, rfl, fun _ => rfl, rfl⟩

end Sys2Proof.Machine
end

section
/-! PROOFS. The transfers (spec/48_stack_transfer.md R276 to R288). -/

namespace Sys2Proof.Machine

/-- Writing a value to the accumulator with Z and N writes A, N and Z alone. -/
theorem accResult_frame (w : Width) (v : Word) (s : State) :
    let t := setZN w v (setAcc w v s)
    t = { s with A := t.A, P := { s.P with N := t.P.N, Z := t.P.Z } } := by
  cases w with
  | w8 => rfl
  | w16 => rfl

/-- Settles O49: three destinations, each written at its width with the flags of the source at that width. -/
theorem indexTransferResults : Obligations.IndexTransferResults := by
  intro s ToX ToY ToA
  have hX (v : Word) : ToX v (setZN (xW s) v (setX (xW s) v s)) := ⟨truncTo_toNat _ v, setZN_follows _ v _, rfl⟩
  have hY (v : Word) : ToY v (setZN (xW s) v (setY (xW s) v s)) := ⟨truncTo_toNat _ v, setZN_follows _ v _, rfl⟩
  have hA (v : Word) : ToA v (setZN (mW s) v (setAcc (mW s) v s)) :=
    ⟨(congrArg BitVec.toNat (acc_setAcc _ v s)).trans (truncTo_toNat _ v), setAcc_keepsHigh _ v s,
      setZN_follows _ v _, accResult_frame _ v s⟩
  exact ⟨⟨_, rfl, hX _⟩, ⟨_, rfl, hY _⟩, ⟨_, rfl, hA _⟩, ⟨_, rfl, hA _⟩, ⟨_, rfl, hY _⟩, ⟨_, rfl, hX _⟩, ⟨_, rfl, hX _⟩⟩

/-- Settles O50: S is written by the rule of the mode; the others copy 16 bits, and XBA exchanges the bytes of A. -/
theorem wordTransferResults : Obligations.WordTransferResults := by
  intro s stack
  refine ⟨?txs, ?tcs, ?tsc, ?tcd, ?tdc, ?xba⟩
  case txs => exact ⟨_, rfl, setS_toNat s.X s, rfl⟩
  case tcs => exact ⟨_, rfl, setS_toNat s.A s, rfl⟩
  case tsc => exact ⟨_, rfl, rfl, setZN_follows .w16 s.S _, rfl⟩
  case tcd => exact ⟨_, rfl, rfl, setZN_follows .w16 s.A _, rfl⟩
  case tdc => exact ⟨_, rfl, rfl, setZN_follows .w16 s.D _, rfl⟩
  case xba =>
    have hlow : (mkWord (lowByte s.A) (highByte s.A)).toNat % 256 = (highByte s.A).toNat := by
      rw [← lowByte_toNat, lowByte_mkWord]
    refine ⟨_, rfl, lowByte_mkWord _ _, highByte_mkWord _ _, ?_, rfl⟩
    rw [← hlow]
    exact (followsZN_mod .w8 _ _).mpr (setZN_follows .w8 _ _)

end Sys2Proof.Machine
end

section
/-! PROOFS. The flag, mode, block-move and power instructions (spec/49_system.md R290 to R306). -/

namespace Sys2Proof.Machine

/-- Settles O51: each answers the state with its one field replaced. -/
theorem flagAndPowerResults : Obligations.FlagAndPowerResults := fun _ _ =>
  ⟨⟨_, rfl, rfl⟩, ⟨_, rfl, rfl⟩, ⟨_, rfl, rfl⟩, ⟨_, rfl, rfl⟩, ⟨_, rfl, rfl⟩, ⟨_, rfl, rfl⟩, ⟨_, rfl, rfl⟩, ⟨_, rfl, rfl⟩,
    ⟨_, rfl, rfl⟩, ⟨_, rfl, rfl⟩, ⟨_, rfl, rfl⟩⟩

/-- Forcing M and X to 1 sets bits 5 and 4 of the byte (10_state R28, R29). -/
theorem packP_forced_getLsbD (v : Byte) {b : Nat} (hb : b < 8) :
    (packP { unpackP v with M := true, X := true }).getLsbD b = if b = 5 ∨ b = 4 then true else v.getLsbD b := by
  have hforced : ({ unpackP v with M := true, X := true } : Status) = unpackP (v ||| 0x30) := by
    simp [unpackP]
  have hmask : ∀ b < 8, (0x30 : Byte).getLsbD b = decide (b = 5 ∨ b = 4) := by decide
  rw [hforced, packP_unpackP, BitVec.getLsbD_or, hmask b hb]
  split <;> simp [*]

/-- Settles O52: packing what was unpacked gives the byte of the AND or OR back. -/
theorem repSepResults : Obligations.RepSepResults := by
  intro k s
  refine ⟨⟨_, rfl, rfl, fun b hb => ?rep⟩, ⟨_, rfl, ?sep⟩⟩
  case rep =>
    have hand : (packP s.P &&& ~~~k).getLsbD b = ((packP s.P).getLsbD b && !k.getLsbD b) := by
      rw [BitVec.getLsbD_and, BitVec.getLsbD_not, decide_eq_true hb, Bool.true_and]
    dsimp only
    cases hE : s.E with
    | true =>
      rw [if_pos rfl, packP_forced_getLsbD _ hb, hand]
      simp
    | false =>
      rw [if_neg (by simp), packP_unpackP, hand]
      simp
  case sep =>
    rw [clearIndexHigh_eq]
    refine ⟨rfl, fun b _ => ?_, rfl, rfl⟩
    rw [packP_unpackP, BitVec.getLsbD_or]

/-- Settles O53: the carry selects the mode, and emulation mode forces its values. -/
theorem exchangeModeResults : Obligations.ExchangeModeResults := by
  intro s
  refine ⟨fun hC => ⟨_, rfl, ?native⟩, fun hC => ⟨_, rfl, ?emulation⟩⟩
  case native => rw [hC]; rfl
  case emulation =>
    rw [hC]
    have hbyte (v : Word) : (zext (lowByte v)).toNat = v.toNat % 256 := (zext_toNat _).trans (lowByte_toNat v)
    exact ⟨rfl, hbyte _, hbyte _, (toNat_page1 _).trans (by rw [lowByte_toNat])⟩

/-- The count has run out when it was 0 (49_system R302). -/
theorem sub_one_eq_max_iff (v : Word) : v - 1 = 0xFFFF ↔ v.toNat = 0 := by
  rw [← BitVec.toNat_inj, toNat_sub_one]
  have := v.isLt
  have hmax : (0xFFFF : Word).toNat = 65535 := rfl
  omega

/-- A block move stores at its destination alone (49_system R302). -/
theorem blockMove_other (delta : Word) (dst src : Byte) (s : State) {a : Addr} (h : a ≠ mkAddr dst s.Y) :
    byteAt (blockMove delta dst src s) a = byteAt s a :=
  Memory.read_write_other _ _ _ _ fun e => h (BitVec.eq_of_toNat_eq e)

/-- Settles O54: MVN and MVP are one move with steps of 1 and of -1, which is 65535 modulo 2^16. -/
theorem blockMoveResults : Obligations.BlockMoveResults := by
  intro dst src s n Moves
  have hmoves (delta : Word) : Moves delta.toNat (blockMove delta dst src s) := by
    refine ⟨Memory.read_write_same _ _ _, rfl, moveIndex_toNat _ _ _, moveIndex_toNat _ _ _, toNat_sub_one _, ?pc,
      blockMove_writes delta dst src s, fun a ha => blockMove_other delta dst src s (List.ne_of_not_mem_cons ha)⟩
    case pc => exact (ite_not ..).trans (if_congr (sub_one_eq_max_iff s.A) rfl rfl)
  exact ⟨⟨_, rfl, hmoves 1⟩, ⟨_, rfl, hmoves (-1)⟩⟩

end Sys2Proof.Machine
end

section
/-! PROOFS. Traps, interrupts and the return from them (spec/49_system.md R305 to R309,
spec/60_exceptions.md R311 to R320). -/

namespace Sys2Proof.Machine

/-! ### Traps -/

/-- Settles O55: each trap is the entry sequence through the vector of its kind, with PC as the return address. -/
theorem trapResults : Obligations.TrapResults := by
  intro sig s
  have hbrk := takeException_spec .brk s.PC s
  have hcop := takeException_spec .cop s.PC s
  rw [vector_brk] at hbrk
  rw [vector_cop] at hcop
  exact ⟨⟨_, rfl, hbrk⟩, ⟨_, rfl, hcop⟩⟩

/-! ### The boundary when an event is due or the core does not run -/

theorem vector_nmi (e : Bool) : vector .nmi e = if e then 0xFFFA else 0xFFEA := by cases e <;> rfl

theorem vector_irq (e : Bool) : vector .irq e = if e then 0xFFFE else 0xFFEE := by cases e <;> rfl

/-- Without an NMI the sample uses up its pins and leaves the latch clear (60_exceptions R313). -/
theorem samplePins_of_no_nmi {s : State} (h : (s.nmiPending || (currentPins s).nmiEdge) = false) :
    samplePins s = { s with inputs := s.inputs.tail, nmiPending := false } := by
  rw [samplePins, h]

section
variable {s : State} (hreset : (currentPins s).resetLine = false)
include hreset

/-- A stopped core takes no step until RESET (49_system R306). -/
theorem boundary_of_stopped (hstopped : s.stopped = true) : boundary s = .settled (samplePins s) := by
  simp [boundary, decideBoundary, hreset, hstopped]

variable (hstopped : s.stopped = false) (habort : (currentPins s).abortLine = false)
include hstopped habort

/-- A pending NMI, or an edge at this step, is taken, and the latch and the waiting state are cleared
(60_exceptions R313). -/
theorem boundary_of_nmi (hnmi : (s.nmiPending || (currentPins s).nmiEdge) = true) :
    boundary s = .settled
      (takeException .nmi s.PC { s with inputs := s.inputs.tail, nmiPending := false, waiting := false }) := by
  simp [boundary, decideBoundary, samplePins, hreset, hstopped, habort, hnmi]

variable (hnmi : (s.nmiPending || (currentPins s).nmiEdge) = false)
include hnmi

/-- An unmasked IRQ is taken when no NMI is pending (60_exceptions R314). -/
theorem boundary_of_irq (hirq : (currentPins s).irqLine = true) (hI : s.P.I = false) :
    boundary s = .settled
      (takeException .irq s.PC { s with inputs := s.inputs.tail, nmiPending := false, waiting := false }) := by
  simp [boundary, decideBoundary, samplePins_of_no_nmi hnmi, hreset, hstopped, habort, hirq, hI]

/-- A waiting core with no event to take stays where it is, but for a masked IRQ, which ends the wait (49_system R305). -/
theorem boundary_of_waiting (hwaiting : s.waiting = true) (hmasked : ((currentPins s).irqLine && !s.P.I) = false) :
    boundary s = .settled
      (if (currentPins s).irqLine then { samplePins s with waiting := false } else samplePins s) := by
  simp [boundary, decideBoundary, samplePins_of_no_nmi hnmi, hreset, hstopped, habort, hwaiting, hmasked]

end

/-- Settles O13: the boundary of a stopped or waiting core is settled at the sampled state. -/
theorem stoppedAndWaiting : Obligations.StoppedAndWaiting := by
  intro s hreset
  refine ⟨fun hstopped => step_of_settled (boundary_of_stopped hreset hstopped), fun hstopped habort hnmi hwaiting => ?_⟩
  have hsettled := boundary_of_waiting hreset hstopped habort hnmi hwaiting
  rw [samplePins_of_no_nmi hnmi] at hsettled
  refine ⟨fun hirq hI => ?masked, fun hirq => ?quiet⟩
  case masked =>
    rw [step_of_settled (hsettled (by rw [hI, Bool.not_true, Bool.and_false])), if_pos hirq]
  case quiet =>
    rw [step_of_settled (hsettled (by rw [hirq, Bool.false_and])), if_neg (by simp [hirq])]

/-- Settles O12: the boundary takes the event, and the entry sequence does the rest. -/
theorem interruptsAreTaken : Obligations.InterruptsAreTaken := by
  intro s hreset hstopped habort nmi Takes
  refine ⟨fun hnmi => ⟨_, step_of_settled (boundary_of_nmi hreset hstopped habort hnmi), ?nmi⟩,
    fun hnmi hirq hI => ⟨_, step_of_settled (boundary_of_irq hreset hstopped habort hnmi hirq hI), ?irq⟩⟩
  case nmi => rw [← vector_nmi]; exact takeException_spec .nmi s.PC _
  case irq => rw [← vector_irq]; exact takeException_spec .irq s.PC _

/-! ### The return from an exception -/

/-- A pull does not look at P and the index registers: it gives the same byte before and after P is written. -/
theorem pull8_pullP (r : StackRule) (v : Byte) (s : State) :
    pull8 r (pullP v s) = ((pull8 r s).1, pullP v (pull8 r s).2) := by
  rw [pullP_eq, pullP_eq]
  rfl

/-- A pull does not look at PC. -/
theorem pull8_jump (r : StackRule) (pc : Word) (s : State) :
    pull8 r { s with PC := pc } = ((pull8 r s).1, { (pull8 r s).2 with PC := pc }) := rfl

/-- The return in emulation mode: three pulls, P as PLP writes it, and PC (60_exceptions R320). -/
theorem returnFromException_emulation {s : State} (h : s.E = true) :
    ∃ v lo hi, (pullBytes .legacy 3 s).1 = [v, lo, hi] ∧
      returnFromException s = { pullP v (pullBytes .legacy 3 s).2 with PC := mkWord hi lo } := by
  refine ⟨_, _, _, rfl, ?_⟩
  simp only [returnFromException, pull16, pull8_pullP, if_pos h, pullBytes]

/-- The return in native mode: four pulls, P as PLP writes it, PC and PBR (60_exceptions R320). -/
theorem returnFromException_native {s : State} (h : s.E = false) :
    ∃ v lo hi bank, (pullBytes .legacy 4 s).1 = [v, lo, hi, bank] ∧
      returnFromException s = { pullP v (pullBytes .legacy 4 s).2 with PC := mkWord hi lo, PBR := bank } := by
  refine ⟨_, _, _, _, rfl, ?_⟩
  simp only [returnFromException, pull16, pull8_pullP, pull8_jump, h, Bool.false_eq_true, if_false, pullBytes]

/-- Settles O56: pulls change S, the answers and the record alone, and the pulled bytes are those of the pull slots. -/
theorem returnFromInterruptResults : Obligations.ReturnFromInterruptResults := by
  intro s
  refine ⟨_, rfl, ?_⟩
  cases hE : s.E with
  | true =>
    obtain ⟨v, lo, hi, hbytes, hreturn⟩ := returnFromException_emulation hE
    obtain ⟨hpulled, answers, events, hstate⟩ := pullBytes_spec .legacy 3 s (by decide)
    rw [hreturn, hstate, pullP_eq]
    dsimp only
    rw [hE]
    exact ⟨⟨v, lo, hi, 0, hpulled.symm.trans hbytes, rfl, rfl, rfl⟩, rfl, rfl, rfl, fun _ => rfl, rfl⟩
  | false =>
    obtain ⟨v, lo, hi, bank, hbytes, hreturn⟩ := returnFromException_native hE
    obtain ⟨hpulled, answers, events, hstate⟩ := pullBytes_spec .legacy 4 s (by decide)
    rw [hreturn, hstate, pullP_eq]
    dsimp only
    rw [hE]
    exact ⟨⟨v, lo, hi, bank, hpulled.symm.trans hbytes, rfl, rfl, rfl⟩, rfl, rfl, rfl, fun _ => rfl, rfl⟩

/-! ### A return right after an entry -/

/-- With no answer of the platform pending, pulls give the pushed bytes in the opposite order, and end at the first S
(20_memory R74). -/
theorem Pushed.pulled {bytes : List Byte} {s t : State} (h : Pushed .legacy bytes s t)
    (hlegal : s.E = true → highByte s.S = 0x01) (hE : t.E = s.E) (hS : t.S = pushEnd .legacy bytes.length s)
    (hanswers : t.answers = []) :
    (pullSlots .legacy bytes.length t).map (fun a => busValue a t) = bytes.reverse ∧
      pullEnd .legacy bytes.length t = s.S := by
  obtain ⟨hbytes, -⟩ := h
  obtain ⟨hslots, hend⟩ := pull_after_push hlegal hE hS
  refine ⟨?_, hend⟩
  calc (pullSlots .legacy bytes.length t).map (fun a => busValue a t)
    _ = (pullSlots .legacy bytes.length t).map (byteAt t) := by rw [funext (busValue_eq_byteAt hanswers)]
    _ = ((pushSlots .legacy bytes.length s).map (byteAt t)).reverse := by rw [hslots, List.map_reverse]
    _ = bytes.reverse := by rw [hbytes]

/-- An entry gets no answer of the platform where none is pending. -/
theorem takeException_answers (kind : Exception) (ret : Word) {s : State} (h : s.answers = []) :
    (takeException kind ret s).answers = [] := by
  have hpush : (pushFrame kind ret s).answers = [] := by rw [pushFrame_eq, pushBytes_answers, h]
  show dropAnswer (dropAnswer (pushFrame kind ret s).answers _) _ = []
  rw [hpush]
  rfl

/-- P survives its way over the stack in emulation mode, where the width bits are 1 (10_state R28, R38). -/
theorem unpackP_pushedP_emulation (b : Bool) {s : State} (h : s.E = true) (hM : s.P.M = true) (hX : s.P.X = true) :
    ({ unpackP (pushedP b s) with M := true, X := true } : Status) = s.P := by
  rw [pushedP_emulation b h, unpackP_packP]
  calc ({ s.P with M := true, X := true } : Status)
    _ = { s.P with M := s.P.M, X := s.P.X } := by rw [hM, hX]
    _ = s.P := rfl

/-- Clearing the high byte of an index register changes nothing in a legal state (10_state R23). -/
theorem zext_lowByte_of_high {v : Word} (h : highByte v = 0x00) : zext (lowByte v) = v := by
  rw [zext, ← h, mkWord_bytes]

theorem frameBytes_emulation (b : Bool) (ret : Word) {s : State} (h : s.E = true) :
    frameBytes b ret s = [highByte ret, lowByte ret, pushedP b s] := by
  rw [frameBytes, h]; rfl

theorem frameBytes_native (b : Bool) (ret : Word) {s : State} (h : s.E = false) :
    frameBytes b ret s = [s.PBR, highByte ret, lowByte ret, packP s.P] := by
  rw [frameBytes, h]; rfl

/-- The return gives back what the frame holds: P, PC, and in native mode PBR (60_exceptions R318, R320). -/
theorem returnFromException_of_frame {b : Bool} {ret : Word} {s e : State} (hs : s.emulationLegal)
    (hpushed : Pushed .legacy (frameBytes b ret s) s e) (hE : e.E = s.E)
    (hS : e.S = pushEnd .legacy (frameBytes b ret s).length s) (hanswers : e.answers = []) :
    let t := returnFromException e
    t.P = s.P ∧ t.PC = ret ∧ t.S = s.S ∧ t.PBR = if s.E then e.PBR else s.PBR := by
  intro t
  obtain ⟨_, hreturn, ⟨v, lo, hi, bank, hpulled, hP, hPC, hPBR⟩, -, -, hSt, -⟩ := returnFromInterruptResults e
  obtain rfl := Host.Outcome.next.inj hreturn
  obtain ⟨hbytes, hend⟩ := hpushed.pulled (fun h => (hs h).2.2) hE hS hanswers
  rw [frameBytes_length] at hbytes hend
  rw [hE] at hpulled hP hPBR hSt
  have hlist := hpulled.symm.trans hbytes
  cases hmode : s.E with
  | true =>
    obtain ⟨hM, hX, -⟩ := hs hmode
    rw [hmode, frameBytes_emulation b ret hmode] at hlist
    rw [hmode] at hP hPBR
    obtain ⟨rfl, rfl, rfl⟩ : v = pushedP b s ∧ lo = lowByte ret ∧ hi = highByte ret := by simpa using hlist
    exact ⟨hP.trans (unpackP_pushedP_emulation b hmode hM hX), hPC.trans (mkWord_bytes ret), hSt.trans hend, hPBR⟩
  | false =>
    rw [hmode, frameBytes_native b ret hmode] at hlist
    rw [hmode] at hP hPBR
    obtain ⟨rfl, rfl, rfl, rfl⟩ : v = packP s.P ∧ lo = lowByte ret ∧ hi = highByte ret ∧ bank = s.PBR := by
      simpa using hlist
    exact ⟨hP.trans (unpackP_packP s.P), hPC.trans (mkWord_bytes ret), hSt.trans hend, hPBR⟩

/-- Settles O57: the return pulls the frame that the entry pushed, and P comes back as it was, so the legal index registers
stay as they are. -/
theorem returnUndoesEntry : Obligations.ReturnUndoesEntry := by
  intro kind ret s hinv hanswers
  obtain ⟨hindex, hemulation, -⟩ := hinv
  obtain ⟨hpushed, -, -, hframe⟩ := takeException_spec kind ret s
  have hempty := takeException_answers kind ret hanswers
  dsimp only
  generalize takeException kind ret s = e at *
  obtain ⟨_, hreturn, -, hX, hY, -, -, hreads⟩ := returnFromInterruptResults e
  obtain rfl := Host.Outcome.next.inj hreturn
  obtain ⟨hP, hPC, hS, hPBR⟩ := returnFromException_of_frame hemulation hpushed (by rw [hframe]) (by rw [hframe]) hempty
  generalize returnFromException e = t at *
  have hbank : e.PBR = 0x00 := by rw [hframe]
  have heX : e.X = s.X := by rw [hframe]
  have heY : e.Y = s.Y := by rw [hframe]
  rw [hbank] at hPBR
  rw [hP, heX, ite_eq_right_iff.mpr fun h => zext_lowByte_of_high (hindex h).1] at hX
  rw [hP, heY, ite_eq_right_iff.mpr fun h => zext_lowByte_of_high (hindex h).2] at hY
  refine ⟨hP, hPC, hS, hPBR, ?_, hX, hY, ?_⟩
  · rw [hreads, hframe]
  · rw [hreads, hframe]
    exact ⟨rfl, rfl, rfl⟩

end Sys2Proof.Machine
end

section
/-! PROOFS. Reset and the cycle counter (spec/70_reset_and_hazards.md R340 to R352, spec/60_exceptions.md R316). -/

namespace Sys2Proof.Machine

/-! ### Reset -/

/-- Settles O8: the reset state has the high bytes and the width bits that emulation mode asks for, and so has the state
after any reset sequence, which writes no memory. -/
theorem resetIsLegal : Obligations.ResetIsLegal :=
  ⟨by decide, resetSequence_inv⟩

/-- Settles O10: each value is a field of the reset state, and its memory reads 0x00 at the vector. -/
theorem resetStateTable : Obligations.ResetStateTable := by
  unfold Obligations.ResetStateTable
  decide

/-- RESET comes before every other case of the boundary (60_exceptions R316). -/
theorem boundary_of_reset {s : State} (h : (currentPins s).resetLine = true) :
    boundary s = .settled (resetSequence (samplePins s)) := by
  rw [boundary, decideBoundary, if_pos h]

/-- The reset sequence takes PC from the vector at 0x00FFFC (70_reset_and_hazards R340). -/
theorem resetSequence_PC (s : State) : (resetSequence s).PC = mkWord (busValue 0x00FFFD s) (busValue 0x00FFFC s) :=
  memRead16_val (bank0 0xFFFC) _

/-- The reset sequence reads its vector and makes no other access (70_reset_and_hazards R342). -/
theorem resetSequence_accesses (s : State) : Accesses (readsAt (wordAddrs 0x00FFFC 0x00FFFD)) s (resetSequence s) :=
  (memRead_accesses .w16 (bank0 0xFFFC) _).of_bus ⟨rfl, rfl, rfl⟩ ⟨rfl, rfl, rfl⟩

/-- Settles O11: the boundary takes the reset, and the sample before it touches pins and latch alone. -/
theorem resetFromAnyState : Obligations.ResetFromAnyState := by
  intro s hreset
  exact ⟨_, step_of_settled (boundary_of_reset hreset), rfl, rfl, rfl, rfl, rfl, rfl, rfl, rfl, rfl, rfl, rfl, rfl, rfl,
    resetSequence_PC (samplePins s), rfl, rfl, rfl, (resetSequence_accesses (samplePins s)).before ⟨rfl, rfl, rfl⟩⟩

/-! ### The cycle counter -/

/-- A shift or rotate adds one unit (42_shift_rotate frame). -/
theorem modifyWithCarry_cycles (f : Width → Word → Bool → Word × Bool) (t : Target) (s : State) :
    (modifyWithCarry f t s).cycles = s.cycles + oneUnit := by
  cases t with
  | acc => obtain ⟨-, -, -, -, -, h, -⟩ := modifyAcc_spec f s; exact h
  | mem m => obtain ⟨-, -, -, -, h, -⟩ := modifyMem_spec f m s; exact h

/-- INC and DEC add one unit (43_incdec frame). -/
theorem modifyStep_cycles (f : Width → Word → Word) (t : Target) (s : State) :
    (modifyStep f t s).cycles = s.cycles + oneUnit := by
  cases t with
  | acc => simp [modifyStep, oneUnit]
  | mem m => obtain ⟨-, -, -, h, -⟩ := modifyStepMem_spec f m s; exact h

/-- TSB and TRB add one unit (46_bit_test R222, R223). -/
theorem testModify_cycles (f : Word → Word → Word) (m : Mode) (s : State) :
    (testModify f m s).cycles = s.cycles + oneUnit := by
  obtain ⟨-, -, -, h, -⟩ := testModify_spec f m s
  exact h

/-- Settles O60: the read-modify-writes add one unit, and the writer tables give every other instruction no write of the
counter. -/
theorem cycleCounterRule : Obligations.CycleCounterRule := by
  refine ⟨fun i s t h => ?instr, fun kind ret s => ?entry, fun s => rfl⟩
  case entry =>
    obtain ⟨-, -, -, hframe⟩ := takeException_spec kind ret s
    rw [hframe]
  case instr =>
    have hw := congrArg State.cycles (exec_writtenBy h)
    cases i with
    | asl r | lsr r | rol r | ror r => cases h; exact modifyWithCarry_cycles _ r s
    | inc r | dec r => cases h; exact modifyStep_cycles _ r s
    | tsb m | trb m => cases h; exact testModify_cycles _ m s
    | _ => exact hw

end Sys2Proof.Machine
end
